-- ==== Sys2Proof/Word.lean ====
section
/-! DEFINITION. The widths of the block's words (R13, R14, R70 to R72). -/

namespace Sys2Proof

/-- A command word, a response word, a counter value: 32 bits (R41, R45, R70, R78). -/
abbrev Word := BitVec 32

/-- A data byte, u8 (R14). -/
abbrev Byte := BitVec 8

/-- A pin id, 8 bits: 0 to 254 name a pin (R13). -/
abbrev PinId := BitVec 8

/-- The pin id 0xFF, NONE: no pin is assigned (R13). -/
abbrev noPin : PinId := 0xFF#8

/-- A baud rate, u24 (R71, R72). -/
abbrev Rate := BitVec 24

/-- A handler id, u24, with 0 for no handler (R28, R71). -/
abbrev HandlerId := BitVec 24

end Sys2Proof
end

