-- ==== Sys2Proof/Config.lean ====
section
/-! DEFINITION. What a construction and a platform fix (R9, R11). Both are fields of State that no step
writes, so a statement about every state is a statement about every construction and platform. -/

namespace Sys2Proof

/-- The construction parameters of R9: fixed from reset for the life of one UART. `invert` and `cap`
default as R9 and R240 say. -/
structure Construction where
  rxPin  : PinId
  txPin  : PinId
  invert : Bool := false
  cap    : Nat := 64
  deriving DecidableEq, Repr

/-- The platform parameters of R11, every one of them OPEN in the spec.
`validRx` lists the pins on which PIN_VALID_RX is true and `validTx` those of PIN_VALID_TX: any total predicate on
the ids 0 to 254 (R12) is such a list. `pinsInUse` lists the pins of the other UARTs of the platform, TE pins
included (R224). -/
structure Platform where
  fClk      : Nat
  validRx   : List PinId
  validTx   : List PinId
  txJitter  : Nat
  pinsInUse : List PinId
  deriving DecidableEq, Repr

/-- The construction of the spec's end-to-end scenario, `(rxPin=4, txPin=5)` (95_test_vectors S6), with the defaults
of R9. DESIGN CHOICE (log 1, unsafe): R9 gives the pins no default. -/
def Construction.scenario : Construction := { rxPin := 4#8, txPin := 5#8 }

/-- The platform of the spec's vectors: 80 MHz, no jitter, and every pin a vector names is valid
(95_test_vectors, common assumptions). DESIGN CHOICE (log 1, unsafe): R11 leaves every value open. -/
def Platform.vectors : Platform :=
  { fClk := 80000000
    validRx := [2#8, 3#8, 4#8, 5#8]
    validTx := [2#8, 3#8, 4#8, 5#8]
    txJitter := 0
    pinsInUse := [] }

end Sys2Proof
end

