-- ==== Sys2Proof/Syntax.lean ====
section
/-! DEFINITION. The commands of the opcode map (R73), their operand formats (R71), and the assembler's
source lines (R82, R83). -/

namespace Sys2Proof

/-- One command of the opcode map with its operand (R71, R73). `endRx` is the table's `end`, a word Lean
keeps for itself. -/
inductive Instr where
  | begin (baud : Rate)
  | baudRate
  | setTransmitEnablePin (pin : PinId)
  | enableIntTx (on : Bool)
  | available
  | peek
  | read
  | flush
  | write (byte : Byte)
  | valid
  | enableRx (on : Bool)
  | enableTx (on : Bool)
  | overflow
  | onReceive (handler : HandlerId)
  | listen
  | endRx
  | isListening
  | stopListening
  | poll
  deriving DecidableEq, Repr

/-- The operand formats of R71. -/
inductive Format where
  | N | B | P | D | R | H
  deriving DecidableEq, Repr

/-- The rows of the opcode map, without operands (R73). -/
inductive Mnemonic where
  | begin | baudRate | setTransmitEnablePin | enableIntTx | available | peek | read | flush | write | valid
  | enableRx | enableTx | overflow | onReceive | listen | endRx | isListening | stopListening | poll
  deriving DecidableEq, Repr

/-- Every row, in the order of R73. -/
def Mnemonic.all : List Mnemonic :=
  [.begin, .baudRate, .setTransmitEnablePin, .enableIntTx, .available, .peek, .read, .flush, .write, .valid,
   .enableRx, .enableTx, .overflow, .onReceive, .listen, .endRx, .isListening, .stopListening, .poll]

/-- The format column of R73. -/
def Mnemonic.format : Mnemonic → Format
  | .begin => .R
  | .baudRate => .N
  | .setTransmitEnablePin => .P
  | .enableIntTx => .B
  | .available => .N
  | .peek => .N
  | .read => .N
  | .flush => .N
  | .write => .D
  | .valid => .N
  | .enableRx => .B
  | .enableTx => .B
  | .overflow => .N
  | .onReceive => .H
  | .listen => .N
  | .endRx => .N
  | .isListening => .N
  | .stopListening => .N
  | .poll => .N

/-- The row an instruction stands in. -/
def Instr.mnemonic : Instr → Mnemonic
  | .begin _ => .begin
  | .baudRate => .baudRate
  | .setTransmitEnablePin _ => .setTransmitEnablePin
  | .enableIntTx _ => .enableIntTx
  | .available => .available
  | .peek => .peek
  | .read => .read
  | .flush => .flush
  | .write _ => .write
  | .valid => .valid
  | .enableRx _ => .enableRx
  | .enableTx _ => .enableTx
  | .overflow => .overflow
  | .onReceive _ => .onReceive
  | .listen => .listen
  | .endRx => .endRx
  | .isListening => .isListening
  | .stopListening => .stopListening
  | .poll => .poll

/-- A command as an assembler line gives it: the mnemonic and the operand's number, `none` where the line has no
operand (R82). -/
structure SourceCommand where
  mnemonic : Mnemonic
  operand  : Option Nat
  deriving DecidableEq, Repr

/-- One line of assembler source (R82): nothing but white space or a comment, a command, or one of the two
pseudo-instructions (R83) with its bytes or its character codes. -/
inductive SourceLine where
  | blank
  | command (c : SourceCommand)
  | writeBytes (bytes : List Nat)
  | writeString (codes : List Nat)
  deriving DecidableEq, Repr

/-- An instruction's operand as the number an assembler line would give. -/
def Instr.operand : Instr → Option Nat
  | .begin baud => some baud.toNat
  | .setTransmitEnablePin pin => some pin.toNat
  | .enableIntTx on => some on.toNat
  | .write byte => some byte.toNat
  | .enableRx on => some on.toNat
  | .enableTx on => some on.toNat
  | .onReceive handler => some handler.toNat
  | .baudRate | .available | .peek | .read | .flush | .valid | .overflow | .listen | .endRx | .isListening
  | .stopListening | .poll => none

/-- The source command an instruction comes from. -/
def Instr.source (i : Instr) : SourceCommand := ⟨i.mnemonic, i.operand⟩

end Sys2Proof
end

