-- ==== Sys2Proof/WellFormed.lean ====
section
/-! DEFINITION. What counts as a legal operand (R71, R82), a legal construction (R9) and a legal platform
(R11, R12). -/

namespace Sys2Proof

/-- The operands a format admits (R71): format N none, format B 0 or 1, formats P and D eight bits, formats R and H
twenty-four bits. -/
def Format.admits : Format → Option Nat → Bool
  | .N, none => true
  | .N, some _ => false
  | .B, some n => n < 2
  | .P, some n => n < 256
  | .D, some n => n < 256
  | .R, some n => n < 16777216
  | .H, some n => n < 16777216
  | .B, none | .P, none | .D, none | .R, none | .H, none => false

/-- A source command whose operand its format admits. -/
def SourceCommand.wellFormed (c : SourceCommand) : Bool := c.mnemonic.format.admits c.operand

/-- A source line whose operands are in range; the pseudo-instructions take bytes and character codes below 256
(R83). -/
def SourceLine.wellFormed : SourceLine → Bool
  | .blank => true
  | .command c => c.wellFormed
  | .writeBytes bytes => !bytes.isEmpty && bytes.all (· < 256)
  | .writeString codes => codes.all (· < 256)

/-- An instruction is well formed when its operand is one its format admits. The types of Instr's fields already
carry this: `Instr.wellFormed_always` under Laws/ proves it of every instruction. -/
def Instr.wellFormed (i : Instr) : Bool := i.source.wellFormed

/-- R9: 1 ≤ CAP ≤ 65536. -/
def Construction.wellFormed (c : Construction) : Bool := decide (1 ≤ c.cap) && decide (c.cap ≤ 65536)

/-- R11 and R12: 1 ≤ F_CLK < 2^32, and neither predicate is true at NONE, where it is never evaluated. Construction does not
check it and no statement assumes it: DESIGN CHOICE (log 22, safe). -/
def Platform.wellFormed (p : Platform) : Bool :=
  decide (1 ≤ p.fClk) && decide (p.fClk < 4294967296) && !p.validRx.contains noPin && !p.validTx.contains noPin

end Sys2Proof
end

