-- ==== Sys2Proof/Decode.lean ====
section
/-! DEFINITION. The command encoding (R70 to R76): the decoder, total on every 32-bit word and refusing by
name, and the encoder. -/

namespace Sys2Proof

/-- Why a word is no command (R74, R75). -/
inductive DecodeError where
  /-- `OP` is 0x00 or 0x14 to 0xFF (R74). -/
  | reservedOpcode
  /-- `OP` is defined and a reserved operand bit is not 0 (R75). -/
  | reservedBits
  deriving DecidableEq, Repr

/-- `OP = cmd[31:24]` (R70). -/
def opField (w : Word) : BitVec 8 := w.extractLsb' 24 8

/-- `ARG = cmd[23:0]` (R70). -/
def argField (w : Word) : BitVec 24 := w.extractLsb' 0 24

/-- The OP column of R73. -/
def Mnemonic.opcode : Mnemonic → BitVec 8
  | .begin => 0x01#8
  | .baudRate => 0x02#8
  | .setTransmitEnablePin => 0x03#8
  | .enableIntTx => 0x04#8
  | .available => 0x05#8
  | .peek => 0x06#8
  | .read => 0x07#8
  | .flush => 0x08#8
  | .write => 0x09#8
  | .valid => 0x0A#8
  | .enableRx => 0x0B#8
  | .enableTx => 0x0C#8
  | .overflow => 0x0D#8
  | .onReceive => 0x0E#8
  | .listen => 0x0F#8
  | .endRx => 0x10#8
  | .isListening => 0x11#8
  | .stopListening => 0x12#8
  | .poll => 0x13#8

/-- The row whose OP this is; none for the reserved opcodes 0x00 and 0x14 to 0xFF (R73, R74). -/
def Mnemonic.ofOpcode (op : BitVec 8) : Option Mnemonic :=
  match op.toNat with
  | 0x01 => some .begin
  | 0x02 => some .baudRate
  | 0x03 => some .setTransmitEnablePin
  | 0x04 => some .enableIntTx
  | 0x05 => some .available
  | 0x06 => some .peek
  | 0x07 => some .read
  | 0x08 => some .flush
  | 0x09 => some .write
  | 0x0A => some .valid
  | 0x0B => some .enableRx
  | 0x0C => some .enableTx
  | 0x0D => some .overflow
  | 0x0E => some .onReceive
  | 0x0F => some .listen
  | 0x10 => some .endRx
  | 0x11 => some .isListening
  | 0x12 => some .stopListening
  | 0x13 => some .poll
  | _ => none

/-- The bits of ARG a format does not use: they must be 0 (R71, R75). -/
def Format.reserved : Format → BitVec 24
  | .N => 0xFFFFFF#24
  | .B => 0xFFFFFE#24
  | .P => 0xFFFF00#24
  | .D => 0xFFFF00#24
  | .R => 0#24
  | .H => 0#24

/-- Operand assembly (R72): every field is unsigned and taken as it stands. -/
def Mnemonic.withArgument (m : Mnemonic) (arg : BitVec 24) : Instr :=
  match m with
  | .begin => .begin arg
  | .baudRate => .baudRate
  | .setTransmitEnablePin => .setTransmitEnablePin (arg.extractLsb' 0 8)
  | .enableIntTx => .enableIntTx (arg.getLsbD 0)
  | .available => .available
  | .peek => .peek
  | .read => .read
  | .flush => .flush
  | .write => .write (arg.extractLsb' 0 8)
  | .valid => .valid
  | .enableRx => .enableRx (arg.getLsbD 0)
  | .enableTx => .enableTx (arg.getLsbD 0)
  | .overflow => .overflow
  | .onReceive => .onReceive arg
  | .listen => .listen
  | .endRx => .endRx
  | .isListening => .isListening
  | .stopListening => .stopListening
  | .poll => .poll

/-- The decoder: first OP, then the fields of OP's format (R70); total, with the two refusals of R74 and R75 in
the order of R217. -/
def decode (w : Word) : Except DecodeError Instr :=
  match Mnemonic.ofOpcode (opField w) with
  | none => .error .reservedOpcode
  | some m =>
    if argField w &&& m.format.reserved = 0#24 then .ok (m.withArgument (argField w))
    else .error .reservedBits

/-- The operand field an instruction is encoded with (R71, R72). -/
def Instr.argument : Instr → BitVec 24
  | .begin baud => baud
  | .setTransmitEnablePin pin => pin.setWidth 24
  | .enableIntTx on => (BitVec.ofBool on).setWidth 24
  | .write byte => byte.setWidth 24
  | .enableRx on => (BitVec.ofBool on).setWidth 24
  | .enableTx on => (BitVec.ofBool on).setWidth 24
  | .onReceive handler => handler
  | .baudRate | .available | .peek | .read | .flush | .valid | .overflow | .listen | .endRx | .isListening
  | .stopListening | .poll => 0#24

/-- The encoder: `{OP, ARG}` (R70). -/
def encode (i : Instr) : Word := i.mnemonic.opcode ++ i.argument

/-- A row of the opcode map as R73 prints it. -/
structure OpcodeRow where
  mnemonic : Mnemonic
  pattern  : Word
  mask     : Word
  deriving DecidableEq, Repr

/-- The match and mask columns of R73, copied from the rule. The decoder does not read them: that it agrees with them
is a statement. -/
def opcodeTable : List OpcodeRow :=
  [⟨.begin, 0x01000000#32, 0xFF000000#32⟩,
   ⟨.baudRate, 0x02000000#32, 0xFFFFFFFF#32⟩,
   ⟨.setTransmitEnablePin, 0x03000000#32, 0xFFFFFF00#32⟩,
   ⟨.enableIntTx, 0x04000000#32, 0xFFFFFFFE#32⟩,
   ⟨.available, 0x05000000#32, 0xFFFFFFFF#32⟩,
   ⟨.peek, 0x06000000#32, 0xFFFFFFFF#32⟩,
   ⟨.read, 0x07000000#32, 0xFFFFFFFF#32⟩,
   ⟨.flush, 0x08000000#32, 0xFFFFFFFF#32⟩,
   ⟨.write, 0x09000000#32, 0xFFFFFF00#32⟩,
   ⟨.valid, 0x0A000000#32, 0xFFFFFFFF#32⟩] ++
  [⟨.enableRx, 0x0B000000#32, 0xFFFFFFFE#32⟩,
   ⟨.enableTx, 0x0C000000#32, 0xFFFFFFFE#32⟩,
   ⟨.overflow, 0x0D000000#32, 0xFFFFFFFF#32⟩,
   ⟨.onReceive, 0x0E000000#32, 0xFF000000#32⟩,
   ⟨.listen, 0x0F000000#32, 0xFFFFFFFF#32⟩,
   ⟨.endRx, 0x10000000#32, 0xFFFFFFFF#32⟩,
   ⟨.isListening, 0x11000000#32, 0xFFFFFFFF#32⟩,
   ⟨.stopListening, 0x12000000#32, 0xFFFFFFFF#32⟩,
   ⟨.poll, 0x13000000#32, 0xFFFFFFFF#32⟩]

/-- The instruction the decoder reads from a word given as a number of `nbits` bits; the bits above are 0, and a
number that names a bit above 31 is no command word (log 21). -/
def decodeTableWord (nbits w : Nat) : Option Instr :=
  if nbits ≤ 32 then (decode (BitVec.ofNat 32 (w % 2 ^ nbits))).toOption else none

/-- The instruction a well-formed source command stands for; none where its operand is out of range (R71,
R82). -/
def SourceCommand.instr (c : SourceCommand) : Option Instr :=
  if c.wellFormed then some (c.mnemonic.withArgument (BitVec.ofNat 24 (c.operand.getD 0))) else none

/-- The commands a source line stands for, in order: a pseudo-instruction is one `write` a byte (R83). -/
def SourceLine.instrs (l : SourceLine) : Option (List Instr) :=
  if l.wellFormed then
    match l with
    | .blank => some []
    | .command c => c.instr.map (fun i => [i])
    | .writeBytes bytes => some (bytes.map (fun b => .write (BitVec.ofNat 8 b)))
    | .writeString codes => some (codes.map (fun b => .write (BitVec.ofNat 8 b)))
  else none

end Sys2Proof
end

