-- ==== Sys2Proof/Machine/State.lean ====
section
/-! DEFINITION. The machine's state (10_state.md), the reasons a step can stop, and the state after reset
(R240). Plain data throughout. -/

namespace Sys2Proof.Machine

/-- Why the model stops with a fault. The block itself never faults (R210). -/
inductive Fault where
  /-- Raised by `peek` and `read` when the cell at `tail` was never written; unreachable (R32, U1). Safe. -/
  | unwrittenCell
  /-- Raised by a ring access at an index of CAP or more; unreachable (R51). Safe. -/
  | noSuchCell
  /-- Raised by a turn of the host inside a `write` with interrupts suspended, at a time after the step's deadline
  plus TX_JITTER: the environment broke the bound of R144 (log 6). Safe. -/
  | jitterExceeded
  deriving DecidableEq, Repr

/-- Why the model refuses an input (R213, X8). The answer `refused` ends the run, which is R213's mark that no later
step clears; after a refused `begin`, where R91 says what `baudRate` responds, the mark is `State.refusal` and the run ends at the
next input that has no meaning (log 10). All safe. -/
inductive Refusal where
  /-- Raised by the dispatcher for an instruction that has no meaning yet; no arm does. Safe. -/
  | notModelled (mnemonic : String)
  /-- Raised by the command port for a word with a reserved OP (R74). Safe. -/
  | reservedOpcode
  /-- Raised by the command port for a word with a nonzero reserved bit (R75). Safe. -/
  | reservedBits
  /-- Raised by the command port for a command, or a destruction, while `busy` (R77, R173). Safe. -/
  | hostBusy
  /-- Marked on the state by `begin` for a rate with no usable period (R92), and raised by every later move but `baudRate` and
  the passing of time (R91, R213). Safe. -/
  | badBaud
  /-- Raised by `setTransmitEnablePin` for a pin that is RX_PIN or TX_PIN (R186). Safe. -/
  | tePinClash
  /-- Raised by construction with CAP outside 1 to 65536 (R9). Safe. -/
  | badConstruction
  /-- Raised by construction with a pin of another UART of the platform (R224). Safe. -/
  | sharedPin
  /-- Raised by the command port for a command after destruction (R246, X8). Safe. -/
  | destroyed
  deriving DecidableEq, Repr

/-- Why `Period` rejects a rate (R90). -/
inductive BaudRejection where
  | zeroBaud | periodZero | frameTooLong
  deriving DecidableEq, Repr

/-- The RX assembly's index between steps: −1 or 0 to 7 (R31). The value 8 (stop) lives only inside an evaluation, in
`advance` (log 18). -/
inductive RxIndex where
  | idle
  | data (i : Fin 8)
  deriving DecidableEq, Repr

/-- The number R31 gives an index. -/
def RxIndex.number : RxIndex → Int
  | .idle => -1
  | .data i => i.val

/-- What a `write` must restore (S20 of R22, R33). -/
structure TxSave where
  rx        : Bool
  lineOut   : Bool
  suspended : Bool
  deriving DecidableEq, Repr

/-- The ring storage: written cells as (index, byte), indices strictly rising; an unlisted cell has no value
(R32, R50). -/
abbrev Memory := List Host.Cell

/-- What can be observed of the block (R46, R80). -/
inductive Output where
  /-- A response word (R78). -/
  | response (v : Word)
  /-- A drive event: pin, level, counter value at the drive (R43). -/
  | drive (pin : PinId) (level : Bool) (time : Word)
  /-- A change of `int_suspend`, with its time (R35, R46). -/
  | suspend (level : Bool) (time : Word)
  /-- `Notify(h, n)` (R171). -/
  | notify (handler : HandlerId) (count : Word)
  deriving DecidableEq, Repr

/-- What an agent does in its turn (R19, R217). -/
inductive Move where
  /-- Nobody moves: only the readings change. -/
  | pass
  /-- The host presents a word on `cmd` (R45, R77). -/
  | command (w : Word)
  /-- The host, inside a `write`, tries its next step (R141, R145). -/
  | writeStep
  /-- The platform presents an edge event (R44, R102). -/
  | edge
  /-- The platform delivers the edge it latched during a suspension (R104). -/
  | deferredEdge
  /-- The host destroys the UART (R246). -/
  | destroy
  deriving DecidableEq, Repr

/-- One turn: the cycles that passed since the turn before (R41), the level of the receive pin (R42), whether another
UART or the platform masks interrupts (R103, R224), and the move. -/
structure Turn where
  elapsed : Nat
  level   : Bool
  masked  : Bool
  move    : Move
  deriving DecidableEq, Repr

/-- The machine. S1 to S20 are the fields of R22; the others are named at their lines. -/
structure State where
  /-- RX_PIN, TX_PIN, INVERT, CAP (R9, R23). -/
  construction : Construction
  /-- F_CLK, the pin predicates, TX_JITTER (R11) and the pins of other UARTs (R224). -/
  platform : Platform
  /-- S1. -/
  rxValid : Bool
  /-- S2. -/
  txValid : Bool
  /-- S3. -/
  teValid : Bool
  /-- S4. -/
  tePin : PinId
  /-- S5. -/
  baud : Rate
  /-- S6. -/
  period : Word
  /-- S7. -/
  rxEnabled : Bool
  /-- S8. -/
  intTxEnabled : Bool
  /-- S9. -/
  lineOut : Bool
  /-- S10. -/
  handler : HandlerId
  /-- S11. -/
  rxIdx : RxIndex
  /-- S12. -/
  rxAcc : Byte
  /-- S13. -/
  rxRef : Word
  /-- S14. -/
  head : Nat
  /-- S15. -/
  tail : Nat
  /-- S16. -/
  overflow : Bool
  /-- S17. -/
  buf : Memory
  /-- S18. -/
  txPos : Nat
  /-- S19. -/
  txT0 : Word
  /-- S20. -/
  txSave : TxSave
  /-- The operand of the `write` in flight, which W1 to W9 still read (R141; log 11). -/
  txByte : Byte
  /-- Level register of TX_PIN (R34). -/
  txLevel : Bool
  /-- Level register of the TE pin (R34). -/
  teLevel : Bool
  /-- The interrupt-suspend output (R35). -/
  intSuspend : Bool
  /-- The handshake output (R45, R77). -/
  busy : Bool
  /-- The response word on `resp` (R45, R78). -/
  resp : Word
  /-- Everything observed so far, oldest first (R46). -/
  outputs : List Output
  /-- The counter as read in this turn (R41). -/
  cycle : Word
  /-- The level of RX_PIN as read in this turn (R42). -/
  rxIn : Bool
  /-- A mask from outside this UART: another one's `int_suspend`, or the platform's (R103, R224). -/
  platformMask : Bool
  /-- The platform's latch of an edge during a suspension (R39, R104). -/
  edgeLatch : Bool
  /-- The turns still to come, next first (log 4). -/
  schedule : List Turn
  /-- The UART was destroyed (R246). -/
  destroyed : Bool
  /-- The sticky mark of a refusal after which a rule still gives a command its effect (R213, R91; log 10). -/
  refusal : Option Refusal
  deriving DecidableEq, Repr

/-- Every field right after the construction `c` on the platform `p` (R240). The level registers, `resp`,
`txByte` and the last readings have no reset value in the spec: DESIGN CHOICE (log 2, 3, 8, 11, unsafe). -/
def State.initial (p : Platform) (c : Construction) : State :=
  { construction := c
    platform := p
    rxValid := false
    txValid := false
    teValid := false
    tePin := noPin
    baud := 0#24
    period := 0#32
    rxEnabled := false
    intTxEnabled := true
    lineOut := false
    handler := 0#24
    rxIdx := .idle
    rxAcc := 0#8
    rxRef := 0#32
    head := 0
    tail := 0
    overflow := false
    buf := []
    txPos := 0
    txT0 := 0#32
    txSave := { rx := false, lineOut := false, suspended := false }
    txByte := 0#8
    txLevel := false
    teLevel := false
    intSuspend := false
    busy := false
    resp := 0#32
    outputs := []
    cycle := 0#32
    rxIn := false
    platformMask := false
    edgeLatch := false
    schedule := []
    destroyed := false
    refusal := none }

/-- The machine right after reset, for the construction and the platform of the spec's scenario and vectors
(R240; DESIGN CHOICE, log 1). -/
def State.reset : State := State.initial Platform.vectors Construction.scenario

end Sys2Proof.Machine
end

