-- ==== Sys2Proof/Machine/Flags.lean ====
section
/-! DEFINITION. The conditions the rules compute from the construction, the platform and the state: one-wire
mode, levels, validity, the edge gate and the driven conditions. -/

namespace Sys2Proof.Machine

/-- ONE_WIRE (R10). -/
def State.oneWire (s : State) : Bool :=
  s.construction.rxPin != noPin && s.construction.txPin != noPin && s.construction.rxPin == s.construction.txPin

/-- START_LEVEL (R17). -/
def startLevel (invert : Bool) : Bool := invert

/-- IDLE_LEVEL (R17). -/
def idleLevel (invert : Bool) : Bool := !invert

/-- `line(b) = b ⊕ INVERT`; its own inverse, so it also reads a data bit off a level (R17, R106). -/
def lineBit (invert b : Bool) : Bool := b ^^ invert

/-- A pin that is assigned and passes the platform's predicate; the predicate is not evaluated at NONE (R12,
R24). -/
def pinValid (valid : List PinId) (p : PinId) : Bool := p != noPin && valid.contains p

/-- A pin that another UART of the platform uses (R224). -/
def pinTaken (used : List PinId) (p : PinId) : Bool := p != noPin && used.contains p

/-- What `begin` computes for `rxValid` (R24). -/
def State.rxPinValid (s : State) : Bool := pinValid s.platform.validRx s.construction.rxPin

/-- What `begin` computes for `txValid` (R24). -/
def State.txPinValid (s : State) : Bool := pinValid s.platform.validTx s.construction.txPin

/-- A TE pin that is one of the data pins (R186). -/
def State.teClash (s : State) (pin : PinId) : Bool :=
  pin != noPin && (pin == s.construction.rxPin || pin == s.construction.txPin)

/-- SUSPENDED: this UART's `intSuspend`, another one's, or a platform-wide mask (R103). -/
def State.suspended (s : State) : Bool := s.intSuspend || s.platformMask

/-- The edge gate (R103). -/
def State.gateOpen (s : State) : Bool := s.rxValid && s.rxEnabled && !s.suspended

/-- When the TX pin is driven, the port `tx_drive` (R34). -/
def State.txDrive (s : State) : Bool := s.txValid && (!s.oneWire || s.lineOut)

/-- When the TE pin is driven, the port `te_drive` (R34). -/
def State.teDrive (s : State) : Bool := s.teValid

end Sys2Proof.Machine
end

