-- ==== Sys2Proof/Machine/Operands.lean ====
section
/-! DEFINITION. The forms of a response word (R78, R79) and the time and level forms the rules compute with
(R93, R101, R107, R114, R142, R143). -/

namespace Sys2Proof.Machine

/-- The "no data" sentinel (R79). -/
def sentinel : Word := 0xFFFFFFFF#32

/-- `zext_32` of a boolean (R78). -/
def ofFlag (b : Bool) : Word := (BitVec.ofBool b).setWidth 32

/-- `zext_32` of a byte (R78). -/
def ofByte (v : Byte) : Word := v.setWidth 32

/-- `zext_32` of a rate (R91). -/
def ofRate (r : Rate) : Word := r.setWidth 32

/-- `zext_32` of a count, below 65536 on every reachable state (R120). -/
def ofCount (n : Nat) : Word := BitVec.ofNat 32 n

/-- The answer of `peek` and `read`: the byte, or the sentinel for NoData (R122, R124). -/
def ofRingAnswer : Option Byte → Word
  | none => sentinel
  | some v => ofByte v

/-- The sample offset `Mid(i) = (i + 1)·P + floor(P / 2)`, in unbounded integers (R93, R101). -/
def mid (period i : Nat) : Nat := (i + 1) * period + period / 2

/-- The deadline `D(k) = k·P`, in unbounded integers (R93, R143). -/
def deadline (period k : Nat) : Nat := k * period

/-- Elapsed cycles from `ref` to `t`, `(t − ref) mod 2^32` (R114, R141). -/
def elapsedSince (ref t : Word) : Nat := (t - ref).toNat

/-- The level of cell k of the frame of `b`: start bit, data bits from the least significant, stop bit (R142). -/
def cellLevel (invert : Bool) (b : Byte) (k : Nat) : Bool :=
  if k = 0 then invert else if k ≤ 8 then b.getLsbD (k - 1) ^^ invert else !invert

end Sys2Proof.Machine
end

