-- ==== Sys2Proof/Machine/Ops.lean ====
section
/-! DEFINITION. The shared operations: ring storage and ring primitives (20_memory.md), outputs (R43, R46,
R78, R171), the reception enable (R183), and construction and destruction (R9, R213, R224, R246). -/

namespace Sys2Proof.Machine

/-- The value of a cell; none where no commit has written it (R32). -/
def Memory.read : Memory → Nat → Option Byte
  | [], _ => none
  | c :: m, i => if i = c.1 then some c.2 else Memory.read m i

/-- The storage with `v` in cell `i`, indices kept strictly rising (R51). -/
def Memory.write : Memory → Nat → Byte → Memory
  | [], i, v => [(i, v)]
  | c :: m, i, v =>
    if i < c.1 then (i, v) :: c :: m
    else if i = c.1 then (i, v) :: m
    else c :: Memory.write m i v

/-- The canonical form: indices strictly rising. Every value may be listed, since an unlisted cell has none. -/
abbrev Memory.wf (m : Memory) : Prop := m.Pairwise (fun a b => a.1 < b.1)

/-- `MemRead(i, 1)` (R51). An index of CAP or more does not exist, an unwritten cell has no value: both fault, and
neither is reachable (R32, R51; log 7). -/
def memRead (s : State) (i : Nat) : Except Fault Byte :=
  if i < s.construction.cap then
    match s.buf.read i with
    | some v => .ok v
    | none => .error .unwrittenCell
  else .error .noSuchCell

/-- `MemWrite(i, 1, v)` (R51). -/
def memWrite (s : State) (i : Nat) (v : Byte) : Except Fault State :=
  if i < s.construction.cap then .ok { s with buf := s.buf.write i v } else .error .noSuchCell

/-- The cursor after `i` (R53, R54, R69). -/
def State.nextCell (s : State) (i : Nat) : Nat := (i + 1) % s.construction.cap

/-- `RingCount()` (R52). -/
def ringCount (s : State) : Nat := (s.head + s.construction.cap - s.tail) % s.construction.cap

/-- `RingPush(v)`; the Bool is true for Stored and false for Dropped (R53). -/
def ringPush (v : Byte) (s : State) : Except Fault (Bool × State) :=
  if s.nextCell s.head = s.tail then .ok (false, { s with overflow := true })
  else
    match memWrite s s.head v with
    | .ok s' => .ok (true, { s' with head := s.nextCell s.head })
    | .error f => .error f

/-- `RingPeek()`, with none for NoData (R54). -/
def ringPeek (s : State) : Except Fault (Option Byte) :=
  if s.head = s.tail then .ok none
  else
    match memRead s s.tail with
    | .ok v => .ok (some v)
    | .error f => .error f

/-- `RingPop()`, with none for NoData (R54). -/
def ringPop (s : State) : Except Fault (Option Byte × State) :=
  if s.head = s.tail then .ok (none, s)
  else
    match memRead s s.tail with
    | .ok v => .ok (some v, { s with tail := s.nextCell s.tail })
    | .error f => .error f

/-- `RingFlush()` (R57). -/
def ringFlush (s : State) : State := { s with tail := s.head }

/-- Put an event on the observable record (R46). -/
def emit (e : Output) (s : State) : State := { s with outputs := s.outputs ++ [e] }

/-- `respond(v)` (R78). -/
def respond (v : Word) (s : State) : State := emit (.response v) { s with resp := v }

/-- `drive(TX_PIN, level)` (R34, R43). -/
def driveTx (level : Bool) (s : State) : State :=
  emit (.drive s.construction.txPin level s.cycle) { s with txLevel := level }

/-- `drive(s.tePin, level)` (R34, R43). -/
def driveTe (level : Bool) (s : State) : State :=
  emit (.drive s.tePin level s.cycle) { s with teLevel := level }

/-- A change of `int_suspend` and its event (R35, R46). -/
def setSuspend (level : Bool) (s : State) : State :=
  emit (.suspend level s.cycle) { s with intSuspend := level }

/-- `RxEnable()` (R183). -/
def rxEnable (s : State) : State := { s with rxEnabled := true, rxIdx := .idle, rxAcc := 0#8 }

/-- `RxDisable()` (R183). -/
def rxDisable (s : State) : State := { s with rxEnabled := false, rxIdx := .idle, rxAcc := 0#8 }

/-- The body of `enableRx on` before its response: gated on `rxValid` (R183). -/
def setReception (on : Bool) (s : State) : State :=
  if s.rxValid then (if on then rxEnable s else rxDisable s) else s

/-- A step's outcome from an operation that may fault. -/
def outcomeOf : Except Fault State → Host.Outcome State Fault Refusal
  | .ok s => .next s
  | .error f => .fault f

/-- Construction (R9, R213, R224): the reset state, or one of the two refusals. Which of the two is reported where
both hold is not stated: DESIGN CHOICE (log 15, safe). A platform outside R11's range of F_CLK is accepted, since R213 names no
refusal for it: DESIGN CHOICE (log 22, safe). -/
def construct (p : Platform) (c : Construction) : Host.Outcome State Fault Refusal :=
  if c.wellFormed then
    if pinTaken p.pinsInUse c.rxPin || pinTaken p.pinsInUse c.txPin then .refused .sharedPin
    else .next (State.initial p c)
  else .refused .badConstruction

/-- Destruction: detaches the edge interrupt and releases the ring storage (R246). The cursors of the released ring
go to 0: DESIGN CHOICE (log 13); no later rule applies. -/
def destroyUart (s : State) : State := { rxDisable s with buf := [], head := 0, tail := 0, destroyed := true }

end Sys2Proof.Machine
end

