-- ==== Sys2Proof/Machine/Timing.lean ====
section
/-! DEFINITION. The baud-rate-to-cycle-period converter and its command (41_timing_model.md). -/

namespace Sys2Proof.Machine

/-- `Period(baud)` (R90). -/
def periodOf (fClk : Nat) (baud : Rate) : Except BaudRejection Word :=
  if baud = 0#24 then .error .zeroBaud
  else
    let p := fClk / baud.toNat
    if p = 0 then .error .periodZero
    else if 10 * p ≥ 2 ^ 32 then .error .frameTooLong
    else .ok (BitVec.ofNat 32 p)

/-- `baudRate` (R91). -/
def execBaudRate (s : State) : Host.Outcome State Fault Refusal := .next (respond (ofRate s.baud) s)

end Sys2Proof.Machine
end

