-- ==== Sys2Proof/Machine/Lifecycle.lean ====
section
/-! DEFINITION. The lifecycle and control commands (45_lifecycle.md). -/

namespace Sys2Proof.Machine

/-- `begin` once the period is known (R180). -/
def beginWith (baud : Rate) (period : Word) (s : State) : State :=
  let s := { s with baud := baud, period := period, rxValid := s.rxPinValid, txValid := s.txPinValid }
  let s := if s.txValid then driveTx (idleLevel s.construction.invert) s else s
  let s := if s.rxValid then rxEnable s else s
  respond 0#32 s

/-- `begin` (R180); a rate with no usable period is refused, which marks the state and gives no response (R92, R213). -/
def execBegin (baud : Rate) (s : State) : Host.Outcome State Fault Refusal :=
  match periodOf s.platform.fClk baud with
  | .ok p => .next (beginWith baud p s)
  | .error _ => .next { s with refusal := some .badBaud }

/-- `enableRx` (R183). -/
def execEnableRx (on : Bool) (s : State) : Host.Outcome State Fault Refusal :=
  .next (respond 0#32 (setReception on s))

/-- `enableTx` (R185). -/
def execEnableTx (on : Bool) (s : State) : Host.Outcome State Fault Refusal :=
  .next (respond 0#32 (if s.oneWire && s.txValid then { s with lineOut := on } else s))

/-- `setTransmitEnablePin` once no clash is found (R186). -/
def assignTePin (pin : PinId) (s : State) : State :=
  let s := { s with tePin := pin, teValid := pinValid s.platform.validTx pin }
  let s := if s.teValid then driveTe false s else s
  respond 0#32 s

/-- `setTransmitEnablePin` (R186). -/
def execSetTransmitEnablePin (pin : PinId) (s : State) : Host.Outcome State Fault Refusal :=
  if s.teClash pin then .refused .tePinClash else .next (assignTePin pin s)

/-- `valid` (R187). -/
def execValid (s : State) : Host.Outcome State Fault Refusal := .next (respond (ofFlag (s.rxValid || s.txValid)) s)

/-- `listen`, alias of `enableRx 1` (R188). -/
def execListen (s : State) : Host.Outcome State Fault Refusal := .next (respond 0#32 (setReception true s))

/-- `isListening` (R189). -/
def execIsListening (s : State) : Host.Outcome State Fault Refusal := .next (respond (ofFlag s.rxEnabled) s)

/-- `end`, alias of `enableRx 0` (R190). -/
def execEndRx (s : State) : Host.Outcome State Fault Refusal := .next (respond 0#32 (setReception false s))

/-- `stopListening`, alias of `enableRx 0` (R191). -/
def execStopListening (s : State) : Host.Outcome State Fault Refusal := .next (respond 0#32 (setReception false s))

end Sys2Proof.Machine
end

