-- ==== Sys2Proof/Machine/Notify.lean ====
section
/-! DEFINITION. The notification slot (44_notification.md). The event itself is emitted by `commit` in
Machine/Rx.lean (R171, R172). -/

namespace Sys2Proof.Machine

/-- `onReceive` (R170). -/
def execOnReceive (handler : HandlerId) (s : State) : Host.Outcome State Fault Refusal :=
  .next (respond 0#32 { s with handler := handler })

end Sys2Proof.Machine
end

