-- ==== Sys2Proof/Machine/Rx.lean ====
section
/-! DEFINITION. The RX bit sampler, the frame assembler and the read surface (42_rx_assembly.md). -/

namespace Sys2Proof.Machine

/-- What starts an evaluation (R100, R105). -/
inductive EvalKind where
  | edge | poll
  deriving DecidableEq, Repr

/-- The level attributed to the cells an evaluation advances (R107). -/
def levelBefore (kind : EvalKind) (level : Bool) : Bool :=
  match kind with
  | .edge => !level
  | .poll => level

/-- `acc` with the data bit of index `i` shifted in (R105, R106). -/
def shiftIn (acc : Byte) (i : Nat) (bit : Bool) : Byte := acc ||| ((BitVec.ofBool bit).setWidth 8 <<< i)

/-- The loop of R105 on the index and the accumulator: every cell whose midpoint has passed at elapsed time `e` is
advanced with the same bit. `cells` is how many data cells the frame still has, so an index of 8 (stop) is
returned and not advanced. -/
def advance (period e : Nat) (bit : Bool) : (cells : Nat) → (i : Nat) → (acc : Byte) → Nat × Byte
  | 0, i, acc => (i, acc)
  | cells + 1, i, acc =>
    if mid period i ≤ e then advance period e bit cells (i + 1) (shiftIn acc i bit) else (i, acc)

/-- `Commit(v)`: store the byte, and notify the handler if it was stored (R108, R171). -/
def commit (v : Byte) (s : State) : Except Fault State :=
  match ringPush v s with
  | .error f => .error f
  | .ok (stored, s') =>
    if stored && s'.handler != 0#24 then .ok (emit (.notify s'.handler (ofCount (ringCount s'))) s') else .ok s'

/-- The advance phase of an evaluation (R105, R106, R108): reaching 8 commits the byte and returns to idle. -/
def advancePhase (kind : EvalKind) (s : State) : Except Fault State :=
  match s.rxIdx with
  | .idle => .ok s
  | .data i =>
    let bit := lineBit s.construction.invert (levelBefore kind s.rxIn)
    let r := advance s.period.toNat (elapsedSince s.rxRef s.cycle) bit (8 - i.val) i.val s.rxAcc
    if h : r.1 < 8 then .ok { s with rxIdx := .data ⟨r.1, h⟩, rxAcc := r.2 }
    else
      match commit r.2 s with
      | .ok s' => .ok { s' with rxIdx := .idle, rxAcc := 0#8 }
      | .error f => .error f

/-- Start recognition: only an edge to START_LEVEL that finds the assembly idle starts a frame (R105, R110). -/
def startPhase (kind : EvalKind) (s : State) : State :=
  if s.rxIdx = .idle ∧ kind = .edge ∧ s.rxIn = startLevel s.construction.invert then
    { s with rxRef := s.cycle, rxIdx := .data 0, rxAcc := 0#8 }
  else s

/-- `Evaluate(kind)`, one atomic step; it reads the counter and the pin level of its own turn (R105, R113). -/
def evaluate (kind : EvalKind) (s : State) : Except Fault State :=
  match advancePhase kind s with
  | .ok s' => .ok (startPhase kind s')
  | .error f => .error f

/-- The entry of the block's one interrupt, the edge event (R102, R103, R215, R218): an evaluation when the gate is
open; under a suspension the platform may latch it (R104); otherwise it is lost (R103). -/
def takeEdge (s : State) : Host.Outcome State Fault Refusal :=
  if s.gateOpen then outcomeOf (evaluate .edge s)
  else if s.suspended then .next { s with edgeLatch := true }
  else .next s

/-- Delivery of a latched edge after the suspension has ended, provided the gate is then open (R104). -/
def takeDeferredEdge (s : State) : Host.Outcome State Fault Refusal :=
  if s.edgeLatch && !s.suspended then
    if s.gateOpen then outcomeOf (evaluate .edge { s with edgeLatch := false })
    else .next { s with edgeLatch := false }
  else .next s

/-- `poll` (R112). -/
def execPoll (s : State) : Host.Outcome State Fault Refusal :=
  if s.rxValid && s.rxEnabled then
    match evaluate .poll s with
    | .ok s' => .next (respond 0#32 s')
    | .error f => .fault f
  else .next (respond 0#32 s)

/-- `available` (R120). -/
def execAvailable (s : State) : Host.Outcome State Fault Refusal := .next (respond (ofCount (ringCount s)) s)

/-- `peek` (R122). -/
def execPeek (s : State) : Host.Outcome State Fault Refusal :=
  match ringPeek s with
  | .ok v => .next (respond (ofRingAnswer v) s)
  | .error f => .fault f

/-- `read` (R124). -/
def execRead (s : State) : Host.Outcome State Fault Refusal :=
  match ringPop s with
  | .ok (v, s') => .next (respond (ofRingAnswer v) s')
  | .error f => .fault f

/-- `flush` (R125). -/
def execFlush (s : State) : Host.Outcome State Fault Refusal := .next (respond 0#32 (ringFlush s))

/-- `overflow`: report and clear in one step (R64, R126). -/
def execOverflow (s : State) : Host.Outcome State Fault Refusal :=
  .next (respond (ofFlag s.overflow) { s with overflow := false })

end Sys2Proof.Machine
end

