-- ==== Sys2Proof/Machine/Tx.lean ====
section
/-! DEFINITION. The TX bit generator (43_tx_emitter.md): `write` as the eleven atomic steps W0 to W10 of
R141, and `enableIntTx`. -/

namespace Sys2Proof.Machine

/-- W0, interrupts: save the choice and suspend if it says so (R141, R146). -/
def writeSuspend (s : State) : State :=
  let s := { s with txSave := { s.txSave with suspended := !s.intTxEnabled } }
  if s.txSave.suspended then setSuspend true s else s

/-- W0, one-wire: save and disable reception, save the direction and make the pin an output (R141, R147). -/
def writeTakeLine (s : State) : State :=
  if s.oneWire then
    let s := { s with txSave := { s.txSave with rx := s.rxEnabled } }
    let s := if s.rxEnabled then rxDisable s else s
    { s with txSave := { s.txSave with lineOut := s.lineOut }, lineOut := true }
  else s

/-- W0, TE: assert before the start bit (R141, R148). -/
def writeAssertTe (s : State) : State := if s.teValid then driveTe true s else s

/-- W0 of an accepted `write` (R141). -/
def writeSetup (byte : Byte) (s : State) : State :=
  let s := writeAssertTe (writeTakeLine (writeSuspend { s with busy := true, txByte := byte }))
  let s := driveTx (cellLevel s.construction.invert byte 0) { s with txT0 := s.cycle }
  { s with txPos := 1 }

/-- `write`: W0, or the no-op with response 0 when the transmit pin is not valid (R141, R153). -/
def execWrite (byte : Byte) (s : State) : Host.Outcome State Fault Refusal :=
  if s.txValid then .next (writeSetup byte s) else .next (respond 0#32 s)

/-- W1 to W9: drive cell k = txPos (R141). -/
def writeCell (s : State) : State :=
  let s := driveTx (cellLevel s.construction.invert s.txByte s.txPos) s
  { s with txPos := s.txPos + 1 }

/-- W10, TE: release after the stop bit's full period (R141, R148). -/
def writeReleaseTe (s : State) : State := if s.teValid then driveTe false s else s

/-- W10, one-wire: restore the direction, then reception (R141, R147, R149). -/
def writeReturnLine (s : State) : State :=
  if s.oneWire then
    let s := { s with lineOut := s.txSave.lineOut }
    if s.txSave.rx then rxEnable s else s
  else s

/-- W10, interrupts: end the suspension (R141, R149). -/
def writeResume (s : State) : State := if s.txSave.suspended then setSuspend false s else s

/-- W10 (R141). -/
def writeFinish (s : State) : State :=
  let s := writeResume (writeReturnLine (writeReleaseTe s))
  respond 1#32 { s with busy := false }

/-- A turn of the host inside a `write`: before the deadline of the next step it waits (R145); while interrupts are
suspended a step later than TX_JITTER after its deadline cannot happen, so the model stops (R144, log 6); otherwise
the step is taken. Outside a `write` the host has no such step. -/
def takeWriteStep (s : State) : Host.Outcome State Fault Refusal :=
  if !s.busy then .next s
  else if elapsedSince s.txT0 s.cycle < deadline s.period.toNat s.txPos then .next s
  else if s.intSuspend &&
      decide (elapsedSince s.txT0 s.cycle > deadline s.period.toNat s.txPos + s.platform.txJitter) then
    .fault .jitterExceeded
  else if s.txPos < 10 then .next (writeCell s)
  else .next (writeFinish s)

/-- `enableIntTx` (R150). -/
def execEnableIntTx (on : Bool) (s : State) : Host.Outcome State Fault Refusal :=
  .next (respond 0#32 { s with intTxEnabled := on })

end Sys2Proof.Machine
end

