-- ==== Sys2Proof/Machine/Dispatch.lean ====
section
/-! DEFINITION. One arm per constructor of Instr (R73). -/

namespace Sys2Proof.Machine

/-- The meaning of a command: its one atomic step, and for `write` its step W0 (R55). -/
def exec (i : Instr) (s : State) : Host.Outcome State Fault Refusal :=
  match i with
  | .begin baud => Sys2Proof.Machine.execBegin baud s
  | .baudRate => Sys2Proof.Machine.execBaudRate s
  | .setTransmitEnablePin pin => Sys2Proof.Machine.execSetTransmitEnablePin pin s
  | .enableIntTx on => Sys2Proof.Machine.execEnableIntTx on s
  | .available => Sys2Proof.Machine.execAvailable s
  | .peek => Sys2Proof.Machine.execPeek s
  | .read => Sys2Proof.Machine.execRead s
  | .flush => Sys2Proof.Machine.execFlush s
  | .write byte => Sys2Proof.Machine.execWrite byte s
  | .valid => Sys2Proof.Machine.execValid s
  | .enableRx on => Sys2Proof.Machine.execEnableRx on s
  | .enableTx on => Sys2Proof.Machine.execEnableTx on s
  | .overflow => Sys2Proof.Machine.execOverflow s
  | .onReceive handler => Sys2Proof.Machine.execOnReceive handler s
  | .listen => Sys2Proof.Machine.execListen s
  | .endRx => Sys2Proof.Machine.execEndRx s
  | .isListening => Sys2Proof.Machine.execIsListening s
  | .stopListening => Sys2Proof.Machine.execStopListening s
  | .poll => Sys2Proof.Machine.execPoll s

end Sys2Proof.Machine
end

