-- ==== Sys2Proof/Machine/Port.lean ====
section
/-! DEFINITION. The command port (R77, R217) and the turns of the agents (R19, R55). -/

namespace Sys2Proof.Machine

/-- A command word on the port. The checks stand in the order of R217: HostBusy, ReservedOpcode, ReservedBits, then
the command's own. After destruction no command has a meaning (R246, X8); a destroyed UART is never busy. -/
def presentCommand (w : Word) (s : State) : Host.Outcome State Fault Refusal :=
  if s.busy then .refused .hostBusy
  else if s.destroyed then .refused .destroyed
  else
    match decode w with
    | .ok i => exec i s
    | .error .reservedOpcode => .refused .reservedOpcode
    | .error .reservedBits => .refused .reservedBits

/-- Destruction by the host. The host is held by a `write`, so it cannot destroy during one (R246; log 13). -/
def presentDestroy (s : State) : Host.Outcome State Fault Refusal :=
  if s.busy then .refused .hostBusy
  else if s.destroyed then .refused .destroyed
  else .next (destroyUart s)

/-- The state an agent moves from: the turn is used up, and its readings stand on the input ports (R41, R42,
R103). -/
def beginTurn (t : Turn) (rest : List Turn) (s : State) : State :=
  { s with
    schedule := rest
    cycle := s.cycle + BitVec.ofNat 32 t.elapsed
    rxIn := t.level
    platformMask := t.masked }

/-- What an agent's move does (R19, R217). -/
def takeMove (m : Move) (s : State) : Host.Outcome State Fault Refusal :=
  match m with
  | .pass => .next s
  | .command w => presentCommand w s
  | .writeStep => takeWriteStep s
  | .edge => takeEdge s
  | .deferredEdge => takeDeferredEdge s
  | .destroy => presentDestroy s

/-- What an agent's move does once the state carries a refusal mark, which nothing clears (R213): time passes, and `baudRate`
responds the rate of the last accepted `begin` (R91). The state is otherwise unspecified (X9), so no other move has a meaning
(log 10). -/
def takeMarkedMove (r : Refusal) (m : Move) (s : State) : Host.Outcome State Fault Refusal :=
  match m with
  | .pass => .next s
  | .command w =>
    match decode w with
    | .ok .baudRate => exec .baudRate s
    | .ok _ | .error _ => .refused r
  | .writeStep | .edge | .deferredEdge | .destroy => .refused r

/-- What an agent's move does, with a refusal mark or without. -/
def runMove (m : Move) (s : State) : Host.Outcome State Fault Refusal :=
  match s.refusal with
  | none => takeMove m s
  | some r => takeMarkedMove r m s

/-- The next turn of the schedule; with none left nobody moves and the block stands still (R19, R241; log 4). -/
def takeTurn (s : State) : Host.Outcome State Fault Refusal :=
  match s.schedule with
  | [] => .next s
  | t :: rest => runMove t.move (beginTurn t rest s)

/-- The turn in which the host presents a word at once: no time passes, the other readings stand (log 21). -/
def commandTurn (nbits w : Nat) (s : State) : Turn :=
  { elapsed := 0
    level := s.rxIn
    masked := s.platformMask
    move := .command (BitVec.ofNat 32 (w % 2 ^ nbits)) }

end Sys2Proof.Machine
end

