-- ==== Sys2Proof/Machine/Step.lean ====
section
/-! DEFINITION. One step of the machine: one turn of the schedule, which is one atomic step of R55. -/

namespace Sys2Proof.Machine

/-- One atomic step. -/
def step (s : State) : Host.Outcome State Fault Refusal := takeTurn s

/-- `s` with the command word presented by the very next turn, before the turns already scheduled. The machine
fetches nothing (R21): its commands come from the host, and this stands for the host's next command (log 4). -/
def State.withFetchWord (s : State) (nbits w : Nat) : State :=
  { s with schedule := commandTurn nbits w s :: s.schedule }

end Sys2Proof.Machine
end

