-- ==== Sys2Proof/Machine/Assembler.lean ====
section
/-! DEFINITION. The assembler of R82 with the two pseudo-instructions of R83: from a line of text to command
words. White space, escapes and number bases beyond the rule's words: DESIGN CHOICE (log 17, safe: a line outside
them is no command). -/

namespace Sys2Proof.Assembler

/-- A name as R73 and R82 spell it. -/
def mnemonicName : Mnemonic → String
  | .begin => "begin"
  | .baudRate => "baudRate"
  | .setTransmitEnablePin => "setTransmitEnablePin"
  | .enableIntTx => "enableIntTx"
  | .available => "available"
  | .peek => "peek"
  | .read => "read"
  | .flush => "flush"
  | .write => "write"
  | .valid => "valid"
  | .enableRx => "enableRx"
  | .enableTx => "enableTx"
  | .overflow => "overflow"
  | .onReceive => "onReceive"
  | .listen => "listen"
  | .endRx => "end"
  | .isListening => "isListening"
  | .stopListening => "stopListening"
  | .poll => "poll"

/-- The character that opens and closes a character literal. -/
def apostrophe : Char := Char.ofNat 39

/-- The character that opens and closes the text of `writeString`. -/
def doubleQuote : Char := Char.ofNat 34

/-- The character that starts a comment (R82). -/
def hash : Char := Char.ofNat 35

/-- White space inside a line. -/
def isBlank (c : Char) : Bool := c == ' ' || c == '\t' || c == '\r'

/-- What may stand inside a word or a number. -/
def isWordChar (c : Char) : Bool := c.isAlphanum

/-- The rest of a line from its first character that is no white space. -/
def skipBlanks (l : List Char) : List Char := l.dropWhile isBlank

/-- What is left at the end of a line: nothing, or a comment (R82). -/
def endsLine (l : List Char) : Bool :=
  match skipBlanks l with
  | [] => true
  | c :: _ => c == hash

/-- The value of a digit, in bases up to 16. -/
def digit (c : Char) : Option Nat :=
  let n := c.toNat
  if 48 ≤ n ∧ n ≤ 57 then some (n - 48)
  else if 97 ≤ n ∧ n ≤ 102 then some (n - 87)
  else if 65 ≤ n ∧ n ≤ 70 then some (n - 55)
  else none

/-- The number the digits of a base spell, starting from `acc`. -/
def digits (base : Nat) : List Char → Nat → Option Nat
  | [], acc => some acc
  | c :: l, acc =>
    match digit c with
    | some d => if d < base then digits base l (acc * base + d) else none
    | none => none

/-- A decimal number. -/
def decimal (l : List Char) : Option Nat := if l.isEmpty then none else digits 10 l 0

/-- A decimal number, or a hexadecimal one after `0x` (R82). -/
def number (l : List Char) : Option Nat :=
  match l with
  | '0' :: 'x' :: h => if h.isEmpty then none else digits 16 h 0
  | _ => decimal l

/-- A word or a number at the front of a line, with the rest. -/
def token (l : List Char) : List Char × List Char := (l.takeWhile isWordChar, l.dropWhile isWordChar)

/-- A data byte at the front of a line: a number or a character literal (R82, format D), with the rest. -/
def dataByte (l : List Char) : Option (Nat × List Char) :=
  match l with
  | a :: c :: b :: rest =>
    if a == apostrophe && b == apostrophe then some (c.toNat, rest)
    else (number (token l).1).map (fun n => (n, (token l).2))
  | _ => (number (token l).1).map (fun n => (n, (token l).2))

/-- The operand of a format at the front of a line, with the rest (R82). A pin is 0 to 254 or `none`. -/
def operand (f : Format) (l : List Char) : Option (Option Nat × List Char) :=
  let t := token l
  match f with
  | .N => some (none, l)
  | .B =>
    if t.1 = "0".toList ∨ t.1 = "false".toList then some (some 0, t.2)
    else if t.1 = "1".toList ∨ t.1 = "true".toList then some (some 1, t.2)
    else none
  | .P =>
    if t.1 = "none".toList then some (some 255, t.2)
    else (decimal t.1).bind (fun n => if n ≤ 254 then some (some n, t.2) else none)
  | .D => (dataByte l).map (fun r => (some r.1, r.2))
  | .R => (decimal t.1).map (fun n => (some n, t.2))
  | .H => if t.1 = "none".toList then some (some 0, t.2) else (number t.1).map (fun n => (some n, t.2))

/-- The bytes of `writeBytes`, separated by commas (R83). `fuel` bounds their number by the line's length. -/
def byteList : (fuel : Nat) → List Char → Option (List Nat × List Char)
  | 0, _ => none
  | fuel + 1, l =>
    match dataByte (skipBlanks l) with
    | none => none
    | some (b, rest) =>
      match skipBlanks rest with
      | ',' :: more => (byteList fuel more).map (fun r => (b :: r.1, r.2))
      | _ => some ([b], rest)

/-- The text of `writeString`, between double quotes (R83). -/
def quotedText (l : List Char) : Option (List Nat × List Char) :=
  match l with
  | q :: body =>
    if q == doubleQuote then
      match body.dropWhile (· != doubleQuote) with
      | _ :: rest => some ((body.takeWhile (· != doubleQuote)).map Char.toNat, rest)
      | [] => none
    else none
  | [] => none

/-- A parse of the whole line: what it gives, if only a comment is left. -/
def whole {α : Type} (r : Option (α × List Char)) (f : α → SourceLine) : Option SourceLine :=
  match r with
  | some (a, rest) => if endsLine rest then some (f a) else none
  | none => none

/-- One line of source (R82, R83). -/
def parseLine (text : List Char) : Option SourceLine :=
  if endsLine text then some .blank
  else
    let t := token (skipBlanks text)
    let rest := skipBlanks t.2
    if t.1 = "writeBytes".toList then whole (byteList (rest.length + 1) rest) .writeBytes
    else if t.1 = "writeString".toList then whole (quotedText rest) .writeString
    else
      match Mnemonic.all.find? (fun m => t.1 = (mnemonicName m).toList) with
      | some m => whole (operand m.format rest) (fun n => .command ⟨m, n⟩)
      | none => none

/-- The command words of one line, in order (R82, R83). -/
def assembleLine (text : String) : Option (List Word) :=
  match parseLine text.toList with
  | some l => l.instrs.map (fun is => is.map encode)
  | none => none

/-- The command words of a program, one source line an entry (R82). -/
def assemble : List String → Option (List Word)
  | [] => some []
  | l :: ls =>
    match assembleLine l, assemble ls with
    | some ws, some rest => some (ws ++ rest)
    | _, _ => none

end Sys2Proof.Assembler
end

