-- ==== Sys2Proof/Safety.lean ====
section
/-! DEFINITION. The terms statements use: the bytes the ring holds, the invariant of R36, runs, the named
premises of R249, and the frames of R142 and R250 on the pin. -/

namespace Sys2Proof.Machine

/-- The committed bytes not yet read, oldest first (R52 to R54). -/
def contents (s : State) : List Byte :=
  (List.range (ringCount s)).filterMap (fun i => s.buf.read ((s.tail + i) % s.construction.cap))

/-- What holds between any two steps: R36, with R24, R29, R30, R31, R32, R33, R35 and R147 as it needs them. -/
structure Inv (s : State) : Prop where
  /-- R9. -/
  capRange : 1 ≤ s.construction.cap ∧ s.construction.cap ≤ 65536
  /-- R36 item 3. -/
  headRange : s.head < s.construction.cap
  /-- R36 item 3. -/
  tailRange : s.tail < s.construction.cap
  /-- The storage is in canonical form. -/
  memory : Memory.wf s.buf
  /-- R51: only cells 0 to CAP−1 exist. -/
  cells : ∀ c ∈ s.buf, c.1 < s.construction.cap
  /-- R32: every cell from `tail` up to `head` was written. -/
  held : ∀ i < ringCount s, ∃ v, s.buf.read ((s.tail + i) % s.construction.cap) = some v
  /-- R36 item 2. -/
  accIdle : s.rxIdx = .idle → s.rxAcc = 0#8
  /-- R31: the bits at and above the index are 0. -/
  accHigh : ∀ i, s.rxIdx = .data i → ∀ j, i.val ≤ j → s.rxAcc.getLsbD j = false
  /-- A frame is open only while reception is attached (R116). -/
  frameAttached : s.rxIdx ≠ .idle → s.rxEnabled = true
  /-- R36 item 1. -/
  attachedValid : s.rxEnabled = true → s.rxValid = true
  /-- R24, R30, R36 item 5: before the first accepted `begin` all is off; after it the period is that of the rate and
  the flags are what the pins and predicates give. -/
  begun : (s.baud = 0#24 ∧ s.period = 0#32 ∧ s.rxValid = false ∧ s.txValid = false) ∨
    (periodOf s.platform.fClk s.baud = .ok s.period ∧ s.rxValid = s.rxPinValid ∧ s.txValid = s.txPinValid)
  /-- R29. -/
  teFlag : s.teValid = pinValid s.platform.validTx s.tePin
  /-- R186: the TE pin is no data pin. -/
  teApart : s.teClash s.tePin = false
  /-- R36 item 4, R146. -/
  suspension : s.intSuspend = (s.busy && s.txSave.suspended)
  /-- R33. -/
  txPosRange : s.txPos ≤ 10
  /-- R141: W0 leaves cell 1 next. -/
  txPosBusy : s.busy = true → 1 ≤ s.txPos
  /-- R141: a `write` in flight has a valid transmit pin. -/
  busyValid : s.busy = true → s.txValid = true
  /-- R147: during a one-wire `write` reception is off and the pin is an output. -/
  oneWireBusy : s.busy = true → s.oneWire = true →
    s.rxEnabled = false ∧ s.lineOut = true ∧ (s.txSave.rx = true → s.rxValid = true)
  /-- A mark comes from a command, and nothing but `baudRate` runs after it (R91, R213). -/
  marked : s.refusal ≠ none → s.busy = false
  /-- R246. -/
  gone : s.destroyed = true → s.busy = false ∧ s.rxEnabled = false

/-- `n` steps of the machine. -/
def run (n : Nat) (s : State) : Host.Outcome State Fault Refusal := Host.Core.run Sys2Proof.core n s

/-- R247: the end of a run; a state with a refusal mark is never one (R213). -/
def RunEnded (s : State) : Prop := s.schedule = [] ∧ s.busy = false ∧ s.intSuspend = false ∧ s.refusal = none

/-- R249 `CleanEntry`: the reset state of R240 with a schedule placed. -/
def CleanEntry (s : State) : Prop := ∃ p c, construct p c = .next { s with schedule := [] }

/-- R249 `NotRefused`: no step of the run is refused, and no state of it carries a refusal mark (R213). -/
def NotRefused (s : State) : Prop := ∀ n, (∀ r, run n s ≠ .refused r) ∧ ∀ t, run n s = .next t → t.refusal = none

/-- R249 `PinsAsAssumed`: the two predicates have the given values at the pins used, true or false. -/
def PinsAsAssumed (s : State) (rx tx : List (PinId × Bool)) : Prop :=
  (∀ a ∈ rx, s.platform.validRx.contains a.1 = a.2) ∧ (∀ a ∈ tx, s.platform.validTx.contains a.1 = a.2)

/-- The cycles from the start of a run to its turn number `n`, in unbounded integers. -/
def clock (s : State) (n : Nat) : Nat := ((s.schedule.take n).map Turn.elapsed).sum

/-- One frame is open in the states after `m` to `n − 1` turns of the run, so the turns `m` to `n − 1` find it open. -/
def FrameOpen (s : State) (m n : Nat) : Prop :=
  ∃ ref, ∀ k, m ≤ k → k < n → ∃ t, run k s = .next t ∧ t.rxIdx ≠ .idle ∧ t.rxRef = ref

/-- One `write` is in flight in the states after `m` to `n − 1` turns of the run. -/
def WriteOpen (s : State) (m n : Nat) : Prop :=
  ∀ k, m ≤ k → k < n → ∃ t, run k s = .next t ∧ t.busy = true

/-- A frame that is sent into the receive pin (R250): its byte, the cycle of its first boundary since the start of the run, and
by how many cycles each of its boundaries 0 to 10 is late, 0 where the list ends. -/
structure SentFrame where
  byte  : Byte
  start : Nat
  late  : List Nat
  deriving DecidableEq, Repr

/-- `δ_k` of R250. -/
def SentFrame.lateness (f : SentFrame) (k : Nat) : Nat := f.late.getD k 0

/-- When boundary `k` passes the pin, `S + k·P + δ_k` (R250). -/
def SentFrame.boundary (f : SentFrame) (period k : Nat) : Nat := f.start + k * period + f.lateness k

/-- Whether the level changes at boundary `k`: at the start bit, which comes from the idle line, and at every cell whose level is
not that of the cell before (R142). -/
def SentFrame.changesAt (f : SentFrame) (invert : Bool) (k : Nat) : Bool :=
  k == 0 || cellLevel invert f.byte k != cellLevel invert f.byte (k - 1)

/-- A change of the pin's level: when, and to which level. -/
abbrev Transition := Nat × Bool

/-- The transitions of a frame. -/
def SentFrame.transitions (f : SentFrame) (period : Nat) (invert : Bool) : List Transition :=
  ((List.range 10).filter (f.changesAt invert)).map (fun k => (f.boundary period k, cellLevel invert f.byte k))

/-- The transitions of the pin when it carries these frames and nothing else. -/
def transitionsOf (frames : List SentFrame) (period : Nat) (invert : Bool) : List Transition :=
  frames.flatMap (fun f => f.transitions period invert)

/-- One frame is sent after the other: each has ended when the next one starts. -/
def FramesApart (frames : List SentFrame) (period : Nat) : Prop :=
  frames.Pairwise (fun f g => f.boundary period 10 ≤ g.start)

/-- Turn number `n` of the run is `t`, and `u` is the state its agent moves from. -/
def TurnAt (s : State) (n : Nat) (t : Turn) (u : State) : Prop :=
  ∃ v rest, run n s = .next v ∧ v.schedule = t :: rest ∧ u = beginTurn t rest v

/-- Turn number `n` is an edge event that the block takes (R103). -/
def EdgeTaken (s : State) (n : Nat) : Prop := ∃ t u, TurnAt s n t u ∧ t.move = .edge ∧ u.gateOpen = true

/-- Turn number `n` is a `poll` that evaluates, from the state `u` (R112). -/
def PollTaken (s : State) (n : Nat) (u : State) : Prop :=
  ∃ t w, TurnAt s n t u ∧ t.move = .command w ∧ decode w = .ok .poll ∧ u.busy = false ∧ u.rxValid = true ∧
    u.rxEnabled = true

/-- Turn number `n` is an evaluation: of an edge event, of a latched one (R104), or of a `poll`. -/
def Evaluates (s : State) (n : Nat) : Prop :=
  EdgeTaken s n ∨ (∃ u, PollTaken s n u) ∨
    ∃ t u, TurnAt s n t u ∧ t.move = .deferredEdge ∧ u.edgeLatch = true ∧ u.gateOpen = true

/-- Turn number `n` is the host's, inside a `write` (R141, R145). -/
def WriteStepAt (s : State) (n : Nat) : Prop := ∃ t u, TurnAt s n t u ∧ t.move = .writeStep

/-- R249 `CounterSane` (R41, R253): fewer than 2^32 cycles pass from any point within a frame to any of its evaluations, if it has one,
and from any point within a `write` to any of its steps. These read the counter; a turn that does not read it may come at any
time. That the counter never runs backwards is the form of Turn. -/
def CounterSane (s : State) : Prop :=
  ∀ m n, FrameOpen s m (n + 1) ∧ Evaluates s n ∨ WriteOpen s m (n + 1) ∧ WriteStepAt s n →
    clock s (n + 1) - clock s m < 2 ^ 32

/-- The edge gate (R103) may be open at cycle `time` of the run: it is in some state that the block has in that cycle. -/
def GateOpenAt (s : State) (time : Nat) : Prop :=
  ∃ n u, run n s = .next u ∧ clock s n ≤ time ∧ time ≤ clock s (n + 1) ∧ u.gateOpen = true

/-- The edge gate is open in the whole of cycle `time` of the run: in every state that the block has in that cycle, so no turn of
that cycle opens or closes it. -/
def GateOpenThroughout (s : State) (time : Nat) : Prop :=
  GateOpenAt s time ∧
  ∀ n u, run n s = .next u → clock s n ≤ time → time ≤ clock s (n + 1) → u.gateOpen = true

/-- R42: every turn reads the level the pin has at its time: that of the last transition, or `idle` before the first. -/
def PinRead (s : State) (idle : Bool) (transitions : List Transition) : Prop :=
  ∀ n t u, TurnAt s n t u →
    (∀ a ∈ transitions, a.1 ≤ clock s (n + 1) → (∀ b ∈ transitions, b.1 ≤ clock s (n + 1) → b.1 ≤ a.1) →
      t.level = a.2) ∧
    ((∀ a ∈ transitions, clock s (n + 1) < a.1) → t.level = idle)

/-- R249 `EdgeFaithful(Λ)` (R102, R250) of a run, whatever other turns stand between its edge events: while the gate is open, every
transition gives exactly one edge event, at the turn `event` names by its time, within `bound` cycles and in order; and no
other edge event is taken. A transition in a cycle in which the gate opens or closes, such as the start bit that W0 of a one-wire
`write` drives in the step that detaches reception (R141), may give one or none. -/
def EdgeFaithful (bound : Nat) (transitions : List Transition) (s : State) : Prop :=
  ∃ event : Nat → Option Nat,
    (∀ a ∈ transitions, GateOpenThroughout s a.1 → (event a.1).isSome = true) ∧
    (∀ a ∈ transitions, ∀ n, event a.1 = some n →
      GateOpenAt s a.1 ∧ EdgeTaken s n ∧ a.1 ≤ clock s (n + 1) ∧ clock s (n + 1) ≤ a.1 + bound) ∧
    (∀ a ∈ transitions, ∀ b ∈ transitions, ∀ m n, event a.1 = some m → event b.1 = some n → a.1 < b.1 → m < n) ∧
    (∀ n, EdgeTaken s n → ∃ a ∈ transitions, event a.1 = some n)

/-- R249 `TxAccurate(Δ)`: every boundary of every frame is at most `bound` cycles late, and the first not at all (R250). -/
def TxAccurate (bound : Nat) (frames : List SentFrame) : Prop :=
  ∀ f ∈ frames, f.lateness 0 = 0 ∧ ∀ k ≤ 10, f.lateness k ≤ bound

/-- R249 `RxTiming`. -/
def RxTiming (driftBound latencyBound period : Nat) : Prop := driftBound + latencyBound < period / 2

/-- R249 `NoDeafFrame` (R252): no frame is on the pin while SUSPENDED is true. A suspension found after `n` turns lasts to the
next turn, and a frame is on the pin from its boundary 0 up to its boundary 10. -/
def NoDeafFrame (s : State) (frames : List SentFrame) (period : Nat) : Prop :=
  ∀ n u, run n s = .next u → u.suspended = true →
    ∀ f ∈ frames, clock s (n + 1) < f.start ∨ f.boundary period 10 ≤ clock s n

/-- R249 `Completed` (R251): every frame is evaluated late enough within the run to commit its byte. That is an edge event taken
at or after its boundary 9, which is its own stop edge, where data bit 7 is at START_LEVEL, or a later start edge; or a
`poll` at an elapsed time of at least `Mid(7)`, after the frame has come that far. -/
def Completed (s : State) (frames : List SentFrame) (period : Nat) : Prop :=
  ∀ f ∈ frames, ∃ n,
    (EdgeTaken s n ∧ f.boundary period 9 ≤ clock s (n + 1)) ∨
    (∃ u, PollTaken s n u ∧ f.start + mid period 7 ≤ clock s (n + 1) ∧ mid period 7 ≤ elapsedSince u.rxRef u.cycle)

/-- R250: no transition is pending at a `poll`: every transition up to its time has been taken by an earlier turn. -/
def NonePendingAtPolls (s : State) (transitions : List Transition) : Prop :=
  ∀ n u, PollTaken s n u → ∀ a ∈ transitions, a.1 ≤ clock s (n + 1) →
    ∃ m < n, EdgeTaken s m ∧ a.1 ≤ clock s (m + 1)

/-- The host does nothing that detaches, re-attaches or destroys the receiver, and no edge that was latched in a suspension is
delivered (R116, R147, R180, R183, R246; R104, with R252): any other command, the steps of a `write` on a pin of its own
and the turns of the environment may stand in the schedule. -/
def Undisturbed (s : State) : Prop :=
  ∀ t ∈ s.schedule,
    match t.move with
    | .pass | .writeStep | .edge => True
    | .deferredEdge | .destroy => False
    | .command w =>
      match decode w with
      | .ok (.begin _) | .ok (.enableRx _) | .ok .listen | .ok .endRx | .ok .stopListening => False
      | .ok (.write _) => s.oneWire = false
      | .ok _ | .error _ => True

/-- From `u` to `v` the byte `b` is committed (R108, R53, R171): stored behind the bytes held, with its notification, or dropped
by a full ring. A `poll` responds after it. -/
def Commits (u v : State) (b : Byte) : Prop :=
  ∃ response, (response = [] ∨ response = [.response 0#32]) ∧
    (ringCount u < u.construction.cap - 1 →
      contents v = contents u ++ [b] ∧ v.overflow = u.overflow ∧
      v.outputs = u.outputs ++
        (if u.handler = 0#24 then [] else [.notify u.handler (BitVec.ofNat 32 (ringCount u + 1))]) ++ response) ∧
    (ringCount u = u.construction.cap - 1 →
      contents v = contents u ∧ v.overflow = true ∧ v.outputs = u.outputs ++ response)

/-- The turns of one `write` and nothing between them: the command `first` cycles from now, then W1 to W10 at
`offset 1` to `offset 10` cycles after it. The pin level and the mask of each turn are the environment's. -/
def writeTurns (byte : Byte) (first : Nat) (offset : Nat → Nat) (level masked : Nat → Bool) : List Turn :=
  { elapsed := first, level := level 0, masked := masked 0, move := .command (encode (.write byte)) } ::
    (List.range 10).map (fun j =>
      { elapsed := offset (j + 1) - offset j, level := level (j + 1), masked := masked (j + 1), move := .writeStep })

/-- The events of one `write` whose start bit is at counter value `t0` (R141 to R149): suspension, TE asserted, ten
cells, TE released, suspension ended, response. -/
def writeOutputs (s : State) (byte : Byte) (t0 : Word) (offset : Nat → Nat) : List Output :=
  (if s.intTxEnabled then [] else [.suspend true t0]) ++
  (if s.teValid then [.drive s.tePin true t0] else []) ++
  (List.range 10).map (fun k =>
    .drive s.construction.txPin (cellLevel s.construction.invert byte k) (t0 + BitVec.ofNat 32 (offset k))) ++
  (if s.teValid then [.drive s.tePin false (t0 + BitVec.ofNat 32 (offset 10))] else []) ++
  (if s.intTxEnabled then [] else [.suspend false (t0 + BitVec.ofNat 32 (offset 10))]) ++
  [.response 1#32]

end Sys2Proof.Machine
end

