-- ==== Sys2Proof/Certificates/Slice0/Obligations.lean ====
section
/-! DEFINITION. The statements for the provers. Each docstring names the rules of spec/ it formalises. Where a
statement rests on a choice of the model, the docstring names the log entry. -/

open Sys2Proof Sys2Proof.Machine

/-! ### Encoding -/

/-- Words of V-ENC1 and V-ENC2 (95_test_vectors.md): one for every format, and one for each refusal. -/
def Obligations.VectorWordsDecode : Prop :=
  decode 0x01002580#32 = .ok (.begin 9600#24) ∧
  decode 0x02000000#32 = .ok .baudRate ∧
  decode 0x030000FF#32 = .ok (.setTransmitEnablePin noPin) ∧
  decode 0x04000001#32 = .ok (.enableIntTx true) ∧
  decode 0x09000041#32 = .ok (.write 0x41#8) ∧
  decode 0x0B000000#32 = .ok (.enableRx false) ∧
  decode 0x0E000007#32 = .ok (.onReceive 7#24) ∧
  decode 0x10000000#32 = .ok .endRx ∧
  decode 0x13000000#32 = .ok .poll ∧
  decode 0x14000000#32 = .error .reservedOpcode ∧
  decode 0x0B000002#32 = .error .reservedBits

/-- R70 to R73: the decoder reads back every instruction from its own word, with every operand at every value. -/
def Obligations.DecodeInvertsEncode : Prop := ∀ i : Instr, decode (encode i) = .ok i

/-- R76: no word stands for two commands and no command has two words; a decoded word is the word of what it
decodes to. -/
def Obligations.DecodedWordIsEncoding : Prop := ∀ (w : Word) (i : Instr), decode w = .ok i → encode i = w

/-- R73: a word selects the row whose `w & mask = match`, and at most one row matches. -/
def Obligations.WordSelectsMatchingRow : Prop :=
  ∀ w : Word,
    (∀ r ∈ opcodeTable, w &&& r.mask = r.pattern ↔ ∃ i, decode w = .ok i ∧ i.mnemonic = r.mnemonic) ∧
    (∀ r ∈ opcodeTable, ∀ r' ∈ opcodeTable, w &&& r.mask = r.pattern → w &&& r'.mask = r'.pattern → r = r')

/-- R74, R75: what the command port refuses as a reserved encoding, and what the two refusals leave: every other word
decodes to a command. -/
def Obligations.ReservedEncodingsRefused : Prop :=
  ∀ (w : Word) (s : State), s.busy = false → s.destroyed = false → s.refusal = none →
    (((opField w).toNat = 0 ∨ 0x14 ≤ (opField w).toNat) → runMove (.command w) s = .refused .reservedOpcode) ∧
    (∀ r ∈ opcodeTable, opField r.pattern = opField w → w &&& r.mask ≠ r.pattern →
      runMove (.command w) s = .refused .reservedBits) ∧
    (∀ r ∈ opcodeTable, w &&& r.mask = r.pattern → ∃ i, decode w = .ok i ∧ runMove (.command w) s = exec i s)

/-- R83: a pseudo-instruction stands for one `write` a byte, in order, whatever its bytes; a number that is no byte
makes the line none. -/
def Obligations.PseudoInstructionsExpand : Prop :=
  (∀ bytes : List Byte,
    (bytes ≠ [] → (SourceLine.writeBytes (bytes.map BitVec.toNat)).instrs = some (bytes.map Instr.write)) ∧
    (SourceLine.writeString (bytes.map BitVec.toNat)).instrs = some (bytes.map Instr.write)) ∧
  (∀ codes : List Nat, (∃ n ∈ codes, 256 ≤ n) →
    (SourceLine.writeBytes codes).instrs = none ∧ (SourceLine.writeString codes).instrs = none)

/-- R82: the rule's four examples, and a line of each pseudo-instruction. -/
def Obligations.AssemblerExamples : Prop :=
  Assembler.assembleLine "begin 9600" = some [0x01002580#32] ∧
  Assembler.assembleLine "write 'A'" = some [0x09000041#32] ∧
  Assembler.assembleLine "enableRx 0" = some [0x0B000000#32] ∧
  Assembler.assembleLine "setTransmitEnablePin none" = some [0x030000FF#32] ∧
  Assembler.assembleLine "writeString \"AB\" # two bytes" = some [0x09000041#32, 0x09000042#32] ∧
  Assembler.assembleLine "writeBytes 0x41, 66" = some [0x09000041#32, 0x09000042#32]

/-! ### The step and the port -/

/-- A step runs the decoded instruction (R45, R55, R77): at a turn in which the host presents the word of `i` to a block
that is neither busy nor marked, the step is `exec i`, in the state with the turn used up and its readings on the input ports. That
turns come from a schedule is log 4. -/
def Obligations.StepRunsPresentedCommand : Prop :=
  ∀ (s : State) (t : Turn) (rest : List Turn) (w : Word) (i : Instr),
    s.schedule = t :: rest → t.move = .command w → decode w = .ok i → s.busy = false → s.destroyed = false →
    s.refusal = none →
    step s = exec i
      { s with schedule := rest, cycle := s.cycle + BitVec.ofNat 32 t.elapsed, rxIn := t.level,
               platformMask := t.masked }

/-- R77, R217: a word presented while `busy = 1` is refused HostBusy, whatever word it is, reserved ones too. -/
def Obligations.BusyRefusesEveryWord : Prop :=
  ∀ (s : State) (t : Turn) (rest : List Turn) (w : Word),
    s.schedule = t :: rest → t.move = .command w → s.busy = true → s.refusal = none →
    step s = .refused .hostBusy

/-- R246, X8: destruction detaches the edge interrupt and releases the storage, and every command after it is refused.
The cursors of the released ring are log 13's choice. -/
def Obligations.DestructionEndsCommands : Prop :=
  (∀ (s : State) (t : Turn) (rest : List Turn), s.schedule = t :: rest → t.move = .destroy → s.busy = false →
    s.destroyed = false → s.refusal = none →
    ∃ s', step s = .next s' ∧ s'.destroyed = true ∧ s'.rxEnabled = false ∧ s'.buf = [] ∧ s'.outputs = s.outputs) ∧
  (∀ (s : State) (t : Turn) (rest : List Turn) (w : Word), s.schedule = t :: rest → t.move = .command w →
    s.busy = false → s.destroyed = true → s.refusal = none → step s = .refused .destroyed)

/-- R19, R241: with no turn left nobody moves and the block stands still. That an empty schedule is answered so is
log 4's choice. -/
def Obligations.NoTurnLeavesTheState : Prop := ∀ s : State, s.schedule = [] → step s = .next s

/-! ### The converter -/

/-- R90: `Period` rounds the quotient down and rejects exactly rate 0, a quotient of 0 and a frame of 2^32 cycles or
more. -/
def Obligations.PeriodIsRoundedQuotient : Prop :=
  ∀ (f : Nat) (b : Rate),
    (periodOf f b = .error .zeroBaud ↔ b.toNat = 0) ∧
    (periodOf f b = .error .periodZero ↔ b.toNat ≠ 0 ∧ f < b.toNat) ∧
    (periodOf f b = .error .frameTooLong ↔ b.toNat ≠ 0 ∧ 2 ^ 32 ≤ 10 * (f / b.toNat)) ∧
    (∀ p : Word, periodOf f b = .ok p ↔
      b.toNat ≠ 0 ∧ b.toNat ≤ f ∧ 10 * (f / b.toNat) < 2 ^ 32 ∧ p.toNat = f / b.toNat)

/-- R93: the sample offsets and the TX deadlines, and that with an accepted period each of them fits 32 bits. -/
def Obligations.FrameOffsetsFitTheCounter : Prop :=
  ∀ (f : Nat) (b : Rate) (p : Word), periodOf f b = .ok p →
    10 * p.toNat < 2 ^ 32 ∧
    (∀ i < 8, mid p.toNat i = (i + 1) * p.toNat + p.toNat / 2 ∧ mid p.toNat i < 9 * p.toNat) ∧
    (∀ k ≤ 10, deadline p.toNat k = k * p.toNat ∧ deadline p.toNat k ≤ 10 * p.toNat)

/-- R114, R41: elapsed time is subtraction that wraps modulo 2^32, and it is the true time below 2^32 cycles. -/
def Obligations.ElapsedTimeWraps : Prop :=
  (∀ ref t : Word, elapsedSince ref t = (2 ^ 32 + t.toNat - ref.toNat) % 2 ^ 32) ∧
  (∀ (ref : Word) (d : Nat), d < 2 ^ 32 → elapsedSince ref (ref + BitVec.ofNat 32 d) = d)

/-- R180, R92, with R43: `begin`. That its drive event carries the counter of its turn is the model's reading of R43 and R222
(log 12). A rejected rate is refused: the state is marked and there is no response, and from then on only time and `baudRate` go
on (log 10). An accepted one sets the rate, the period and the two validity flags,
drives the transmit pin to idle and attaches reception where they are valid, responds 0, and changes nothing else. -/
def Obligations.BeginConfigures : Prop :=
  ∀ (s : State) (baud : Rate),
    encode (.begin baud) = 0x01#8 ++ baud ∧
    (∀ e, periodOf s.platform.fClk baud = .error e →
      ∃ t, exec (.begin baud) s = .next t ∧ t.refusal = some .badBaud ∧ t.outputs = s.outputs ∧
        ∀ m, m ≠ .pass → (∀ w, m = .command w → decode w ≠ .ok .baudRate) → runMove m t = .refused .badBaud) ∧
    (∀ p, periodOf s.platform.fClk baud = .ok p →
      exec (.begin baud) s = .next
        { s with
          baud := baud
          period := p
          rxValid := s.construction.rxPin != noPin && s.platform.validRx.contains s.construction.rxPin
          txValid := s.construction.txPin != noPin && s.platform.validTx.contains s.construction.txPin
          txLevel := if s.txPinValid then !s.construction.invert else s.txLevel
          rxEnabled := if s.rxPinValid then true else s.rxEnabled
          rxIdx := if s.rxPinValid then .idle else s.rxIdx
          rxAcc := if s.rxPinValid then 0#8 else s.rxAcc
          resp := 0#32
          outputs := s.outputs ++
            (if s.txPinValid then [.drive s.construction.txPin (!s.construction.invert) s.cycle] else []) ++
            [.response 0#32] })

/-- R24, with `PinsAsAssumed` (R249, R12): an accepted `begin` finds a pin valid iff it is assigned and the platform's
predicate is true at it, whichever value that is. -/
def Obligations.BeginValidatesAssumedPins : Prop :=
  ∀ (s : State) (baud : Rate) (p : Word) (rx tx : Bool), periodOf s.platform.fClk baud = .ok p →
    PinsAsAssumed s [(s.construction.rxPin, rx)] [(s.construction.txPin, tx)] →
    ∃ t, exec (.begin baud) s = .next t ∧
      (t.rxValid = true ↔ s.construction.rxPin ≠ noPin ∧ rx = true) ∧
      (t.txValid = true ↔ s.construction.txPin ≠ noPin ∧ tx = true) ∧
      t.rxEnabled = (t.rxValid || s.rxEnabled)

/-- R91: `baudRate` responds the rate, zero-extended, and changes nothing. That is 0 before any accepted `begin`, the requested rate
after one, and after a refused `begin` still the rate of the last accepted one; the mark of the refusal stays (R213). -/
def Obligations.BaudRateResponds : Prop :=
  encode .baudRate = 0x02000000#32 ∧
  (∀ s : State, ∃ v : Word, v.toNat = s.baud.toNat ∧
    exec .baudRate s = .next { s with resp := v, outputs := s.outputs ++ [.response v] }) ∧
  (∀ (p : Platform) (c : Construction) (s : State), construct p c = .next s → s.baud = 0#24) ∧
  (∀ (s : State) (baud : Rate) (p : Word), periodOf s.platform.fClk baud = .ok p →
    ∃ t, exec (.begin baud) s = .next t ∧ t.baud = baud) ∧
  (∀ (s : State) (baud : Rate) (e : BaudRejection) (t t' : Turn) (rest : List Turn), s.schedule = t :: t' :: rest →
    t.move = .command (encode (.begin baud)) → t'.move = .command (encode .baudRate) → s.busy = false →
    s.destroyed = false → s.refusal = none → periodOf s.platform.fClk baud = .error e →
    ∃ (u : State) (v : Word), run 2 s = .next u ∧ v.toNat = s.baud.toNat ∧ u.resp = v ∧
      u.outputs = s.outputs ++ [.response v] ∧ u.refusal = some .badBaud) ∧
  (∀ (s t : State) (r : Refusal), s.refusal = some r → step s = .next t → t.refusal = some r ∧ t.baud = s.baud)

/-! ### The ring and the read surface -/

/-- R52, R120: `available` responds the ring's count, which is the number of bytes committed and not yet read, and changes
nothing. -/
def Obligations.AvailableCountsHeldBytes : Prop :=
  encode .available = 0x05000000#32 ∧
  ∀ s : State, Inv s → ∃ v : Word, v.toNat = (s.head + s.construction.cap - s.tail) % s.construction.cap ∧
    v.toNat = (contents s).length ∧ v.toNat ≤ s.construction.cap - 1 ∧ (contents s = [] ↔ s.head = s.tail) ∧
    exec .available s = .next { s with resp := v, outputs := s.outputs ++ [.response v] }

/-- R122, R54, R79: `peek` responds the oldest byte, or the sentinel on an empty ring, and changes nothing. -/
def Obligations.PeekRespondsOldest : Prop :=
  encode .peek = 0x06000000#32 ∧
  ∀ s : State, Inv s → ∃ v : Word,
    (match contents s with
     | [] => v = 0xFFFFFFFF#32
     | b :: _ => v.toNat = b.toNat) ∧
    exec .peek s = .next { s with resp := v, outputs := s.outputs ++ [.response v] }

/-- R124, R54, R79: `read` responds the oldest byte and removes it, or responds the sentinel and changes nothing. -/
def Obligations.ReadRemovesOldest : Prop :=
  encode .read = 0x07000000#32 ∧
  ∀ s : State, Inv s →
    (contents s = [] →
      exec .read s = .next { s with resp := 0xFFFFFFFF#32, outputs := s.outputs ++ [.response 0xFFFFFFFF#32] }) ∧
    (∀ b rest, contents s = b :: rest → ∃ v : Word, v.toNat = b.toNat ∧
      exec .read s = .next { s with tail := (s.tail + 1) % s.construction.cap, resp := v,
                                    outputs := s.outputs ++ [.response v] } ∧
      contents { s with tail := (s.tail + 1) % s.construction.cap } = rest)

/-- R125, R57: `flush` empties the ring by moving the consumer's cursor and changes nothing else. -/
def Obligations.FlushEmptiesTheRing : Prop :=
  encode .flush = 0x08000000#32 ∧
  ∀ s : State, exec .flush s = .next { s with tail := s.head, resp := 0#32, outputs := s.outputs ++ [.response 0#32] } ∧
    contents { s with tail := s.head } = [] ∧ ringCount { s with tail := s.head } = 0

/-- R126, R64: `overflow` reports and clears the flag in one step and changes nothing else. -/
def Obligations.OverflowReadsAndClears : Prop :=
  encode .overflow = 0x0D000000#32 ∧
  ∀ s : State, exec .overflow s = .next
    { s with overflow := false, resp := if s.overflow then 1#32 else 0#32,
             outputs := s.outputs ++ [.response (if s.overflow then 1#32 else 0#32)] }

/-- R53, R68: a commit into a full ring drops the new byte, keeps the held ones and sets `overflow`; into any other it
adds the byte behind them and writes only the head cell. -/
def Obligations.PushAppendsOrDrops : Prop :=
  ∀ (s : State) (v : Byte), Inv s →
    (ringCount s = s.construction.cap - 1 → ringPush v s = .ok (false, { s with overflow := true })) ∧
    (ringCount s < s.construction.cap - 1 → ∃ s', ringPush v s = .ok (true, s') ∧
      contents s' = contents s ++ [v] ∧ s' = { s with buf := s'.buf, head := (s.head + 1) % s.construction.cap } ∧
      ∀ i, i ≠ s.head → Memory.read s'.buf i = Memory.read s.buf i)

/-- R108, R171: a commit that stores emits one Notify with the count after the store, if there is a handler; one that
drops emits none. -/
def Obligations.CommitNotifiesStoredBytes : Prop :=
  ∀ (s : State) (v : Byte), Inv s → ∃ s', commit v s = .ok s' ∧
    (ringCount s < s.construction.cap - 1 →
      contents s' = contents s ++ [v] ∧ s'.overflow = s.overflow ∧
      s'.outputs = s.outputs ++
        (if s.handler = 0#24 then [] else [.notify s.handler (BitVec.ofNat 32 (ringCount s + 1))])) ∧
    (ringCount s = s.construction.cap - 1 →
      s' = { s with overflow := true } ∧ contents s' = contents s)

/-- R67: committing `k` bytes into an empty ring with no read in between holds the first `min k (CAP−1)` of them, and
`overflow` is set iff more came. -/
def Obligations.CommitsFillTheRing : Prop :=
  ∀ (bytes : List Byte) (s : State), Inv s → s.head = s.tail → s.overflow = false →
    ∃ t, bytes.foldlM (fun u v => commit v u) s = Except.ok t ∧
      contents t = bytes.take (s.construction.cap - 1) ∧
      ringCount t = min bytes.length (s.construction.cap - 1) ∧
      (t.overflow = true ↔ s.construction.cap - 1 < bytes.length)

/-! ### The receiver -/

/-- R111, R106, R112: an evaluation before the next midpoint changes nothing, nor does one in idle that is a poll or that
reads a level that is not START_LEVEL. -/
def Obligations.EvaluationWithoutEffect : Prop :=
  ∀ (s : State) (k : EvalKind),
    (∀ i, s.rxIdx = .data i → elapsedSince s.rxRef s.cycle < mid s.period.toNat i.val → evaluate k s = .ok s) ∧
    (s.rxIdx = .idle → k = .poll ∨ s.rxIn ≠ s.construction.invert → evaluate k s = .ok s)

/-- R110: an edge in idle that reads START_LEVEL starts a frame whose reference is this turn's counter. -/
def Obligations.StartEdgeOpensFrame : Prop :=
  ∀ s : State, s.rxIdx = .idle → s.rxIn = s.construction.invert →
    evaluate .edge s = .ok { s with rxRef := s.cycle, rxIdx := .data 0, rxAcc := 0#8 }

/-- R106, R107, R101: inside a frame, an evaluation after the next midpoint and before the last one advances exactly the
cells whose midpoints have passed, each with the level before the evaluation, and changes nothing else. -/
def Obligations.EvaluationAdvancesPassedCells : Prop :=
  ∀ (s : State) (k : EvalKind) (i : Fin 8), Inv s → s.rxIdx = .data i →
    mid s.period.toNat i.val ≤ elapsedSince s.rxRef s.cycle →
    elapsedSince s.rxRef s.cycle < mid s.period.toNat 7 →
    ∃ (j : Fin 8) (acc : Byte), i < j ∧ mid s.period.toNat (j.val - 1) ≤ elapsedSince s.rxRef s.cycle ∧
      elapsedSince s.rxRef s.cycle < mid s.period.toNat j.val ∧
      (∀ n, acc.getLsbD n =
        if i.val ≤ n ∧ n < j.val then
          (match k with
           | .edge => !s.rxIn
           | .poll => s.rxIn) ^^ s.construction.invert
        else s.rxAcc.getLsbD n) ∧
      evaluate k s = .ok { s with rxIdx := .data j, rxAcc := acc }

/-- R106, R108, R172: an evaluation at or after `Mid(7)` fills every bit that is left with the level before it, commits
the byte, returns to idle, and then, for an edge to START_LEVEL, starts the next frame; the notification stands before
that start, and the stop cell is not looked at (R109). -/
def Obligations.LateEvaluationCommits : Prop :=
  ∀ (s : State) (k : EvalKind) (i : Fin 8), Inv s → s.rxIdx = .data i →
    mid s.period.toNat 7 ≤ elapsedSince s.rxRef s.cycle →
    ∃ (v : Byte) (t : State), commit v s = .ok t ∧
      (∀ n < 8, v.getLsbD n =
        if i.val ≤ n then
          (match k with
           | .edge => !s.rxIn
           | .poll => s.rxIn) ^^ s.construction.invert
        else s.rxAcc.getLsbD n) ∧
      evaluate k s = .ok
        (if k = .edge ∧ s.rxIn = s.construction.invert then
          { t with rxRef := s.cycle, rxIdx := .data 0, rxAcc := 0#8 }
         else { t with rxIdx := .idle, rxAcc := 0#8 })

/-- R102, R103, R104, R218: an edge turn is one evaluation when the gate is open; otherwise it leaves the block alone and
only the platform may latch it, during a suspension. That the platform has one latch is log 8. -/
def Obligations.EdgeTurnObeysTheGate : Prop :=
  ∀ (s s₁ : State) (t : Turn) (rest : List Turn), s.schedule = t :: rest → t.move = .edge → s₁ = beginTurn t rest s →
    s.refusal = none →
    (s.rxValid = true → s.rxEnabled = true → s.intSuspend = false → t.masked = false →
      step s = outcomeOf (evaluate .edge s₁)) ∧
    (s.intSuspend = true ∨ t.masked = true → step s = .next { s₁ with edgeLatch := true }) ∧
    (s.intSuspend = false → t.masked = false → s.rxValid = false ∨ s.rxEnabled = false → step s = .next s₁)

/-- R104: a latched edge can be delivered once the suspension has ended; it is then one evaluation if the gate is open,
and it is gone either way; before that nothing is delivered. -/
def Obligations.LatchedEdgeDeliveredOnce : Prop :=
  ∀ (s s₁ : State) (t : Turn) (rest : List Turn),
    s.schedule = t :: rest → t.move = .deferredEdge → s₁ = beginTurn t rest s → s.refusal = none →
    (s.edgeLatch = true → s.intSuspend = false → t.masked = false → s.rxValid = true → s.rxEnabled = true →
      step s = outcomeOf (evaluate .edge { s₁ with edgeLatch := false })) ∧
    (s.edgeLatch = true → s.intSuspend = false → t.masked = false → s.rxValid = false ∨ s.rxEnabled = false →
      step s = .next { s₁ with edgeLatch := false }) ∧
    (s.edgeLatch = false ∨ s.intSuspend = true ∨ t.masked = true → step s = .next s₁)

/-- R112: `poll` evaluates when reception is valid and attached, and is a no-op otherwise; it responds 0 and never
faults. -/
def Obligations.PollEvaluatesWhenAttached : Prop :=
  encode .poll = 0x13000000#32 ∧
  ∀ s : State,
    (s.rxValid = false ∨ s.rxEnabled = false →
      exec .poll s = .next { s with resp := 0#32, outputs := s.outputs ++ [.response 0#32] }) ∧
    (Inv s → s.rxValid = true → s.rxEnabled = true → ∃ t, evaluate .poll s = .ok t ∧
      exec .poll s = .next { t with resp := 0#32, outputs := t.outputs ++ [.response 0#32] })

/-- R250, R251, with the premises of R249: in any run from a state with reception attached and idle, whatever turns of the host
and of the environment stand between its edge events, the frames sent into the pin are received exactly as sent. The byte
of every completed frame is committed, each once and in order, and nothing else is committed. The run goes through, unless
the platform breaks R144's bound (log 6), and leaves the assembly idle if every frame is completed. -/
def Obligations.TimedFrameIsReceived : Prop :=
  ∀ (s : State) (frames : List SentFrame) (driftBound latencyBound : Nat),
    Inv s → s.rxIdx = .idle → s.rxEnabled = true → Undisturbed s →
    FramesApart frames s.period.toNat →
    PinRead s (idleLevel s.construction.invert) (transitionsOf frames s.period.toNat s.construction.invert) →
    NonePendingAtPolls s (transitionsOf frames s.period.toNat s.construction.invert) →
    TxAccurate driftBound frames →
    EdgeFaithful latencyBound (transitionsOf frames s.period.toNat s.construction.invert) s →
    RxTiming driftBound latencyBound s.period.toNat →
    NoDeafFrame s frames s.period.toNat → CounterSane s → NotRefused s →
    run s.schedule.length s = .fault .jitterExceeded ∨
    ∃ (t : State) (turn : Nat → Nat), run s.schedule.length s = .next t ∧
      (∀ f ∈ frames, Completed s [f] s.period.toNat →
        ∃ u v, run (turn f.start) s = .next u ∧ run (turn f.start + 1) s = .next v ∧ Commits u v f.byte) ∧
      (∀ f ∈ frames, ∀ g ∈ frames, Completed s [f] s.period.toNat → Completed s [g] s.period.toNat →
        f.start < g.start → turn f.start < turn g.start) ∧
      (∀ n u v, run n s = .next u → run (n + 1) s = .next v →
        (∀ f ∈ frames, Completed s [f] s.period.toNat → turn f.start ≠ n) →
        v.head = u.head ∧ (v.overflow = true → u.overflow = true)) ∧
      (Completed s frames s.period.toNat → t.rxIdx = .idle)

/-- R114 over runs, with `CounterSane` (R249, R41, R253): while one frame is open, what the counter measures since its reference at
every evaluation is the true number of cycles, and so it is at every turn of the host inside a `write`. -/
def Obligations.SaneCounterMeasuresTrueTime : Prop :=
  ∀ (s t u : State) (turn : Turn) (rest : List Turn) (m n : Nat), CounterSane s → m ≤ n →
    run m s = .next t → run n s = .next u → u.schedule = turn :: rest →
    (FrameOpen s m (n + 1) → Evaluates s n → t.rxRef = t.cycle →
      elapsedSince u.rxRef (beginTurn turn rest u).cycle = clock s (n + 1) - clock s m) ∧
    (WriteOpen s m (n + 1) → WriteStepAt s n → t.txT0 = t.cycle →
      elapsedSince u.txT0 (beginTurn turn rest u).cycle = clock s (n + 1) - clock s m)

/-! ### The transmitter -/

/-- R141 step W0, R146, R147, R148, R153: `write` on a valid transmit pin saves and takes what it must, asserts TE, drives
the start bit and holds the port; with no valid transmit pin it responds 0 and changes nothing. That the byte is kept in a
field of its own, `txByte`, is the model's choice (log 11). -/
def Obligations.WriteStartsFrame : Prop :=
  ∀ (s : State) (b : Byte),
    (s.txValid = false → exec (.write b) s = .next { s with resp := 0#32, outputs := s.outputs ++ [.response 0#32] }) ∧
    (s.txValid = true → exec (.write b) s = .next
      { s with
        busy := true
        txByte := b
        intSuspend := if s.intTxEnabled then s.intSuspend else true
        txSave :=
          { rx := if s.oneWire then s.rxEnabled else s.txSave.rx
            lineOut := if s.oneWire then s.lineOut else s.txSave.lineOut
            suspended := !s.intTxEnabled }
        rxEnabled := if s.oneWire then false else s.rxEnabled
        rxIdx := if s.oneWire && s.rxEnabled then .idle else s.rxIdx
        rxAcc := if s.oneWire && s.rxEnabled then 0#8 else s.rxAcc
        lineOut := if s.oneWire then true else s.lineOut
        teLevel := if s.teValid then true else s.teLevel
        txLevel := s.construction.invert
        txT0 := s.cycle
        txPos := 1
        outputs := s.outputs ++ (if s.intTxEnabled then [] else [.suspend true s.cycle]) ++
          (if s.teValid then [.drive s.tePin true s.cycle] else []) ++
          [.drive s.construction.txPin s.construction.invert s.cycle] })

/-- R145, R144, R141 steps W1 to W9: the host's turn inside a `write` changes nothing before the deadline of cell k, and
from then on drives the cell's level, a data bit from the least significant on or the stop bit. That an early turn of the
host exists and changes only the readings is the model's choice (log 19). -/
def Obligations.WriteStepDrivesCell : Prop :=
  ∀ (s s₁ : State) (t : Turn) (rest : List Turn), s.schedule = t :: rest → t.move = .writeStep →
    s₁ = beginTurn t rest s → s.refusal = none → s.busy = true → 1 ≤ s.txPos → s.txPos ≤ 9 →
    ((s₁.cycle - s.txT0).toNat < s.txPos * s.period.toNat → step s = .next s₁) ∧
    (s.txPos * s.period.toNat ≤ (s₁.cycle - s.txT0).toNat →
      (s.intSuspend = true → (s₁.cycle - s.txT0).toNat ≤ s.txPos * s.period.toNat + s.platform.txJitter) →
      ∃ l, l = (if s.txPos = 9 then !s.construction.invert
                else s.txByte.getLsbD (s.txPos - 1) ^^ s.construction.invert) ∧
        step s = .next { s₁ with txLevel := l, txPos := s.txPos + 1,
                                 outputs := s.outputs ++ [.drive s.construction.txPin l s₁.cycle] })

/-- R144: no step of a `write` is ever taken before its deadline, nor, while interrupts are suspended, later than
TX_JITTER after it. That a later turn stops the model is log 6's choice. -/
def Obligations.WriteStepsKeepTheirBounds : Prop :=
  ∀ (s t : State) (u : Turn) (rest : List Turn), Inv s → s.schedule = u :: rest → u.move = .writeStep →
    step s = .next t → s.busy = true → (t.txPos ≠ s.txPos ∨ t.busy = false) →
    s.txPos * s.period.toNat ≤ (t.cycle - s.txT0).toNat ∧
    (s.intSuspend = true → (t.cycle - s.txT0).toNat ≤ s.txPos * s.period.toNat + s.platform.txJitter)

/-- R141 step W10, R149: at the end of the stop bit TE is released, direction and reception are restored, the suspension
ends, and the response is 1; before it the host waits. That the wait is an early turn which changes only the readings is
the model's choice (log 19). -/
def Obligations.WriteFinishRestores : Prop :=
  ∀ (s s₁ : State) (t : Turn) (rest : List Turn), s.schedule = t :: rest → t.move = .writeStep →
    s₁ = beginTurn t rest s → s.refusal = none → s.busy = true → s.txPos = 10 →
    ((s₁.cycle - s.txT0).toNat < 10 * s.period.toNat → step s = .next s₁) ∧
    (10 * s.period.toNat ≤ (s₁.cycle - s.txT0).toNat →
      (s.intSuspend = true → (s₁.cycle - s.txT0).toNat ≤ 10 * s.period.toNat + s.platform.txJitter) →
      step s = .next
        { s₁ with
          teLevel := if s.teValid then false else s.teLevel
          lineOut := if s.oneWire then s.txSave.lineOut else s.lineOut
          rxEnabled := if s.oneWire && s.txSave.rx then true else s.rxEnabled
          rxIdx := if s.oneWire && s.txSave.rx then .idle else s.rxIdx
          rxAcc := if s.oneWire && s.txSave.rx then 0#8 else s.rxAcc
          intSuspend := if s.txSave.suspended then false else s.intSuspend
          busy := false
          resp := 1#32
          outputs := s.outputs ++ (if s.teValid then [.drive s.tePin false s₁.cycle] else []) ++
            (if s.txSave.suspended then [.suspend false s₁.cycle] else []) ++ [.response 1#32] })

/-- R141 to R149, R153 over a whole `write`: taken at any times on or after the deadlines (within TX_JITTER of them when
interrupts are suspended), the eleven steps put exactly the frame of the byte on the record, respond 1, and give back
direction, reception enable and interrupts; only a one-wire `write` resets the assembly. -/
def Obligations.WriteTransmitsFrame : Prop :=
  ∀ (s : State) (b : Byte) (first : Nat) (offset : Nat → Nat) (level masked : Nat → Bool),
    Inv s → s.busy = false → s.destroyed = false → s.refusal = none → s.txValid = true →
    offset 0 = 0 → (∀ k < 10, offset k ≤ offset (k + 1)) → offset 10 < 2 ^ 32 →
    (∀ k, 1 ≤ k → k ≤ 10 → k * s.period.toNat ≤ offset k) →
    (s.intTxEnabled = false → ∀ k, 1 ≤ k → k ≤ 10 → offset k ≤ k * s.period.toNat + s.platform.txJitter) →
    s.schedule = writeTurns b first offset level masked →
    ∃ t, run 11 s = .next t ∧ t.schedule = [] ∧ t.busy = false ∧ t.resp = 1#32 ∧ t.intSuspend = false ∧
      t.outputs = s.outputs ++ writeOutputs s b (s.cycle + BitVec.ofNat 32 first) offset ∧
      t.lineOut = s.lineOut ∧ t.rxEnabled = s.rxEnabled ∧
      t.rxIdx = (if s.oneWire then .idle else s.rxIdx) ∧ t.rxAcc = (if s.oneWire then 0#8 else s.rxAcc) ∧
      t.rxRef = s.rxRef ∧ t.buf = s.buf ∧ t.head = s.head ∧ t.tail = s.tail ∧ t.overflow = s.overflow ∧
      t.baud = s.baud ∧ t.period = s.period ∧ t.handler = s.handler ∧ t.intTxEnabled = s.intTxEnabled ∧
      t.rxValid = s.rxValid ∧ t.txValid = s.txValid ∧ t.teValid = s.teValid ∧ t.tePin = s.tePin

/-- R150: `enableIntTx` sets the flag, responds 0 and changes nothing else. -/
def Obligations.EnableIntTxSets : Prop :=
  ∀ (s : State) (on : Bool),
    encode (.enableIntTx on) = 0x04#8 ++ 0#23 ++ BitVec.ofBool on ∧
    exec (.enableIntTx on) s = .next { s with intTxEnabled := on, resp := 0#32, outputs := s.outputs ++ [.response 0#32] }

/-! ### Notification, lifecycle and control -/

/-- R170: `onReceive` replaces the handler, responds 0 and changes nothing else; no event is emitted for bytes already
held. -/
def Obligations.OnReceiveReplacesHandler : Prop :=
  ∀ (s : State) (h : HandlerId),
    encode (.onReceive h) = 0x0E#8 ++ h ∧
    exec (.onReceive h) s = .next { s with handler := h, resp := 0#32, outputs := s.outputs ++ [.response 0#32] }

/-- R183, R188, R190, R191, R84, R116: `enableRx` and its three aliases. With no valid receive pin they only respond 0;
otherwise they set the enable, reset the assembly and change nothing else. -/
def Obligations.ReceptionCommandsGated : Prop :=
  ((∀ on, encode (.enableRx on) = 0x0B#8 ++ 0#23 ++ BitVec.ofBool on) ∧ encode .listen = 0x0F000000#32 ∧
    encode .endRx = 0x10000000#32 ∧ encode .stopListening = 0x12000000#32) ∧
  ∀ (s : State) (i : Instr) (on : Bool),
    i = .enableRx on ∨ (i = .listen ∧ on = true) ∨ (i = .endRx ∧ on = false) ∨ (i = .stopListening ∧ on = false) →
    exec i s = .next
      { s with
        rxEnabled := if s.rxValid then on else s.rxEnabled
        rxIdx := if s.rxValid then .idle else s.rxIdx
        rxAcc := if s.rxValid then 0#8 else s.rxAcc
        resp := 0#32
        outputs := s.outputs ++ [.response 0#32] }

/-- R185: `enableTx` sets the direction of the shared pin in one-wire mode with a valid transmit pin, and is a no-op
otherwise; it responds 0 and does not touch reception. -/
def Obligations.EnableTxSwitchesDirection : Prop :=
  ∀ (s : State) (on : Bool),
    encode (.enableTx on) = 0x0C#8 ++ 0#23 ++ BitVec.ofBool on ∧
    exec (.enableTx on) s = .next
      { s with
        lineOut := if s.construction.rxPin ≠ noPin ∧ s.construction.rxPin = s.construction.txPin ∧ s.txValid = true
                   then on else s.lineOut
        resp := 0#32
        outputs := s.outputs ++ [.response 0#32] }

/-- R186: `setTransmitEnablePin` refuses a data pin; otherwise it assigns the pin, computes its validity, drives a valid
pin to 0, responds 0 and changes nothing else. That its drive event carries the counter of its turn is the model's reading of
R43 and R222 (log 12). -/
def Obligations.TePinAssignment : Prop :=
  ∀ (s : State) (pin : PinId),
    encode (.setTransmitEnablePin pin) = 0x03#8 ++ 0#16 ++ pin ∧
    (pin ≠ noPin → pin = s.construction.rxPin ∨ pin = s.construction.txPin →
      exec (.setTransmitEnablePin pin) s = .refused .tePinClash) ∧
    (pin = noPin ∨ (pin ≠ s.construction.rxPin ∧ pin ≠ s.construction.txPin) →
      exec (.setTransmitEnablePin pin) s = .next
        { s with
          tePin := pin
          teValid := pin != noPin && s.platform.validTx.contains pin
          teLevel := if pin != noPin && s.platform.validTx.contains pin then false else s.teLevel
          resp := 0#32
          outputs := s.outputs ++
            (if pin != noPin && s.platform.validTx.contains pin then [.drive pin false s.cycle] else []) ++
            [.response 0#32] })

/-- R187, R189: `valid` and `isListening` respond the flags and change nothing. -/
def Obligations.StatusCommandsReport : Prop :=
  (encode .valid = 0x0A000000#32 ∧ encode .isListening = 0x11000000#32) ∧
  ∀ s : State,
    exec .valid s = .next { s with resp := if s.rxValid = true ∨ s.txValid = true then 1#32 else 0#32,
                                   outputs := s.outputs ++ [.response (if s.rxValid = true ∨ s.txValid = true then 1#32 else 0#32)] } ∧
    exec .isListening s = .next { s with resp := if s.rxEnabled then 1#32 else 0#32,
                                         outputs := s.outputs ++ [.response (if s.rxEnabled then 1#32 else 0#32)] }

/-- R242: what the gated and the reading commands answer before the first `begin`, from any construction, after any
configuration by the three commands that take effect then. -/
def Obligations.BeforeBeginNothingWorks : Prop :=
  ∀ (s : State) (i : Instr), s.rxValid = false → s.txValid = false → s.rxEnabled = false → s.baud = 0#24 →
    s.head = s.tail → s.overflow = false →
    (i ∈ [.available, .overflow, .isListening, .valid, .baudRate, .poll, .listen, .endRx, .stopListening, .flush] ∨
      (∃ b, i = .write b) ∨ (∃ on, i = .enableRx on ∨ i = .enableTx on) →
      exec i s = .next { s with resp := 0#32, outputs := s.outputs ++ [.response 0#32] }) ∧
    (i = .peek ∨ i = .read →
      exec i s = .next { s with resp := 0xFFFFFFFF#32, outputs := s.outputs ++ [.response 0xFFFFFFFF#32] })

/-! ### Reset -/

/-- R9, R213, R224: construction is refused for CAP outside 1 to 65536 and for a pin another UART uses. Which refusal comes
first is log 15's choice. -/
def Obligations.ConstructionRefused : Prop :=
  ∀ (p : Platform) (c : Construction),
    (c.cap = 0 ∨ 65536 < c.cap → construct p c = .refused .badConstruction) ∧
    (1 ≤ c.cap → c.cap ≤ 65536 →
      (c.rxPin ≠ noPin ∧ c.rxPin ∈ p.pinsInUse) ∨ (c.txPin ≠ noPin ∧ c.txPin ∈ p.pinsInUse) →
      construct p c = .refused .sharedPin)

/-- R240: the defaults of a construction, and every state field the rule lists after an accepted one. -/
def Obligations.ConstructionGivesResetState : Prop :=
  (∀ r t : PinId, ({ rxPin := r, txPin := t } : Construction).invert = false ∧
    ({ rxPin := r, txPin := t } : Construction).cap = 64) ∧
  (∀ (p : Platform) (c : Construction), 1 ≤ c.cap → c.cap ≤ 65536 → (c.rxPin = noPin ∨ c.rxPin ∉ p.pinsInUse) →
    (c.txPin = noPin ∨ c.txPin ∉ p.pinsInUse) →
    ∃ s, construct p c = .next s ∧ s.construction = c ∧ s.platform = p ∧
      s.rxValid = false ∧ s.txValid = false ∧ s.teValid = false ∧ s.tePin = 0xFF#8 ∧ s.baud = 0#24 ∧
      s.period = 0#32 ∧ s.rxEnabled = false ∧ s.intTxEnabled = true ∧ s.lineOut = false ∧ s.handler = 0#24 ∧
      s.rxIdx.number = -1 ∧ s.rxAcc = 0#8 ∧ s.rxRef = 0#32 ∧ s.head = 0 ∧ s.tail = 0 ∧ s.overflow = false ∧
      s.txPos = 0 ∧ s.txT0 = 0#32 ∧ s.txSave = ⟨false, false, false⟩ ∧ s.intSuspend = false ∧ s.busy = false ∧
      s.txDrive = false ∧ s.teDrive = false)

/-- R36, R240: every accepted construction starts in the invariant, and so does State.reset. -/
def Obligations.ConstructionEstablishesInvariant : Prop :=
  (∀ (p : Platform) (c : Construction) (s : State), construct p c = .next s → Inv s) ∧ Inv State.reset

/-! ### Whole-machine rules -/

/-- R36, with R24, R29 to R33, R35 and R147: every step, of every agent, from every state that meets the invariant, gives a
state that meets it. -/
def Obligations.StepKeepsInvariant : Prop := ∀ s t : State, Inv s → step s = .next t → Inv t

/-- R32, R51, R210: the block never faults. No step from a state that meets the invariant reaches an unwritten cell or a cell
that does not exist; so no run from a construction does, under any schedule, and a run from a clean entry that is not
refused goes on for ever unless the environment breaks R144's bound (log 6). -/
def Obligations.NoRunReachesARingFault : Prop :=
  (∀ (s : State) (f : Fault), Inv s → step s = .fault f → f = .jitterExceeded) ∧
  (∀ (p : Platform) (c : Construction) (s : State) (turns : List Turn) (n : Nat) (f : Fault),
    construct p c = .next s → run n { s with schedule := turns } = .fault f → f = .jitterExceeded) ∧
  (∀ (s : State) (n : Nat), CleanEntry s → NotRefused s →
    (∃ t, run n s = .next t ∧ Inv t) ∨ run n s = .fault .jitterExceeded)

/-- R210, R213, R78: every command that is not refused by its own check completes, and but for a `write` that starts a frame
it responds: the response is the last event and stands on `resp`. -/
def Obligations.AcceptedCommandsComplete : Prop :=
  ∀ (s : State) (i : Instr), Inv s →
    (∀ baud, i = .begin baud → ∃ p, periodOf s.platform.fClk baud = .ok p) →
    (∀ pin, i = .setTransmitEnablePin pin → s.teClash pin = false) →
    ∃ t, exec i s = .next t ∧
      ((∀ b, i ≠ .write b) ∨ s.txValid = false →
        t.busy = s.busy ∧ ∃ events, t.outputs = s.outputs ++ events ++ [.response t.resp])

/-- R56: only a commit writes `head`, `buf` and sets `overflow`, and only the host's `read` and `flush` move `tail` and
`overflow` clears the flag: among commands, all but `poll` leave the producer's side alone, and evaluations leave the
consumer's side alone. -/
def Obligations.SingleProducerSingleConsumer : Prop :=
  (∀ (i : Instr) (s t : State), i ≠ .poll → exec i s = .next t →
    t.head = s.head ∧ t.buf = s.buf ∧ (t.overflow = true → s.overflow = true) ∧
    (i ≠ .read → i ≠ .flush → t.tail = s.tail) ∧ (i ≠ .overflow → t.overflow = s.overflow)) ∧
  (∀ (k : EvalKind) (s t : State), evaluate k s = .ok t → t.tail = s.tail ∧ (s.overflow = true → t.overflow = true))

/-- R23, R94, R30: no step changes the construction parameters or the platform, and only an accepted `begin` changes the rate
and the period. -/
def Obligations.OnlyBeginChangesThePeriod : Prop :=
  ∀ s t : State, step s = .next t →
    t.construction = s.construction ∧ t.platform = s.platform ∧
    (t.period ≠ s.period ∨ t.baud ≠ s.baud →
      ∃ (u : Turn) (rest : List Turn) (w : Word) (baud : Rate), s.schedule = u :: rest ∧ u.move = .command w ∧
        decode w = .ok (.begin baud) ∧ t.baud = baud ∧ periodOf s.platform.fClk baud = .ok t.period)

/-- R35, R146: `int_suspend` rises only at W0 of a `write` with `intTxEnabled` false and falls only when that `write` ends. -/
def Obligations.OnlyWriteSuspendsInterrupts : Prop :=
  ∀ s t : State, Inv s → step s = .next t → t.intSuspend ≠ s.intSuspend →
    ∃ (u : Turn) (rest : List Turn), s.schedule = u :: rest ∧
      ((t.intSuspend = true ∧ s.intTxEnabled = false ∧ t.busy = true ∧
          ∃ w b, u.move = .command w ∧ decode w = .ok (.write b)) ∨
       (t.intSuspend = false ∧ u.move = .writeStep ∧ s.txPos = 10 ∧ s.busy = true ∧ t.busy = false))

/-- R46: what has been observed is never taken back; every step only adds to the record. That the observations are one record in
State, to which a step appends, is the model's choice (log 16). -/
def Obligations.ObservationsOnlyGrow : Prop :=
  ∀ s t : State, step s = .next t → ∃ events, t.outputs = s.outputs ++ events

/-- R42: the level of the receive pin reaches the state only through an evaluation: a step whose move is no edge, no latched
edge and no `poll` comes out alike, whatever level its turn reads and the turn before read; and so does every command but
`poll`. -/
def Obligations.OnlyPollReadsTheReceivePin : Prop :=
  (∀ (s : State) (u : Turn) (rest : List Turn) (l before : Bool), s.schedule = u :: rest →
    u.move ≠ .edge → u.move ≠ .deferredEdge → (∀ w, u.move = .command w → decode w ≠ .ok .poll) →
    (∀ t, step s = .next t →
      step { s with rxIn := before, schedule := { u with level := l } :: rest } = .next { t with rxIn := l }) ∧
    (∀ f, step s = .fault f → step { s with rxIn := before, schedule := { u with level := l } :: rest } = .fault f) ∧
    (∀ r, step s = .refused r →
      step { s with rxIn := before, schedule := { u with level := l } :: rest } = .refused r)) ∧
  (∀ (i : Instr) (s t : State) (l : Bool), i ≠ .poll →
    exec i s = .next t → exec i { s with rxIn := l } = .next { t with rxIn := l })

/-- R222, as R43 completes it (log 12): a command other than `poll`, `write` and the two that emit a drive event acts alike on
states that differ only in the counter. -/
def Obligations.CounterReadOnlyWhereNamed : Prop :=
  ∀ (i : Instr) (s t : State) (c : Word), i ≠ .poll → (∀ b, i ≠ .write b) → (∀ b, i ≠ .begin b) →
    (∀ p, i ≠ .setTransmitEnablePin p) →
    exec i s = .next t → exec i { s with cycle := c } = .next { t with cycle := c }

/-- R152, R140: in full duplex the two paths share nothing but the clock: an edge turn leaves the frame being sent alone, and a
turn of the host inside a `write` that is not one-wire leaves the receiver alone. -/
def Obligations.FullDuplexPathsAreSeparate : Prop :=
  ∀ (s t : State) (u : Turn) (rest : List Turn), s.schedule = u :: rest → step s = .next t →
    (u.move = .edge ∨ u.move = .deferredEdge →
      t.busy = s.busy ∧ t.txByte = s.txByte ∧ t.txPos = s.txPos ∧ t.txT0 = s.txT0 ∧ t.txSave = s.txSave ∧
      t.txLevel = s.txLevel ∧ t.teLevel = s.teLevel ∧ t.lineOut = s.lineOut ∧ t.intSuspend = s.intSuspend ∧
      t.resp = s.resp) ∧
    (u.move = .writeStep → s.oneWire = false →
      t.rxValid = s.rxValid ∧ t.rxEnabled = s.rxEnabled ∧ t.rxIdx = s.rxIdx ∧ t.rxAcc = s.rxAcc ∧
      t.rxRef = s.rxRef ∧ t.head = s.head ∧ t.tail = s.tail ∧ t.buf = s.buf ∧ t.overflow = s.overflow ∧
      t.handler = s.handler)

/-- R34, R10: when the two output pins are driven. -/
def Obligations.PinsDrivenAsStated : Prop :=
  ∀ s : State,
    (s.txDrive = true ↔ s.txValid = true ∧
      (¬ (s.construction.rxPin ≠ noPin ∧ s.construction.txPin ≠ noPin ∧
          s.construction.rxPin = s.construction.txPin) ∨ s.lineOut = true)) ∧
    (s.teDrive = true ↔ s.teValid = true)
end

