-- ==== Sys2Proof/Laws/State.lean ====
section
/-! SUPPORT. What each shared update of State does to each field, and to the conditions computed from fields. -/

namespace Sys2Proof.Machine

section emit
variable (e : Output) (s : State)

@[simp] theorem emit_construction : (emit e s).construction = s.construction := rfl
@[simp] theorem emit_platform : (emit e s).platform = s.platform := rfl
@[simp] theorem emit_rxValid : (emit e s).rxValid = s.rxValid := rfl
@[simp] theorem emit_txValid : (emit e s).txValid = s.txValid := rfl
@[simp] theorem emit_teValid : (emit e s).teValid = s.teValid := rfl
@[simp] theorem emit_tePin : (emit e s).tePin = s.tePin := rfl
@[simp] theorem emit_baud : (emit e s).baud = s.baud := rfl
@[simp] theorem emit_period : (emit e s).period = s.period := rfl
@[simp] theorem emit_rxEnabled : (emit e s).rxEnabled = s.rxEnabled := rfl
@[simp] theorem emit_intTxEnabled : (emit e s).intTxEnabled = s.intTxEnabled := rfl
@[simp] theorem emit_lineOut : (emit e s).lineOut = s.lineOut := rfl
@[simp] theorem emit_handler : (emit e s).handler = s.handler := rfl
@[simp] theorem emit_rxIdx : (emit e s).rxIdx = s.rxIdx := rfl
@[simp] theorem emit_rxAcc : (emit e s).rxAcc = s.rxAcc := rfl
@[simp] theorem emit_rxRef : (emit e s).rxRef = s.rxRef := rfl
@[simp] theorem emit_head : (emit e s).head = s.head := rfl
@[simp] theorem emit_tail : (emit e s).tail = s.tail := rfl
@[simp] theorem emit_overflow : (emit e s).overflow = s.overflow := rfl
@[simp] theorem emit_buf : (emit e s).buf = s.buf := rfl
@[simp] theorem emit_txPos : (emit e s).txPos = s.txPos := rfl
@[simp] theorem emit_txT0 : (emit e s).txT0 = s.txT0 := rfl
@[simp] theorem emit_txSave : (emit e s).txSave = s.txSave := rfl
@[simp] theorem emit_txByte : (emit e s).txByte = s.txByte := rfl
@[simp] theorem emit_txLevel : (emit e s).txLevel = s.txLevel := rfl
@[simp] theorem emit_teLevel : (emit e s).teLevel = s.teLevel := rfl
@[simp] theorem emit_intSuspend : (emit e s).intSuspend = s.intSuspend := rfl
@[simp] theorem emit_busy : (emit e s).busy = s.busy := rfl
@[simp] theorem emit_resp : (emit e s).resp = s.resp := rfl
@[simp] theorem emit_outputs : (emit e s).outputs = s.outputs ++ [e] := rfl
@[simp] theorem emit_cycle : (emit e s).cycle = s.cycle := rfl
@[simp] theorem emit_rxIn : (emit e s).rxIn = s.rxIn := rfl
@[simp] theorem emit_platformMask : (emit e s).platformMask = s.platformMask := rfl
@[simp] theorem emit_edgeLatch : (emit e s).edgeLatch = s.edgeLatch := rfl
@[simp] theorem emit_schedule : (emit e s).schedule = s.schedule := rfl
@[simp] theorem emit_destroyed : (emit e s).destroyed = s.destroyed := rfl
@[simp] theorem emit_refusal : (emit e s).refusal = s.refusal := rfl
@[simp] theorem emit_oneWire : (emit e s).oneWire = s.oneWire := rfl
@[simp] theorem emit_rxPinValid : (emit e s).rxPinValid = s.rxPinValid := rfl
@[simp] theorem emit_txPinValid : (emit e s).txPinValid = s.txPinValid := rfl
@[simp] theorem emit_suspended : (emit e s).suspended = s.suspended := rfl
@[simp] theorem emit_gateOpen : (emit e s).gateOpen = s.gateOpen := rfl
@[simp] theorem emit_txDrive : (emit e s).txDrive = s.txDrive := rfl
@[simp] theorem emit_teDrive : (emit e s).teDrive = s.teDrive := rfl
@[simp] theorem emit_teClash (p : PinId) : (emit e s).teClash p = s.teClash p := rfl
@[simp] theorem emit_ringCount : ringCount (emit e s) = ringCount s := rfl
@[simp] theorem emit_contents : contents (emit e s) = contents s := rfl

end emit

section respond
variable (v : Word) (s : State)

@[simp] theorem respond_construction : (respond v s).construction = s.construction := rfl
@[simp] theorem respond_platform : (respond v s).platform = s.platform := rfl
@[simp] theorem respond_rxValid : (respond v s).rxValid = s.rxValid := rfl
@[simp] theorem respond_txValid : (respond v s).txValid = s.txValid := rfl
@[simp] theorem respond_teValid : (respond v s).teValid = s.teValid := rfl
@[simp] theorem respond_tePin : (respond v s).tePin = s.tePin := rfl
@[simp] theorem respond_baud : (respond v s).baud = s.baud := rfl
@[simp] theorem respond_period : (respond v s).period = s.period := rfl
@[simp] theorem respond_rxEnabled : (respond v s).rxEnabled = s.rxEnabled := rfl
@[simp] theorem respond_intTxEnabled : (respond v s).intTxEnabled = s.intTxEnabled := rfl
@[simp] theorem respond_lineOut : (respond v s).lineOut = s.lineOut := rfl
@[simp] theorem respond_handler : (respond v s).handler = s.handler := rfl
@[simp] theorem respond_rxIdx : (respond v s).rxIdx = s.rxIdx := rfl
@[simp] theorem respond_rxAcc : (respond v s).rxAcc = s.rxAcc := rfl
@[simp] theorem respond_rxRef : (respond v s).rxRef = s.rxRef := rfl
@[simp] theorem respond_head : (respond v s).head = s.head := rfl
@[simp] theorem respond_tail : (respond v s).tail = s.tail := rfl
@[simp] theorem respond_overflow : (respond v s).overflow = s.overflow := rfl
@[simp] theorem respond_buf : (respond v s).buf = s.buf := rfl
@[simp] theorem respond_txPos : (respond v s).txPos = s.txPos := rfl
@[simp] theorem respond_txT0 : (respond v s).txT0 = s.txT0 := rfl
@[simp] theorem respond_txSave : (respond v s).txSave = s.txSave := rfl
@[simp] theorem respond_txByte : (respond v s).txByte = s.txByte := rfl
@[simp] theorem respond_txLevel : (respond v s).txLevel = s.txLevel := rfl
@[simp] theorem respond_teLevel : (respond v s).teLevel = s.teLevel := rfl
@[simp] theorem respond_intSuspend : (respond v s).intSuspend = s.intSuspend := rfl
@[simp] theorem respond_busy : (respond v s).busy = s.busy := rfl
@[simp] theorem respond_resp : (respond v s).resp = v := rfl
@[simp] theorem respond_outputs : (respond v s).outputs = s.outputs ++ [.response v] := rfl
@[simp] theorem respond_cycle : (respond v s).cycle = s.cycle := rfl
@[simp] theorem respond_rxIn : (respond v s).rxIn = s.rxIn := rfl
@[simp] theorem respond_platformMask : (respond v s).platformMask = s.platformMask := rfl
@[simp] theorem respond_edgeLatch : (respond v s).edgeLatch = s.edgeLatch := rfl
@[simp] theorem respond_schedule : (respond v s).schedule = s.schedule := rfl
@[simp] theorem respond_destroyed : (respond v s).destroyed = s.destroyed := rfl
@[simp] theorem respond_refusal : (respond v s).refusal = s.refusal := rfl
@[simp] theorem respond_oneWire : (respond v s).oneWire = s.oneWire := rfl
@[simp] theorem respond_rxPinValid : (respond v s).rxPinValid = s.rxPinValid := rfl
@[simp] theorem respond_txPinValid : (respond v s).txPinValid = s.txPinValid := rfl
@[simp] theorem respond_suspended : (respond v s).suspended = s.suspended := rfl
@[simp] theorem respond_gateOpen : (respond v s).gateOpen = s.gateOpen := rfl
@[simp] theorem respond_txDrive : (respond v s).txDrive = s.txDrive := rfl
@[simp] theorem respond_teDrive : (respond v s).teDrive = s.teDrive := rfl
@[simp] theorem respond_teClash (p : PinId) : (respond v s).teClash p = s.teClash p := rfl
@[simp] theorem respond_ringCount : ringCount (respond v s) = ringCount s := rfl
@[simp] theorem respond_contents : contents (respond v s) = contents s := rfl

end respond

section driveTx
variable (l : Bool) (s : State)

@[simp] theorem driveTx_construction : (driveTx l s).construction = s.construction := rfl
@[simp] theorem driveTx_platform : (driveTx l s).platform = s.platform := rfl
@[simp] theorem driveTx_rxValid : (driveTx l s).rxValid = s.rxValid := rfl
@[simp] theorem driveTx_txValid : (driveTx l s).txValid = s.txValid := rfl
@[simp] theorem driveTx_teValid : (driveTx l s).teValid = s.teValid := rfl
@[simp] theorem driveTx_tePin : (driveTx l s).tePin = s.tePin := rfl
@[simp] theorem driveTx_baud : (driveTx l s).baud = s.baud := rfl
@[simp] theorem driveTx_period : (driveTx l s).period = s.period := rfl
@[simp] theorem driveTx_rxEnabled : (driveTx l s).rxEnabled = s.rxEnabled := rfl
@[simp] theorem driveTx_intTxEnabled : (driveTx l s).intTxEnabled = s.intTxEnabled := rfl
@[simp] theorem driveTx_lineOut : (driveTx l s).lineOut = s.lineOut := rfl
@[simp] theorem driveTx_handler : (driveTx l s).handler = s.handler := rfl
@[simp] theorem driveTx_rxIdx : (driveTx l s).rxIdx = s.rxIdx := rfl
@[simp] theorem driveTx_rxAcc : (driveTx l s).rxAcc = s.rxAcc := rfl
@[simp] theorem driveTx_rxRef : (driveTx l s).rxRef = s.rxRef := rfl
@[simp] theorem driveTx_head : (driveTx l s).head = s.head := rfl
@[simp] theorem driveTx_tail : (driveTx l s).tail = s.tail := rfl
@[simp] theorem driveTx_overflow : (driveTx l s).overflow = s.overflow := rfl
@[simp] theorem driveTx_buf : (driveTx l s).buf = s.buf := rfl
@[simp] theorem driveTx_txPos : (driveTx l s).txPos = s.txPos := rfl
@[simp] theorem driveTx_txT0 : (driveTx l s).txT0 = s.txT0 := rfl
@[simp] theorem driveTx_txSave : (driveTx l s).txSave = s.txSave := rfl
@[simp] theorem driveTx_txByte : (driveTx l s).txByte = s.txByte := rfl
@[simp] theorem driveTx_txLevel : (driveTx l s).txLevel = l := rfl
@[simp] theorem driveTx_teLevel : (driveTx l s).teLevel = s.teLevel := rfl
@[simp] theorem driveTx_intSuspend : (driveTx l s).intSuspend = s.intSuspend := rfl
@[simp] theorem driveTx_busy : (driveTx l s).busy = s.busy := rfl
@[simp] theorem driveTx_resp : (driveTx l s).resp = s.resp := rfl
@[simp] theorem driveTx_outputs : (driveTx l s).outputs = s.outputs ++ [.drive s.construction.txPin l s.cycle] := rfl
@[simp] theorem driveTx_cycle : (driveTx l s).cycle = s.cycle := rfl
@[simp] theorem driveTx_rxIn : (driveTx l s).rxIn = s.rxIn := rfl
@[simp] theorem driveTx_platformMask : (driveTx l s).platformMask = s.platformMask := rfl
@[simp] theorem driveTx_edgeLatch : (driveTx l s).edgeLatch = s.edgeLatch := rfl
@[simp] theorem driveTx_schedule : (driveTx l s).schedule = s.schedule := rfl
@[simp] theorem driveTx_destroyed : (driveTx l s).destroyed = s.destroyed := rfl
@[simp] theorem driveTx_refusal : (driveTx l s).refusal = s.refusal := rfl
@[simp] theorem driveTx_oneWire : (driveTx l s).oneWire = s.oneWire := rfl
@[simp] theorem driveTx_rxPinValid : (driveTx l s).rxPinValid = s.rxPinValid := rfl
@[simp] theorem driveTx_txPinValid : (driveTx l s).txPinValid = s.txPinValid := rfl
@[simp] theorem driveTx_suspended : (driveTx l s).suspended = s.suspended := rfl
@[simp] theorem driveTx_gateOpen : (driveTx l s).gateOpen = s.gateOpen := rfl
@[simp] theorem driveTx_txDrive : (driveTx l s).txDrive = s.txDrive := rfl
@[simp] theorem driveTx_teDrive : (driveTx l s).teDrive = s.teDrive := rfl
@[simp] theorem driveTx_teClash (p : PinId) : (driveTx l s).teClash p = s.teClash p := rfl
@[simp] theorem driveTx_ringCount : ringCount (driveTx l s) = ringCount s := rfl
@[simp] theorem driveTx_contents : contents (driveTx l s) = contents s := rfl

end driveTx

section driveTe
variable (l : Bool) (s : State)

@[simp] theorem driveTe_construction : (driveTe l s).construction = s.construction := rfl
@[simp] theorem driveTe_platform : (driveTe l s).platform = s.platform := rfl
@[simp] theorem driveTe_rxValid : (driveTe l s).rxValid = s.rxValid := rfl
@[simp] theorem driveTe_txValid : (driveTe l s).txValid = s.txValid := rfl
@[simp] theorem driveTe_teValid : (driveTe l s).teValid = s.teValid := rfl
@[simp] theorem driveTe_tePin : (driveTe l s).tePin = s.tePin := rfl
@[simp] theorem driveTe_baud : (driveTe l s).baud = s.baud := rfl
@[simp] theorem driveTe_period : (driveTe l s).period = s.period := rfl
@[simp] theorem driveTe_rxEnabled : (driveTe l s).rxEnabled = s.rxEnabled := rfl
@[simp] theorem driveTe_intTxEnabled : (driveTe l s).intTxEnabled = s.intTxEnabled := rfl
@[simp] theorem driveTe_lineOut : (driveTe l s).lineOut = s.lineOut := rfl
@[simp] theorem driveTe_handler : (driveTe l s).handler = s.handler := rfl
@[simp] theorem driveTe_rxIdx : (driveTe l s).rxIdx = s.rxIdx := rfl
@[simp] theorem driveTe_rxAcc : (driveTe l s).rxAcc = s.rxAcc := rfl
@[simp] theorem driveTe_rxRef : (driveTe l s).rxRef = s.rxRef := rfl
@[simp] theorem driveTe_head : (driveTe l s).head = s.head := rfl
@[simp] theorem driveTe_tail : (driveTe l s).tail = s.tail := rfl
@[simp] theorem driveTe_overflow : (driveTe l s).overflow = s.overflow := rfl
@[simp] theorem driveTe_buf : (driveTe l s).buf = s.buf := rfl
@[simp] theorem driveTe_txPos : (driveTe l s).txPos = s.txPos := rfl
@[simp] theorem driveTe_txT0 : (driveTe l s).txT0 = s.txT0 := rfl
@[simp] theorem driveTe_txSave : (driveTe l s).txSave = s.txSave := rfl
@[simp] theorem driveTe_txByte : (driveTe l s).txByte = s.txByte := rfl
@[simp] theorem driveTe_txLevel : (driveTe l s).txLevel = s.txLevel := rfl
@[simp] theorem driveTe_teLevel : (driveTe l s).teLevel = l := rfl
@[simp] theorem driveTe_intSuspend : (driveTe l s).intSuspend = s.intSuspend := rfl
@[simp] theorem driveTe_busy : (driveTe l s).busy = s.busy := rfl
@[simp] theorem driveTe_resp : (driveTe l s).resp = s.resp := rfl
@[simp] theorem driveTe_outputs : (driveTe l s).outputs = s.outputs ++ [.drive s.tePin l s.cycle] := rfl
@[simp] theorem driveTe_cycle : (driveTe l s).cycle = s.cycle := rfl
@[simp] theorem driveTe_rxIn : (driveTe l s).rxIn = s.rxIn := rfl
@[simp] theorem driveTe_platformMask : (driveTe l s).platformMask = s.platformMask := rfl
@[simp] theorem driveTe_edgeLatch : (driveTe l s).edgeLatch = s.edgeLatch := rfl
@[simp] theorem driveTe_schedule : (driveTe l s).schedule = s.schedule := rfl
@[simp] theorem driveTe_destroyed : (driveTe l s).destroyed = s.destroyed := rfl
@[simp] theorem driveTe_refusal : (driveTe l s).refusal = s.refusal := rfl
@[simp] theorem driveTe_oneWire : (driveTe l s).oneWire = s.oneWire := rfl
@[simp] theorem driveTe_rxPinValid : (driveTe l s).rxPinValid = s.rxPinValid := rfl
@[simp] theorem driveTe_txPinValid : (driveTe l s).txPinValid = s.txPinValid := rfl
@[simp] theorem driveTe_suspended : (driveTe l s).suspended = s.suspended := rfl
@[simp] theorem driveTe_gateOpen : (driveTe l s).gateOpen = s.gateOpen := rfl
@[simp] theorem driveTe_txDrive : (driveTe l s).txDrive = s.txDrive := rfl
@[simp] theorem driveTe_teDrive : (driveTe l s).teDrive = s.teDrive := rfl
@[simp] theorem driveTe_teClash (p : PinId) : (driveTe l s).teClash p = s.teClash p := rfl
@[simp] theorem driveTe_ringCount : ringCount (driveTe l s) = ringCount s := rfl
@[simp] theorem driveTe_contents : contents (driveTe l s) = contents s := rfl

end driveTe

section setSuspend
variable (l : Bool) (s : State)

@[simp] theorem setSuspend_construction : (setSuspend l s).construction = s.construction := rfl
@[simp] theorem setSuspend_platform : (setSuspend l s).platform = s.platform := rfl
@[simp] theorem setSuspend_rxValid : (setSuspend l s).rxValid = s.rxValid := rfl
@[simp] theorem setSuspend_txValid : (setSuspend l s).txValid = s.txValid := rfl
@[simp] theorem setSuspend_teValid : (setSuspend l s).teValid = s.teValid := rfl
@[simp] theorem setSuspend_tePin : (setSuspend l s).tePin = s.tePin := rfl
@[simp] theorem setSuspend_baud : (setSuspend l s).baud = s.baud := rfl
@[simp] theorem setSuspend_period : (setSuspend l s).period = s.period := rfl
@[simp] theorem setSuspend_rxEnabled : (setSuspend l s).rxEnabled = s.rxEnabled := rfl
@[simp] theorem setSuspend_intTxEnabled : (setSuspend l s).intTxEnabled = s.intTxEnabled := rfl
@[simp] theorem setSuspend_lineOut : (setSuspend l s).lineOut = s.lineOut := rfl
@[simp] theorem setSuspend_handler : (setSuspend l s).handler = s.handler := rfl
@[simp] theorem setSuspend_rxIdx : (setSuspend l s).rxIdx = s.rxIdx := rfl
@[simp] theorem setSuspend_rxAcc : (setSuspend l s).rxAcc = s.rxAcc := rfl
@[simp] theorem setSuspend_rxRef : (setSuspend l s).rxRef = s.rxRef := rfl
@[simp] theorem setSuspend_head : (setSuspend l s).head = s.head := rfl
@[simp] theorem setSuspend_tail : (setSuspend l s).tail = s.tail := rfl
@[simp] theorem setSuspend_overflow : (setSuspend l s).overflow = s.overflow := rfl
@[simp] theorem setSuspend_buf : (setSuspend l s).buf = s.buf := rfl
@[simp] theorem setSuspend_txPos : (setSuspend l s).txPos = s.txPos := rfl
@[simp] theorem setSuspend_txT0 : (setSuspend l s).txT0 = s.txT0 := rfl
@[simp] theorem setSuspend_txSave : (setSuspend l s).txSave = s.txSave := rfl
@[simp] theorem setSuspend_txByte : (setSuspend l s).txByte = s.txByte := rfl
@[simp] theorem setSuspend_txLevel : (setSuspend l s).txLevel = s.txLevel := rfl
@[simp] theorem setSuspend_teLevel : (setSuspend l s).teLevel = s.teLevel := rfl
@[simp] theorem setSuspend_intSuspend : (setSuspend l s).intSuspend = l := rfl
@[simp] theorem setSuspend_busy : (setSuspend l s).busy = s.busy := rfl
@[simp] theorem setSuspend_resp : (setSuspend l s).resp = s.resp := rfl
@[simp] theorem setSuspend_outputs : (setSuspend l s).outputs = s.outputs ++ [.suspend l s.cycle] := rfl
@[simp] theorem setSuspend_cycle : (setSuspend l s).cycle = s.cycle := rfl
@[simp] theorem setSuspend_rxIn : (setSuspend l s).rxIn = s.rxIn := rfl
@[simp] theorem setSuspend_platformMask : (setSuspend l s).platformMask = s.platformMask := rfl
@[simp] theorem setSuspend_edgeLatch : (setSuspend l s).edgeLatch = s.edgeLatch := rfl
@[simp] theorem setSuspend_schedule : (setSuspend l s).schedule = s.schedule := rfl
@[simp] theorem setSuspend_destroyed : (setSuspend l s).destroyed = s.destroyed := rfl
@[simp] theorem setSuspend_refusal : (setSuspend l s).refusal = s.refusal := rfl
@[simp] theorem setSuspend_oneWire : (setSuspend l s).oneWire = s.oneWire := rfl
@[simp] theorem setSuspend_rxPinValid : (setSuspend l s).rxPinValid = s.rxPinValid := rfl
@[simp] theorem setSuspend_txPinValid : (setSuspend l s).txPinValid = s.txPinValid := rfl
@[simp] theorem setSuspend_txDrive : (setSuspend l s).txDrive = s.txDrive := rfl
@[simp] theorem setSuspend_teDrive : (setSuspend l s).teDrive = s.teDrive := rfl
@[simp] theorem setSuspend_teClash (p : PinId) : (setSuspend l s).teClash p = s.teClash p := rfl
@[simp] theorem setSuspend_ringCount : ringCount (setSuspend l s) = ringCount s := rfl
@[simp] theorem setSuspend_contents : contents (setSuspend l s) = contents s := rfl

end setSuspend

section rxEnable
variable (s : State)

@[simp] theorem rxEnable_construction : (rxEnable s).construction = s.construction := rfl
@[simp] theorem rxEnable_platform : (rxEnable s).platform = s.platform := rfl
@[simp] theorem rxEnable_rxValid : (rxEnable s).rxValid = s.rxValid := rfl
@[simp] theorem rxEnable_txValid : (rxEnable s).txValid = s.txValid := rfl
@[simp] theorem rxEnable_teValid : (rxEnable s).teValid = s.teValid := rfl
@[simp] theorem rxEnable_tePin : (rxEnable s).tePin = s.tePin := rfl
@[simp] theorem rxEnable_baud : (rxEnable s).baud = s.baud := rfl
@[simp] theorem rxEnable_period : (rxEnable s).period = s.period := rfl
@[simp] theorem rxEnable_rxEnabled : (rxEnable s).rxEnabled = true := rfl
@[simp] theorem rxEnable_intTxEnabled : (rxEnable s).intTxEnabled = s.intTxEnabled := rfl
@[simp] theorem rxEnable_lineOut : (rxEnable s).lineOut = s.lineOut := rfl
@[simp] theorem rxEnable_handler : (rxEnable s).handler = s.handler := rfl
@[simp] theorem rxEnable_rxIdx : (rxEnable s).rxIdx = .idle := rfl
@[simp] theorem rxEnable_rxAcc : (rxEnable s).rxAcc = 0#8 := rfl
@[simp] theorem rxEnable_rxRef : (rxEnable s).rxRef = s.rxRef := rfl
@[simp] theorem rxEnable_head : (rxEnable s).head = s.head := rfl
@[simp] theorem rxEnable_tail : (rxEnable s).tail = s.tail := rfl
@[simp] theorem rxEnable_overflow : (rxEnable s).overflow = s.overflow := rfl
@[simp] theorem rxEnable_buf : (rxEnable s).buf = s.buf := rfl
@[simp] theorem rxEnable_txPos : (rxEnable s).txPos = s.txPos := rfl
@[simp] theorem rxEnable_txT0 : (rxEnable s).txT0 = s.txT0 := rfl
@[simp] theorem rxEnable_txSave : (rxEnable s).txSave = s.txSave := rfl
@[simp] theorem rxEnable_txByte : (rxEnable s).txByte = s.txByte := rfl
@[simp] theorem rxEnable_txLevel : (rxEnable s).txLevel = s.txLevel := rfl
@[simp] theorem rxEnable_teLevel : (rxEnable s).teLevel = s.teLevel := rfl
@[simp] theorem rxEnable_intSuspend : (rxEnable s).intSuspend = s.intSuspend := rfl
@[simp] theorem rxEnable_busy : (rxEnable s).busy = s.busy := rfl
@[simp] theorem rxEnable_resp : (rxEnable s).resp = s.resp := rfl
@[simp] theorem rxEnable_outputs : (rxEnable s).outputs = s.outputs := rfl
@[simp] theorem rxEnable_cycle : (rxEnable s).cycle = s.cycle := rfl
@[simp] theorem rxEnable_rxIn : (rxEnable s).rxIn = s.rxIn := rfl
@[simp] theorem rxEnable_platformMask : (rxEnable s).platformMask = s.platformMask := rfl
@[simp] theorem rxEnable_edgeLatch : (rxEnable s).edgeLatch = s.edgeLatch := rfl
@[simp] theorem rxEnable_schedule : (rxEnable s).schedule = s.schedule := rfl
@[simp] theorem rxEnable_destroyed : (rxEnable s).destroyed = s.destroyed := rfl
@[simp] theorem rxEnable_refusal : (rxEnable s).refusal = s.refusal := rfl
@[simp] theorem rxEnable_oneWire : (rxEnable s).oneWire = s.oneWire := rfl
@[simp] theorem rxEnable_rxPinValid : (rxEnable s).rxPinValid = s.rxPinValid := rfl
@[simp] theorem rxEnable_txPinValid : (rxEnable s).txPinValid = s.txPinValid := rfl
@[simp] theorem rxEnable_suspended : (rxEnable s).suspended = s.suspended := rfl
@[simp] theorem rxEnable_txDrive : (rxEnable s).txDrive = s.txDrive := rfl
@[simp] theorem rxEnable_teDrive : (rxEnable s).teDrive = s.teDrive := rfl
@[simp] theorem rxEnable_teClash (p : PinId) : (rxEnable s).teClash p = s.teClash p := rfl
@[simp] theorem rxEnable_ringCount : ringCount (rxEnable s) = ringCount s := rfl
@[simp] theorem rxEnable_contents : contents (rxEnable s) = contents s := rfl

end rxEnable

section rxDisable
variable (s : State)

@[simp] theorem rxDisable_construction : (rxDisable s).construction = s.construction := rfl
@[simp] theorem rxDisable_platform : (rxDisable s).platform = s.platform := rfl
@[simp] theorem rxDisable_rxValid : (rxDisable s).rxValid = s.rxValid := rfl
@[simp] theorem rxDisable_txValid : (rxDisable s).txValid = s.txValid := rfl
@[simp] theorem rxDisable_teValid : (rxDisable s).teValid = s.teValid := rfl
@[simp] theorem rxDisable_tePin : (rxDisable s).tePin = s.tePin := rfl
@[simp] theorem rxDisable_baud : (rxDisable s).baud = s.baud := rfl
@[simp] theorem rxDisable_period : (rxDisable s).period = s.period := rfl
@[simp] theorem rxDisable_rxEnabled : (rxDisable s).rxEnabled = false := rfl
@[simp] theorem rxDisable_intTxEnabled : (rxDisable s).intTxEnabled = s.intTxEnabled := rfl
@[simp] theorem rxDisable_lineOut : (rxDisable s).lineOut = s.lineOut := rfl
@[simp] theorem rxDisable_handler : (rxDisable s).handler = s.handler := rfl
@[simp] theorem rxDisable_rxIdx : (rxDisable s).rxIdx = .idle := rfl
@[simp] theorem rxDisable_rxAcc : (rxDisable s).rxAcc = 0#8 := rfl
@[simp] theorem rxDisable_rxRef : (rxDisable s).rxRef = s.rxRef := rfl
@[simp] theorem rxDisable_head : (rxDisable s).head = s.head := rfl
@[simp] theorem rxDisable_tail : (rxDisable s).tail = s.tail := rfl
@[simp] theorem rxDisable_overflow : (rxDisable s).overflow = s.overflow := rfl
@[simp] theorem rxDisable_buf : (rxDisable s).buf = s.buf := rfl
@[simp] theorem rxDisable_txPos : (rxDisable s).txPos = s.txPos := rfl
@[simp] theorem rxDisable_txT0 : (rxDisable s).txT0 = s.txT0 := rfl
@[simp] theorem rxDisable_txSave : (rxDisable s).txSave = s.txSave := rfl
@[simp] theorem rxDisable_txByte : (rxDisable s).txByte = s.txByte := rfl
@[simp] theorem rxDisable_txLevel : (rxDisable s).txLevel = s.txLevel := rfl
@[simp] theorem rxDisable_teLevel : (rxDisable s).teLevel = s.teLevel := rfl
@[simp] theorem rxDisable_intSuspend : (rxDisable s).intSuspend = s.intSuspend := rfl
@[simp] theorem rxDisable_busy : (rxDisable s).busy = s.busy := rfl
@[simp] theorem rxDisable_resp : (rxDisable s).resp = s.resp := rfl
@[simp] theorem rxDisable_outputs : (rxDisable s).outputs = s.outputs := rfl
@[simp] theorem rxDisable_cycle : (rxDisable s).cycle = s.cycle := rfl
@[simp] theorem rxDisable_rxIn : (rxDisable s).rxIn = s.rxIn := rfl
@[simp] theorem rxDisable_platformMask : (rxDisable s).platformMask = s.platformMask := rfl
@[simp] theorem rxDisable_edgeLatch : (rxDisable s).edgeLatch = s.edgeLatch := rfl
@[simp] theorem rxDisable_schedule : (rxDisable s).schedule = s.schedule := rfl
@[simp] theorem rxDisable_destroyed : (rxDisable s).destroyed = s.destroyed := rfl
@[simp] theorem rxDisable_refusal : (rxDisable s).refusal = s.refusal := rfl
@[simp] theorem rxDisable_oneWire : (rxDisable s).oneWire = s.oneWire := rfl
@[simp] theorem rxDisable_rxPinValid : (rxDisable s).rxPinValid = s.rxPinValid := rfl
@[simp] theorem rxDisable_txPinValid : (rxDisable s).txPinValid = s.txPinValid := rfl
@[simp] theorem rxDisable_suspended : (rxDisable s).suspended = s.suspended := rfl
@[simp] theorem rxDisable_txDrive : (rxDisable s).txDrive = s.txDrive := rfl
@[simp] theorem rxDisable_teDrive : (rxDisable s).teDrive = s.teDrive := rfl
@[simp] theorem rxDisable_teClash (p : PinId) : (rxDisable s).teClash p = s.teClash p := rfl
@[simp] theorem rxDisable_ringCount : ringCount (rxDisable s) = ringCount s := rfl
@[simp] theorem rxDisable_contents : contents (rxDisable s) = contents s := rfl

end rxDisable

section ringFlush
variable (s : State)

@[simp] theorem ringFlush_construction : (ringFlush s).construction = s.construction := rfl
@[simp] theorem ringFlush_platform : (ringFlush s).platform = s.platform := rfl
@[simp] theorem ringFlush_rxValid : (ringFlush s).rxValid = s.rxValid := rfl
@[simp] theorem ringFlush_txValid : (ringFlush s).txValid = s.txValid := rfl
@[simp] theorem ringFlush_teValid : (ringFlush s).teValid = s.teValid := rfl
@[simp] theorem ringFlush_tePin : (ringFlush s).tePin = s.tePin := rfl
@[simp] theorem ringFlush_baud : (ringFlush s).baud = s.baud := rfl
@[simp] theorem ringFlush_period : (ringFlush s).period = s.period := rfl
@[simp] theorem ringFlush_rxEnabled : (ringFlush s).rxEnabled = s.rxEnabled := rfl
@[simp] theorem ringFlush_intTxEnabled : (ringFlush s).intTxEnabled = s.intTxEnabled := rfl
@[simp] theorem ringFlush_lineOut : (ringFlush s).lineOut = s.lineOut := rfl
@[simp] theorem ringFlush_handler : (ringFlush s).handler = s.handler := rfl
@[simp] theorem ringFlush_rxIdx : (ringFlush s).rxIdx = s.rxIdx := rfl
@[simp] theorem ringFlush_rxAcc : (ringFlush s).rxAcc = s.rxAcc := rfl
@[simp] theorem ringFlush_rxRef : (ringFlush s).rxRef = s.rxRef := rfl
@[simp] theorem ringFlush_head : (ringFlush s).head = s.head := rfl
@[simp] theorem ringFlush_tail : (ringFlush s).tail = s.head := rfl
@[simp] theorem ringFlush_overflow : (ringFlush s).overflow = s.overflow := rfl
@[simp] theorem ringFlush_buf : (ringFlush s).buf = s.buf := rfl
@[simp] theorem ringFlush_txPos : (ringFlush s).txPos = s.txPos := rfl
@[simp] theorem ringFlush_txT0 : (ringFlush s).txT0 = s.txT0 := rfl
@[simp] theorem ringFlush_txSave : (ringFlush s).txSave = s.txSave := rfl
@[simp] theorem ringFlush_txByte : (ringFlush s).txByte = s.txByte := rfl
@[simp] theorem ringFlush_txLevel : (ringFlush s).txLevel = s.txLevel := rfl
@[simp] theorem ringFlush_teLevel : (ringFlush s).teLevel = s.teLevel := rfl
@[simp] theorem ringFlush_intSuspend : (ringFlush s).intSuspend = s.intSuspend := rfl
@[simp] theorem ringFlush_busy : (ringFlush s).busy = s.busy := rfl
@[simp] theorem ringFlush_resp : (ringFlush s).resp = s.resp := rfl
@[simp] theorem ringFlush_outputs : (ringFlush s).outputs = s.outputs := rfl
@[simp] theorem ringFlush_cycle : (ringFlush s).cycle = s.cycle := rfl
@[simp] theorem ringFlush_rxIn : (ringFlush s).rxIn = s.rxIn := rfl
@[simp] theorem ringFlush_platformMask : (ringFlush s).platformMask = s.platformMask := rfl
@[simp] theorem ringFlush_edgeLatch : (ringFlush s).edgeLatch = s.edgeLatch := rfl
@[simp] theorem ringFlush_schedule : (ringFlush s).schedule = s.schedule := rfl
@[simp] theorem ringFlush_destroyed : (ringFlush s).destroyed = s.destroyed := rfl
@[simp] theorem ringFlush_refusal : (ringFlush s).refusal = s.refusal := rfl
@[simp] theorem ringFlush_oneWire : (ringFlush s).oneWire = s.oneWire := rfl
@[simp] theorem ringFlush_rxPinValid : (ringFlush s).rxPinValid = s.rxPinValid := rfl
@[simp] theorem ringFlush_txPinValid : (ringFlush s).txPinValid = s.txPinValid := rfl
@[simp] theorem ringFlush_suspended : (ringFlush s).suspended = s.suspended := rfl
@[simp] theorem ringFlush_gateOpen : (ringFlush s).gateOpen = s.gateOpen := rfl
@[simp] theorem ringFlush_txDrive : (ringFlush s).txDrive = s.txDrive := rfl
@[simp] theorem ringFlush_teDrive : (ringFlush s).teDrive = s.teDrive := rfl
@[simp] theorem ringFlush_teClash (p : PinId) : (ringFlush s).teClash p = s.teClash p := rfl

end ringFlush

section beginTurn
variable (t : Turn) (r : List Turn) (s : State)

@[simp] theorem beginTurn_construction : (beginTurn t r s).construction = s.construction := rfl
@[simp] theorem beginTurn_platform : (beginTurn t r s).platform = s.platform := rfl
@[simp] theorem beginTurn_rxValid : (beginTurn t r s).rxValid = s.rxValid := rfl
@[simp] theorem beginTurn_txValid : (beginTurn t r s).txValid = s.txValid := rfl
@[simp] theorem beginTurn_teValid : (beginTurn t r s).teValid = s.teValid := rfl
@[simp] theorem beginTurn_tePin : (beginTurn t r s).tePin = s.tePin := rfl
@[simp] theorem beginTurn_baud : (beginTurn t r s).baud = s.baud := rfl
@[simp] theorem beginTurn_period : (beginTurn t r s).period = s.period := rfl
@[simp] theorem beginTurn_rxEnabled : (beginTurn t r s).rxEnabled = s.rxEnabled := rfl
@[simp] theorem beginTurn_intTxEnabled : (beginTurn t r s).intTxEnabled = s.intTxEnabled := rfl
@[simp] theorem beginTurn_lineOut : (beginTurn t r s).lineOut = s.lineOut := rfl
@[simp] theorem beginTurn_handler : (beginTurn t r s).handler = s.handler := rfl
@[simp] theorem beginTurn_rxIdx : (beginTurn t r s).rxIdx = s.rxIdx := rfl
@[simp] theorem beginTurn_rxAcc : (beginTurn t r s).rxAcc = s.rxAcc := rfl
@[simp] theorem beginTurn_rxRef : (beginTurn t r s).rxRef = s.rxRef := rfl
@[simp] theorem beginTurn_head : (beginTurn t r s).head = s.head := rfl
@[simp] theorem beginTurn_tail : (beginTurn t r s).tail = s.tail := rfl
@[simp] theorem beginTurn_overflow : (beginTurn t r s).overflow = s.overflow := rfl
@[simp] theorem beginTurn_buf : (beginTurn t r s).buf = s.buf := rfl
@[simp] theorem beginTurn_txPos : (beginTurn t r s).txPos = s.txPos := rfl
@[simp] theorem beginTurn_txT0 : (beginTurn t r s).txT0 = s.txT0 := rfl
@[simp] theorem beginTurn_txSave : (beginTurn t r s).txSave = s.txSave := rfl
@[simp] theorem beginTurn_txByte : (beginTurn t r s).txByte = s.txByte := rfl
@[simp] theorem beginTurn_txLevel : (beginTurn t r s).txLevel = s.txLevel := rfl
@[simp] theorem beginTurn_teLevel : (beginTurn t r s).teLevel = s.teLevel := rfl
@[simp] theorem beginTurn_intSuspend : (beginTurn t r s).intSuspend = s.intSuspend := rfl
@[simp] theorem beginTurn_busy : (beginTurn t r s).busy = s.busy := rfl
@[simp] theorem beginTurn_resp : (beginTurn t r s).resp = s.resp := rfl
@[simp] theorem beginTurn_outputs : (beginTurn t r s).outputs = s.outputs := rfl
@[simp] theorem beginTurn_cycle : (beginTurn t r s).cycle = s.cycle + BitVec.ofNat 32 t.elapsed := rfl
@[simp] theorem beginTurn_rxIn : (beginTurn t r s).rxIn = t.level := rfl
@[simp] theorem beginTurn_platformMask : (beginTurn t r s).platformMask = t.masked := rfl
@[simp] theorem beginTurn_edgeLatch : (beginTurn t r s).edgeLatch = s.edgeLatch := rfl
@[simp] theorem beginTurn_schedule : (beginTurn t r s).schedule = r := rfl
@[simp] theorem beginTurn_destroyed : (beginTurn t r s).destroyed = s.destroyed := rfl
@[simp] theorem beginTurn_refusal : (beginTurn t r s).refusal = s.refusal := rfl
@[simp] theorem beginTurn_oneWire : (beginTurn t r s).oneWire = s.oneWire := rfl
@[simp] theorem beginTurn_rxPinValid : (beginTurn t r s).rxPinValid = s.rxPinValid := rfl
@[simp] theorem beginTurn_txPinValid : (beginTurn t r s).txPinValid = s.txPinValid := rfl
@[simp] theorem beginTurn_txDrive : (beginTurn t r s).txDrive = s.txDrive := rfl
@[simp] theorem beginTurn_teDrive : (beginTurn t r s).teDrive = s.teDrive := rfl
@[simp] theorem beginTurn_teClash (p : PinId) : (beginTurn t r s).teClash p = s.teClash p := rfl
@[simp] theorem beginTurn_ringCount : ringCount (beginTurn t r s) = ringCount s := rfl
@[simp] theorem beginTurn_contents : contents (beginTurn t r s) = contents s := rfl

end beginTurn

end Sys2Proof.Machine
end

