-- ==== Sys2Proof/Laws/Ring.lean ====
section
/-! SUPPORT. What the ring primitives, the commit and an evaluation can do, each said once. -/

namespace Sys2Proof.Machine

theorem outcomeOf_next {r : Except Fault State} {t : State} (h : outcomeOf r = .next t) : r = .ok t := by
  cases r with
  | ok s => injection h with h; rw [h]
  | error f => cases h

theorem outcomeOf_fault {r : Except Fault State} {f : Fault} (h : outcomeOf r = .fault f) : r = .error f := by
  cases r with
  | ok s => cases h
  | error g => injection h with h; rw [h]

theorem ringCount_lt (s : State) (h : 0 < s.construction.cap) : ringCount s < s.construction.cap :=
  Nat.mod_lt _ h

/-- `RingPush` either finds the ring full and only sets `overflow`, or writes the head cell and moves `head`. -/
theorem ringPush_cases {v : Byte} {s s' : State} {stored : Bool} (h : ringPush v s = .ok (stored, s')) :
    (stored = false ∧ s.nextCell s.head = s.tail ∧ s' = { s with overflow := true }) ∨
    (stored = true ∧ s.nextCell s.head ≠ s.tail ∧ s.head < s.construction.cap ∧
      s' = { s with buf := s.buf.write s.head v, head := s.nextCell s.head }) := by
  unfold ringPush at h
  split at h
  · next hf =>
    injection h with h
    injection h with h1 h2
    exact .inl ⟨h1.symm, hf, h2.symm⟩
  · next hf =>
    split at h
    · next t ht =>
      obtain ⟨hlt, rfl⟩ := memWrite_ok ht
      injection h with h
      injection h with h1 h2
      exact .inr ⟨h1.symm, hf, hlt, h2.symm⟩
    · cases h

theorem ringPush_fault {v : Byte} {s : State} {f : Fault} (h : ringPush v s = .error f) :
    s.construction.cap ≤ s.head := by
  unfold ringPush memWrite at h
  split at h
  · cases h
  · split at h
    · cases h
    · next hh =>
      split at hh
      · cases hh
      · omega

theorem ringPeek_cases {s : State} {r : Option Byte} (h : ringPeek s = .ok r) :
    (r = none ∧ s.head = s.tail) ∨ (∃ v, r = some v ∧ s.head ≠ s.tail ∧ s.buf.read s.tail = some v) := by
  unfold ringPeek at h
  split at h
  · exact .inl ⟨by injection h with h; exact h.symm, ‹_›⟩
  · split at h
    · next v hv => exact .inr ⟨v, by injection h with h; exact h.symm, ‹_›, (memRead_ok hv).2⟩
    · cases h

/-- `RingPop` moves `tail` past the cell it answers, or finds the ring empty and changes nothing. -/
theorem ringPop_cases {s s' : State} {r : Option Byte} (h : ringPop s = .ok (r, s')) :
    (r = none ∧ s.head = s.tail ∧ s' = s) ∨
    (∃ v, r = some v ∧ s.head ≠ s.tail ∧ s.buf.read s.tail = some v ∧
      s' = { s with tail := s.nextCell s.tail }) := by
  unfold ringPop at h
  split at h
  · next he =>
    injection h with h
    injection h with h1 h2
    exact .inl ⟨h1.symm, he, h2.symm⟩
  · split at h
    · next v hv =>
      injection h with h
      injection h with h1 h2
      exact .inr ⟨v, h1.symm, ‹_›, (memRead_ok hv).2, h2.symm⟩
    · cases h

/-- What a commit changes: `buf`, `head`, `overflow` and the record of events, and nothing else. -/
theorem commit_frame {v : Byte} {s s' : State} (h : commit v s = .ok s') :
    s' = { s with buf := s'.buf, head := s'.head, overflow := s'.overflow, outputs := s'.outputs } := by
  unfold commit at h
  split at h
  · cases h
  · next hp =>
    rcases ringPush_cases hp with ⟨rfl, -, rfl⟩ | ⟨rfl, -, -, rfl⟩ <;> split at h <;>
      (injection h with h; subst h; rfl)

theorem commit_fault {v : Byte} {s : State} {f : Fault} (h : commit v s = .error f) :
    s.construction.cap ≤ s.head := by
  unfold commit at h
  split at h
  · next hp => exact ringPush_fault hp
  · split at h <;> cases h

/-- An evaluation changes the assembly, and through a commit the ring, `overflow` and the record of events. -/
theorem evaluate_frame {k : EvalKind} {s s' : State} (h : evaluate k s = .ok s') :
    s' = { s with rxIdx := s'.rxIdx, rxAcc := s'.rxAcc, rxRef := s'.rxRef, buf := s'.buf, head := s'.head,
                  overflow := s'.overflow, outputs := s'.outputs } := by
  unfold evaluate at h
  split at h
  · next t ht =>
    injection h with h
    have hadv : t = { s with rxIdx := t.rxIdx, rxAcc := t.rxAcc, buf := t.buf, head := t.head,
                             overflow := t.overflow, outputs := t.outputs } := by
      unfold advancePhase at ht
      split at ht
      · injection ht with ht
        subst ht
        rfl
      · dsimp only at ht
        split at ht
        · injection ht with ht
          subst ht
          rfl
        · split at ht
          · next u hu =>
            injection ht with ht
            subst ht
            rw [commit_frame hu]
          · cases ht
    subst h
    unfold startPhase
    split
    · rw [hadv]
    · rw [hadv]
  · cases h

theorem evaluate_fault {k : EvalKind} {s : State} {f : Fault} (h : evaluate k s = .error f) :
    s.construction.cap ≤ s.head := by
  unfold evaluate at h
  split at h
  · cases h
  · next ht =>
    unfold advancePhase at ht
    split at ht
    · cases ht
    · dsimp only at ht
      split at ht
      · cases ht
      · split at ht
        · cases ht
        · next hc => exact commit_fault hc

end Sys2Proof.Machine
end

