-- ==== Sys2Proof/Laws/Inv.lean ====
section
/-! SUPPORT. The shared operations keep the invariant, each proved once. -/

namespace Sys2Proof.Machine

theorem Inv.emit {s : State} (h : Inv s) (e : Output) : Inv (emit e s) := by
  obtain ⟨⟩ := h; constructor <;> assumption

theorem Inv.respond {s : State} (h : Inv s) (v : Word) : Inv (respond v s) := by
  obtain ⟨⟩ := h; constructor <;> assumption

theorem Inv.driveTx {s : State} (h : Inv s) (l : Bool) : Inv (driveTx l s) := by
  obtain ⟨⟩ := h; constructor <;> assumption

theorem Inv.driveTe {s : State} (h : Inv s) (l : Bool) : Inv (driveTe l s) := by
  obtain ⟨⟩ := h; constructor <;> assumption

theorem Inv.beginTurn {s : State} (h : Inv s) (t : Turn) (r : List Turn) : Inv (beginTurn t r s) := by
  obtain ⟨⟩ := h; constructor <;> assumption

theorem Inv.withSchedule {s : State} (h : Inv s) (turns : List Turn) : Inv { s with schedule := turns } := by
  obtain ⟨⟩ := h
  constructor <;> assumption

theorem Inv.withOverflow {s : State} (h : Inv s) (b : Bool) : Inv { s with overflow := b } := by
  obtain ⟨⟩ := h; constructor <;> assumption

theorem Inv.withEdgeLatch {s : State} (h : Inv s) (b : Bool) : Inv { s with edgeLatch := b } := by
  obtain ⟨⟩ := h; constructor <;> assumption

theorem Inv.rxEnable {s : State} (h : Inv s) (hv : s.rxValid = true)
    (hb : s.busy = true → s.oneWire = false) (hd : s.destroyed = false) : Inv (rxEnable s) := by
  obtain ⟨⟩ := h
  constructor <;> first
    | assumption
    | simp_all

theorem Inv.rxDisable {s : State} (h : Inv s) : Inv (rxDisable s) := by
  obtain ⟨⟩ := h
  constructor <;> first
    | assumption
    | simp_all

theorem ringCount_self (s : State) (h : s.head = s.tail) : ringCount s = 0 := by
  simp [ringCount, h]

theorem Inv.ringFlush {s : State} (h : Inv s) : Inv (ringFlush s) := by
  have h0 : ringCount (Machine.ringFlush s) = 0 := ringCount_self _ rfl
  obtain ⟨⟩ := h
  constructor <;> first
    | assumption
    | (intro i hi; rw [h0] at hi; omega)

/-- The count after `head` has moved on, and the cell it moved past. -/
theorem ringCount_push {h t c : Nat} (hh : h < c) (ht : t < c) (hn : (h + 1) % c ≠ t) :
    ((h + 1) % c + c - t) % c = (h + c - t) % c + 1 ∧ (t + (h + c - t) % c) % c = h := by
  rcases Nat.lt_or_ge (h + 1) c with hlt | hge
  · rw [Nat.mod_eq_of_lt hlt] at hn ⊢
    rcases Nat.lt_or_ge h t with h1 | h1
    · rw [Nat.mod_eq_of_lt (a := h + c - t) (by omega), Nat.mod_eq_of_lt (by omega)]
      refine ⟨by omega, ?_⟩
      rw [show t + (h + c - t) = h + c by omega, Nat.add_mod_right, Nat.mod_eq_of_lt hh]
    · rw [show h + c - t = (h - t) + c by omega, show h + 1 + c - t = (h + 1 - t) + c by omega,
        Nat.add_mod_right, Nat.add_mod_right, Nat.mod_eq_of_lt (a := h - t) (by omega),
        Nat.mod_eq_of_lt (a := h + 1 - t) (by omega)]
      refine ⟨by omega, ?_⟩
      rw [show t + (h - t) = h by omega, Nat.mod_eq_of_lt hh]
  · have hc : h + 1 = c := by omega
    rw [hc, Nat.mod_self] at hn ⊢
    have ht0 : t ≠ 0 := fun h => hn h.symm
    rw [show h + c - t = (h - t) + c by omega, Nat.add_mod_right, Nat.mod_eq_of_lt (a := h - t) (by omega),
      Nat.zero_add, Nat.mod_eq_of_lt (a := c - t) (by omega)]
    refine ⟨by omega, ?_⟩
    rw [show t + (h - t) = h by omega, Nat.mod_eq_of_lt hh]

/-- The cell at distance `i` below the count is not the head cell. -/
theorem ring_cell_ne_head {h t c i : Nat} (hh : h < c) (ht : t < c) (hi : i < (h + c - t) % c) :
    (t + i) % c ≠ h := by
  rcases Nat.lt_or_ge h t with h1 | h1
  · rw [Nat.mod_eq_of_lt (by omega)] at hi
    rcases Nat.lt_or_ge (t + i) c with h2 | h2
    · rw [Nat.mod_eq_of_lt h2]; omega
    · rw [Nat.mod_eq_sub_mod h2, Nat.mod_eq_of_lt (by omega)]; omega
  · rw [show h + c - t = (h - t) + c by omega, Nat.add_mod_right, Nat.mod_eq_of_lt (by omega)] at hi
    rw [Nat.mod_eq_of_lt (by omega)]; omega

theorem Inv.ringPush {s s' : State} {v : Byte} {b : Bool} (h : Inv s) (hp : ringPush v s = .ok (b, s')) :
    Inv s' := by
  rcases ringPush_cases hp with ⟨-, -, rfl⟩ | ⟨-, hn, hlt, rfl⟩
  · exact h.withOverflow true
  · have hpos : 0 < s.construction.cap := by have := h.capRange; omega
    obtain ⟨hcount, hlast⟩ := ringCount_push h.headRange h.tailRange hn
    have hheld := h.held
    have hcells := h.cells
    obtain ⟨⟩ := h
    constructor <;> first
      | assumption
      | exact Nat.mod_lt _ hpos
      | exact Memory.wf_write _ _ ‹_›
      | (intro c hc
         rcases Memory.mem_write hc with rfl | hc
         · exact hlt
         · exact hcells c hc)
      | (intro i hi
         change i < (s.nextCell s.head + s.construction.cap - s.tail) % s.construction.cap at hi
         change ∃ v', (s.buf.write s.head v).read _ = some v'
         unfold State.nextCell at hi
         rw [hcount] at hi
         rcases Nat.lt_succ_iff_lt_or_eq.1 hi with hi | rfl
         · rw [Memory.read_write_other _ _ (ring_cell_ne_head ‹_› ‹_› hi)]
           exact hheld i hi
         · exact ⟨v, by change (s.buf.write s.head v).read ((s.tail + (s.head + s.construction.cap - s.tail) % s.construction.cap) % s.construction.cap) = _
                        rw [hlast, Memory.read_write_same]⟩)

/-- The count after `tail` has moved on. -/
theorem ringCount_pop {h t c : Nat} (hh : h < c) (ht : t < c) (hn : h ≠ t) :
    (h + c - (t + 1) % c) % c + 1 = (h + c - t) % c := by
  rcases Nat.lt_or_ge (t + 1) c with hlt | hge
  · rw [Nat.mod_eq_of_lt hlt]
    rcases Nat.lt_or_ge h t with h1 | h1
    · rw [Nat.mod_eq_of_lt (a := h + c - t) (by omega), Nat.mod_eq_of_lt (by omega)]
      omega
    · rw [show h + c - t = (h - t) + c by omega, show h + c - (t + 1) = (h - (t + 1)) + c by omega,
        Nat.add_mod_right, Nat.add_mod_right, Nat.mod_eq_of_lt (a := h - t) (by omega),
        Nat.mod_eq_of_lt (a := h - (t + 1)) (by omega)]
      omega
  · have hc : t + 1 = c := by omega
    rw [hc, Nat.mod_self, Nat.sub_zero, Nat.add_mod_right, Nat.mod_eq_of_lt hh, Nat.mod_eq_of_lt (by omega)]
    omega

/-- The cells of the ring after `tail` has moved on are those before, one further. -/
theorem ring_cell_pop (t c i : Nat) : ((t + 1) % c + i) % c = (t + (i + 1)) % c := by
  rw [Nat.mod_add_mod, Nat.add_right_comm, Nat.add_assoc]

theorem Inv.ringPop {s s' : State} {r : Option Byte} (h : Inv s) (hp : ringPop s = .ok (r, s')) : Inv s' := by
  rcases ringPop_cases hp with ⟨-, -, rfl⟩ | ⟨v, -, hn, -, rfl⟩
  · exact h
  · have hpos : 0 < s.construction.cap := by have := h.capRange; omega
    have hcount := ringCount_pop h.headRange h.tailRange hn
    have hheld := h.held
    obtain ⟨⟩ := h
    constructor <;> first
      | assumption
      | exact Nat.mod_lt _ hpos
      | (intro i hi
         change i < (s.head + s.construction.cap - s.nextCell s.tail) % s.construction.cap at hi
         change ∃ v', s.buf.read ((s.nextCell s.tail + i) % s.construction.cap) = some v'
         unfold State.nextCell at hi ⊢
         rw [ring_cell_pop]
         exact hheld (i + 1) (by unfold ringCount; omega))

theorem Inv.commit {s s' : State} {v : Byte} (h : Inv s) (hc : commit v s = .ok s') : Inv s' := by
  unfold Machine.commit at hc
  split at hc
  · cases hc
  · next hp =>
    have hi := h.ringPush hp
    split at hc <;> (injection hc with hc; subst hc)
    · exact hi.emit _
    · exact hi

theorem shiftIn_getLsbD (acc : Byte) (i : Nat) (bit : Bool) (j : Nat) :
    (shiftIn acc i bit).getLsbD j = (acc.getLsbD j || (decide (j = i) && decide (j < 8) && bit)) := by
  unfold shiftIn
  simp only [BitVec.getLsbD_or, BitVec.getLsbD_shiftLeft, BitVec.getLsbD_setWidth, BitVec.getLsbD_ofBool]
  by_cases h : j = i
  · subst h; by_cases h8 : j < 8 <;> simp [h8]
  · by_cases hlt : j < i
    · simp [hlt, h]
    · have hz : j - i ≠ 0 := by omega
      simp [h, hz]

/-- Where the advance loop stops, and what it leaves in the accumulator. -/
theorem advance_spec (period e : Nat) (bit : Bool) (cells i : Nat) (acc : Byte) :
    i ≤ (advance period e bit cells i acc).1 ∧ (advance period e bit cells i acc).1 ≤ i + cells ∧
    (∀ j, i ≤ j → j < (advance period e bit cells i acc).1 → mid period j ≤ e) ∧
    ((advance period e bit cells i acc).1 < i + cells → e < mid period (advance period e bit cells i acc).1) ∧
    ∀ j, (advance period e bit cells i acc).2.getLsbD j =
      (acc.getLsbD j || (decide (i ≤ j) && decide (j < (advance period e bit cells i acc).1) && decide (j < 8) && bit)) := by
  induction cells generalizing i acc with
  | zero =>
    simp only [advance]
    refine ⟨Nat.le_refl _, Nat.le_refl _, fun j h1 h2 => by omega, fun h => by omega, fun j => ?_⟩
    by_cases h1 : i ≤ j <;> by_cases h2 : j < i <;> (simp [h1, h2]; try omega)
  | succ cells ih =>
    unfold advance
    split
    · next hm =>
      obtain ⟨h1, h2, h3, h4, h5⟩ := ih (i + 1) (shiftIn acc i bit)
      refine ⟨by omega, by omega, fun j hj hlt => ?_, fun h => h4 (by omega), fun j => ?_⟩
      · rcases Nat.eq_or_lt_of_le hj with rfl | hj
        · exact hm
        · exact h3 j hj hlt
      · rw [h5, shiftIn_getLsbD]
        by_cases hj : j = i
        · subst hj
          have : j < (advance period e bit cells (j + 1) (shiftIn acc j bit)).1 := by omega
          simp [this]
        · have : (i + 1 ≤ j) ↔ (i ≤ j) := by omega
          simp [hj, this]
    · next hm =>
      refine ⟨Nat.le_refl _, by simp, fun j h1 h2 => by simp at h2; omega, fun _ => by simpa using hm, fun j => ?_⟩
      by_cases h1 : i ≤ j <;> by_cases h2 : j < i <;> (simp [h1, h2]; try omega)

theorem Inv.evaluate {s s' : State} {k : EvalKind} (h : Inv s) (hg : s.rxEnabled = true)
    (he : evaluate k s = .ok s') : Inv s' := by
  unfold Machine.evaluate at he
  split at he
  · next t ht =>
    injection he with he
    have key : Inv t ∧ t.rxEnabled = true := by
      unfold advancePhase at ht
      split at ht
      · injection ht with ht
        exact ht ▸ ⟨h, hg⟩
      · next i hi =>
        dsimp only at ht
        split at ht
        · next hlt =>
          injection ht with ht
          subst ht
          refine ⟨?_, hg⟩
          have hacc := h.accHigh i hi
          obtain ⟨hle, -, -, -, hbits⟩ := advance_spec s.period.toNat (elapsedSince s.rxRef s.cycle)
            (lineBit s.construction.invert (levelBefore k s.rxIn)) (8 - i.val) i.val s.rxAcc
          obtain ⟨⟩ := h
          constructor <;> first
            | assumption
            | (intro _; exact hg)
            | (intro hidle; exact absurd hidle (by simp))
            | (intro x hx j hj
               injection hx with hx
               subst hx
               change _ ≤ j at hj
               simp only at hj
               show BitVec.getLsbD _ j = false
               rw [hbits, hacc j (by omega)]
               simp only [Bool.false_or, Bool.and_eq_false_imp]
               intro hh
               simp only [Bool.and_eq_true, decide_eq_true_eq] at hh
               omega)
        · split at ht
          · next u hu =>
            injection ht with ht
            subst ht
            have hi' := h.commit hu
            have hf := commit_frame hu
            refine ⟨?_, by rw [hf]; exact hg⟩
            obtain ⟨⟩ := hi'
            constructor <;> first
              | assumption
              | (intro _; rfl)
              | (intro x hx; exact absurd hx (by simp))
              | (intro hx; exact absurd rfl hx)
          · cases ht
    subst he
    obtain ⟨hi, hg⟩ := key
    unfold startPhase
    split
    · obtain ⟨⟩ := hi
      constructor <;> first
        | assumption
        | (intro _; exact hg)
        | (intro hidle; exact absurd hidle (by simp))
        | (intro x hx j hj; simp)
    · exact hi
  · cases he

end Sys2Proof.Machine
end

