-- ==== Sys2Proof/Laws/Tx.lean ====
section
/-! SUPPORT. What the steps of a `write` do to the state, as one record update each, and that they keep the
invariant. -/

namespace Sys2Proof.Machine

/-- W0 as one update of the state it starts in. -/
theorem writeSetup_eq (b : Byte) (s : State) : writeSetup b s =
    { s with
      busy := true
      txByte := b
      intSuspend := if s.intTxEnabled then s.intSuspend else true
      txSave := { rx := if s.oneWire then s.rxEnabled else s.txSave.rx
                  lineOut := if s.oneWire then s.lineOut else s.txSave.lineOut
                  suspended := !s.intTxEnabled }
      rxEnabled := if s.oneWire then false else s.rxEnabled
      rxIdx := if s.oneWire && s.rxEnabled then .idle else s.rxIdx
      rxAcc := if s.oneWire && s.rxEnabled then 0#8 else s.rxAcc
      lineOut := if s.oneWire then true else s.lineOut
      teLevel := if s.teValid then true else s.teLevel
      txLevel := s.construction.invert
      txT0 := s.cycle
      txPos := 1
      outputs := s.outputs ++ (if s.intTxEnabled then [] else [.suspend true s.cycle]) ++
        (if s.teValid then [.drive s.tePin true s.cycle] else []) ++
        [.drive s.construction.txPin s.construction.invert s.cycle] } := by
  have ho : ∀ t : State, t.construction = s.construction → t.oneWire = s.oneWire := by
    intro t ht; simp [State.oneWire, ht]
  cases h1 : s.intTxEnabled <;> cases h2 : s.oneWire <;> cases h3 : s.rxEnabled <;> cases h4 : s.teValid <;>
    simp [writeSetup, writeSuspend, writeTakeLine, writeAssertTe, ho, h1, h2, h3, h4, setSuspend, driveTe, driveTx,
      emit, rxDisable, cellLevel]

/-- W1 to W9 as one update. -/
theorem writeCell_eq (s : State) : writeCell s =
    { s with
      txLevel := cellLevel s.construction.invert s.txByte s.txPos
      txPos := s.txPos + 1
      outputs := s.outputs ++
        [.drive s.construction.txPin (cellLevel s.construction.invert s.txByte s.txPos) s.cycle] } := rfl

/-- W10 as one update. -/
theorem writeFinish_eq (s : State) : writeFinish s =
    { s with
      teLevel := if s.teValid then false else s.teLevel
      lineOut := if s.oneWire then s.txSave.lineOut else s.lineOut
      rxEnabled := if s.oneWire && s.txSave.rx then true else s.rxEnabled
      rxIdx := if s.oneWire && s.txSave.rx then .idle else s.rxIdx
      rxAcc := if s.oneWire && s.txSave.rx then 0#8 else s.rxAcc
      intSuspend := if s.txSave.suspended then false else s.intSuspend
      busy := false
      resp := 1#32
      outputs := s.outputs ++ (if s.teValid then [.drive s.tePin false s.cycle] else []) ++
        (if s.txSave.suspended then [.suspend false s.cycle] else []) ++ [.response 1#32] } := by
  have ho : ∀ t : State, t.construction = s.construction → t.oneWire = s.oneWire := by
    intro t ht; simp [State.oneWire, ht]
  cases h1 : s.txSave.suspended <;> cases h2 : s.oneWire <;> cases h3 : s.txSave.rx <;> cases h4 : s.teValid <;>
    simp [writeFinish, writeResume, writeReturnLine, writeReleaseTe, ho, h1, h2, h3, h4, setSuspend, driveTe,
      emit, rxEnable, respond]

/-- The outcomes of the host's turn inside a `write`. -/
theorem takeWriteStep_cases {s t : State} (h : takeWriteStep s = .next t) :
    (t = s ∧ (s.busy = false ∨ elapsedSince s.txT0 s.cycle < deadline s.period.toNat s.txPos)) ∨
    (s.busy = true ∧ deadline s.period.toNat s.txPos ≤ elapsedSince s.txT0 s.cycle ∧
      (s.intSuspend = true →
        elapsedSince s.txT0 s.cycle ≤ deadline s.period.toNat s.txPos + s.platform.txJitter) ∧
      ((s.txPos < 10 ∧ t = writeCell s) ∨ (10 ≤ s.txPos ∧ t = writeFinish s))) := by
  unfold takeWriteStep at h
  split at h
  · next hb => injection h with h; exact .inl ⟨h.symm, .inl (by simpa using hb)⟩
  · next hb =>
    split at h
    · next he => injection h with h; exact .inl ⟨h.symm, .inr he⟩
    · next he =>
      split at h
      · cases h
      · next hj =>
        refine .inr ⟨by simpa using hb, by omega, fun hs => ?_, ?_⟩
        · simp only [hs, Bool.true_and, decide_eq_true_eq] at hj
          omega
        · split at h
          · injection h with h; exact .inl ⟨‹_›, h.symm⟩
          · injection h with h; exact .inr ⟨by omega, h.symm⟩

theorem takeWriteStep_wait {s : State} (h : elapsedSince s.txT0 s.cycle < deadline s.period.toNat s.txPos) :
    takeWriteStep s = .next s := by
  unfold takeWriteStep
  split
  · rfl
  · rfl

/-- A step at or after its deadline, and in time if interrupts are suspended, is taken. -/
theorem takeWriteStep_taken {s : State} (hb : s.busy = true)
    (h : deadline s.period.toNat s.txPos ≤ elapsedSince s.txT0 s.cycle)
    (hj : s.intSuspend = true →
      elapsedSince s.txT0 s.cycle ≤ deadline s.period.toNat s.txPos + s.platform.txJitter) :
    takeWriteStep s = .next (if s.txPos < 10 then writeCell s else writeFinish s) := by
  unfold takeWriteStep
  rw [if_neg (by simp [hb]), if_neg (by omega), if_neg]
  · split <;> rfl
  · simp only [Bool.and_eq_true, decide_eq_true_eq, not_and]
    intro hs
    have := hj hs
    omega

theorem takeWriteStep_fault {s : State} {f : Fault} (h : takeWriteStep s = .fault f) :
    f = .jitterExceeded ∧ s.busy = true ∧ s.intSuspend = true ∧
      deadline s.period.toNat s.txPos + s.platform.txJitter < elapsedSince s.txT0 s.cycle := by
  unfold takeWriteStep at h
  split at h
  · cases h
  · next hb =>
    split at h
    · cases h
    · split at h
      · next hj =>
        injection h with h
        simp only [Bool.and_eq_true, decide_eq_true_eq] at hj
        exact ⟨h.symm, by simpa using hb, hj.1, hj.2⟩
      · split at h <;> cases h

theorem Inv.writeSetup {s : State} (h : Inv s) (hb : s.busy = false) (hv : s.txValid = true)
    (b : Byte) (hd : s.destroyed = false) (hm : s.refusal = none) : Inv (writeSetup b s) := by
  rw [writeSetup_eq]
  have hfa := h.frameAttached
  have hav := h.attachedValid
  have hhi := h.accHigh
  obtain ⟨⟩ := h
  constructor <;> first
    | assumption
    | (dsimp only; cases h1 : s.oneWire <;> cases h2 : s.rxEnabled <;> simp_all; done)
    | (cases h1 : s.oneWire <;> cases h2 : s.rxEnabled <;> simp_all [State.oneWire])

theorem Inv.writeCell {s : State} (h : Inv s) (hp : s.txPos < 10) : Inv (writeCell s) := by
  rw [writeCell_eq]
  obtain ⟨⟩ := h
  constructor <;> first
    | assumption
    | (dsimp only; omega)

theorem Inv.writeFinish {s : State} (h : Inv s) (hb : s.busy = true) : Inv (writeFinish s) := by
  rw [writeFinish_eq]
  have hfa := h.frameAttached
  have hav := h.attachedValid
  have hhi := h.accHigh
  have hgone := h.gone
  have how := h.oneWireBusy hb
  obtain ⟨⟩ := h
  constructor <;> first
    | assumption
    | (dsimp only; cases h1 : s.oneWire <;> cases h2 : s.txSave.rx <;> simp_all)

end Sys2Proof.Machine
end

