-- ==== Sys2Proof/Laws/Control.lean ====
section
/-! SUPPORT. The period converter's bounds, and that the lifecycle operations keep the invariant. -/

namespace Sys2Proof.Machine

/-- What an accepted rate gives: the quotient, positive, and short enough for a frame to fit the counter. -/
theorem periodOf_ok {f : Nat} {b : Rate} {p : Word} (h : periodOf f b = .ok p) :
    b ≠ 0#24 ∧ p.toNat = f / b.toNat ∧ 0 < p.toNat ∧ 10 * p.toNat < 2 ^ 32 := by
  unfold periodOf at h
  split at h
  · cases h
  · next hb =>
    dsimp only at h
    split at h
    · cases h
    · next hp =>
      split at h
      · cases h
      · next hl =>
        injection h with h
        have : p.toNat = f / b.toNat := by
          rw [← h, BitVec.toNat_ofNat, Nat.mod_eq_of_lt (by omega)]
        exact ⟨hb, this, by omega, by omega⟩

theorem Inv.period_bound {s : State} (h : Inv s) : 10 * s.period.toNat < 2 ^ 32 := by
  rcases h.begun with ⟨-, hp, -⟩ | ⟨hp, -⟩
  · simp [hp]
  · exact (periodOf_ok hp).2.2.2

theorem Inv.setReception {s : State} (h : Inv s) (on : Bool) (hb : s.busy = false) (hd : s.destroyed = false) :
    Inv (setReception on s) := by
  unfold Machine.setReception
  split
  · split
    · exact h.rxEnable ‹_› (by simp [hb]) hd
    · exact h.rxDisable
  · exact h

theorem Inv.withLineOut {s : State} (h : Inv s) (on : Bool) (hb : s.busy = false) : Inv { s with lineOut := on } := by
  obtain ⟨⟩ := h
  constructor <;> first
    | assumption
    | (intro hbusy; cases hb.symm.trans hbusy)

theorem Inv.withHandler {s : State} (h : Inv s) (n : HandlerId) : Inv { s with handler := n } := by
  obtain ⟨⟩ := h; constructor <;> assumption

theorem Inv.withIntTxEnabled {s : State} (h : Inv s) (b : Bool) : Inv { s with intTxEnabled := b } := by
  obtain ⟨⟩ := h; constructor <;> assumption

theorem Inv.assignTePin {s : State} (h : Inv s) {pin : PinId} (hc : s.teClash pin = false) :
    Inv (assignTePin pin s) := by
  have hs : Inv { s with tePin := pin, teValid := pinValid s.platform.validTx pin } := by
    obtain ⟨⟩ := h
    constructor <;> first
      | assumption
      | rfl
  unfold Machine.assignTePin
  dsimp only
  split
  · exact (hs.driveTe _).respond _
  · exact hs.respond _

theorem Inv.beginWith {s : State} (h : Inv s) {baud : Rate} {p : Word}
    (hp : periodOf s.platform.fClk baud = .ok p) (hb : s.busy = false) (hd : s.destroyed = false) :
    Inv (beginWith baud p s) := by
  have hs : Inv { s with baud := baud, period := p, rxValid := s.rxPinValid, txValid := s.txPinValid } := by
    have hav := h.attachedValid
    have hbeg := h.begun
    obtain ⟨⟩ := h
    constructor <;> first
      | assumption
      | exact .inr ⟨hp, rfl, rfl⟩
      | (intro hbusy; cases hb.symm.trans hbusy)
      | (intro he
         rcases hbeg with ⟨-, -, hr, -⟩ | ⟨-, hr, -⟩
         · exact absurd (hav he) (by simp [hr])
         · exact hr ▸ hav he)
  unfold Machine.beginWith
  dsimp only
  split <;> split
  · exact ((hs.driveTx _).rxEnable ‹_› (by simp [hb]) hd).respond _
  · exact (hs.driveTx _).respond _
  · exact (hs.rxEnable ‹_› (by simp [hb]) hd).respond _
  · exact hs.respond _

theorem Inv.withRefusal {s : State} (h : Inv s) (hb : s.busy = false) (r : Option Refusal) :
    Inv { s with refusal := r } := by
  obtain ⟨⟩ := h
  constructor <;> first
    | assumption
    | exact fun _ => hb

theorem Inv.destroyUart {s : State} (h : Inv s) (hb : s.busy = false) : Inv (destroyUart s) := by
  have hr := h.rxDisable
  have hpos : 0 < s.construction.cap := by have := h.capRange; omega
  obtain ⟨⟩ := hr
  constructor <;> first
    | assumption
    | exact hpos
    | exact Memory.wf_nil
    | (intro c hc; cases hc)
    | (intro _; exact ⟨hb, rfl⟩)
    | (intro i hi
       rw [ringCount_self _ rfl] at hi
       omega)

/-- Every accepted construction starts in the invariant. -/
theorem Inv.initial (p : Platform) {c : Construction} (hc : c.wellFormed = true) : Inv (State.initial p c) := by
  simp only [Construction.wellFormed, Bool.and_eq_true, decide_eq_true_eq] at hc
  obtain ⟨h1, h2⟩ := hc
  constructor <;> first
    | exact ⟨h1, h2⟩
    | exact Nat.lt_of_lt_of_le Nat.zero_lt_one h1
    | exact Memory.wf_nil
    | (intro i hi
       rw [ringCount_self _ rfl] at hi
       omega)
    | simp [State.initial, pinValid, State.teClash]

end Sys2Proof.Machine
end

