-- ==== Sys2Proof/Laws/Decode.lean ====
section
/-! SUPPORT. The fields of an encoded word (R70), the opcode column (R73), and that every instruction is well
formed. -/

namespace Sys2Proof

theorem argField_encode (i : Instr) : argField (encode i) = i.argument := by
  unfold argField encode
  ext k hk
  rw [BitVec.getElem_extractLsb', Nat.zero_add]
  refine (BitVec.getLsbD_append (x := i.mnemonic.opcode) (y := i.argument)).trans ?_
  simp [hk]

theorem opField_encode (i : Instr) : opField (encode i) = i.mnemonic.opcode := by
  unfold opField encode
  ext k hk
  rw [BitVec.getElem_extractLsb']
  refine (BitVec.getLsbD_append (x := i.mnemonic.opcode) (y := i.argument)).trans ?_
  simp [BitVec.getLsbD_eq_getElem hk]

theorem Mnemonic.ofOpcode_opcode (m : Mnemonic) : Mnemonic.ofOpcode m.opcode = some m := by
  cases m <;> rfl

/-- A row is found only under its own opcode. -/
theorem Mnemonic.opcode_of_ofOpcode {op : BitVec 8} {m : Mnemonic} (h : Mnemonic.ofOpcode op = some m) :
    m.opcode = op := by
  have hop : op = BitVec.ofNat 8 op.toNat := by simp
  rw [hop]
  unfold Mnemonic.ofOpcode at h
  split at h <;> first
    | (injection h with h; subst h; simp_all [Mnemonic.opcode])
    | cases h

/-- The operand of a format with `n` used low bits leaves the reserved bits 0. -/
theorem setWidth_and_high (p : BitVec 8) : p.setWidth 24 &&& 0xFFFF00#24 = 0#24 := by
  revert p; decide

theorem extract_setWidth (p : BitVec 8) : (p.setWidth 24).extractLsb' 0 8 = p := by
  revert p; decide

/-- Every instruction is well formed: the types of Instr's fields carry the ranges of R71. -/
theorem Instr.wellFormed_always (i : Instr) : i.wellFormed = true := by
  cases i with
  | begin b => simpa [Instr.wellFormed, SourceCommand.wellFormed, Instr.source, Instr.mnemonic, Instr.operand,
      Mnemonic.format, Format.admits] using b.isLt
  | setTransmitEnablePin p => simpa [Instr.wellFormed, SourceCommand.wellFormed, Instr.source, Instr.mnemonic,
      Instr.operand, Mnemonic.format, Format.admits] using p.isLt
  | write b => simpa [Instr.wellFormed, SourceCommand.wellFormed, Instr.source, Instr.mnemonic, Instr.operand,
      Mnemonic.format, Format.admits] using b.isLt
  | onReceive h => simpa [Instr.wellFormed, SourceCommand.wellFormed, Instr.source, Instr.mnemonic, Instr.operand,
      Mnemonic.format, Format.admits] using h.isLt
  | enableIntTx on => cases on <;> rfl
  | enableRx on => cases on <;> rfl
  | enableTx on => cases on <;> rfl
  | _ => rfl

end Sys2Proof
end

