-- ==== Sys2Proof/Laws/PerInstr.lean ====
section
/-! SUPPORT. Facts about every instruction as a word, one lemma a constructor. -/

namespace Sys2Proof.Laws.WordShape

/-- The operand field an instruction is encoded with leaves its format's reserved bits 0 (R71, R75), and the decoder
assembles the same instruction from it (R72). -/
def Statement (i : Instr) : Prop :=
  i.argument &&& i.mnemonic.format.reserved = 0#24 ∧ i.mnemonic.withArgument i.argument = i

theorem begin (baud : Rate) : Statement (.begin baud) := ⟨BitVec.and_zero, rfl⟩
theorem baudRate : Statement .baudRate := ⟨rfl, rfl⟩
theorem setTransmitEnablePin (pin : PinId) : Statement (.setTransmitEnablePin pin) :=
  ⟨setWidth_and_high pin, congrArg Instr.setTransmitEnablePin (extract_setWidth pin)⟩
theorem enableIntTx (on : Bool) : Statement (.enableIntTx on) := by cases on <;> exact ⟨rfl, rfl⟩
theorem available : Statement .available := ⟨rfl, rfl⟩
theorem peek : Statement .peek := ⟨rfl, rfl⟩
theorem read : Statement .read := ⟨rfl, rfl⟩
theorem flush : Statement .flush := ⟨rfl, rfl⟩
theorem write (byte : Byte) : Statement (.write byte) :=
  ⟨setWidth_and_high byte, congrArg Instr.write (extract_setWidth byte)⟩
theorem valid : Statement .valid := ⟨rfl, rfl⟩
theorem enableRx (on : Bool) : Statement (.enableRx on) := by cases on <;> exact ⟨rfl, rfl⟩
theorem enableTx (on : Bool) : Statement (.enableTx on) := by cases on <;> exact ⟨rfl, rfl⟩
theorem overflow : Statement .overflow := ⟨rfl, rfl⟩
theorem onReceive (handler : HandlerId) : Statement (.onReceive handler) := ⟨BitVec.and_zero, rfl⟩
theorem listen : Statement .listen := ⟨rfl, rfl⟩
theorem endRx : Statement .endRx := ⟨rfl, rfl⟩
theorem isListening : Statement .isListening := ⟨rfl, rfl⟩
theorem stopListening : Statement .stopListening := ⟨rfl, rfl⟩
theorem poll : Statement .poll := ⟨rfl, rfl⟩

end Sys2Proof.Laws.WordShape
end

