-- ==== Sys2Proof/Laws/Run.lean ====
section
/-! SUPPORT. Runs: what every step does to the schedule and to the readings, and how a run goes on. -/

namespace Sys2Proof.Machine

/-- The schedule and the readings of a state: what `beginTurn` sets and no move changes. -/
def readings (s : State) : List Turn × Word × Bool × Bool := (s.schedule, s.cycle, s.rxIn, s.platformMask)

theorem readings_beginWith (baud : Rate) (p : Word) (s : State) : readings (beginWith baud p s) = readings s := by
  unfold beginWith
  dsimp only
  split <;> split <;> rfl

theorem readings_assignTePin (pin : PinId) (s : State) : readings (assignTePin pin s) = readings s := by
  unfold assignTePin
  dsimp only
  split <;> rfl

theorem readings_setReception (on : Bool) (s : State) : readings (setReception on s) = readings s := by
  unfold setReception
  split
  · split <;> rfl
  · rfl

theorem readings_evaluate {k : EvalKind} {s t : State} (h : evaluate k s = .ok t) : readings t = readings s := by
  rw [evaluate_frame h]
  rfl

theorem readings_ringPop {s t : State} {r : Option Byte} (h : ringPop s = .ok (r, t)) : readings t = readings s := by
  rcases ringPop_cases h with ⟨-, -, rfl⟩ | ⟨v, -, -, -, rfl⟩ <;> rfl

/-- No command changes the schedule or the readings. -/
theorem readings_exec {i : Instr} {s t : State} (h : exec i s = .next t) : readings t = readings s := by
  cases i <;> simp only [exec] at h
  case begin baud =>
    unfold execBegin at h
    split at h
    · injection h with h; subst h; exact readings_beginWith ..
    · injection h with h; subst h; rfl
  case setTransmitEnablePin pin =>
    unfold execSetTransmitEnablePin at h
    split at h
    · cases h
    · injection h with h; subst h; exact readings_assignTePin ..
  case peek =>
    unfold execPeek at h
    split at h
    · injection h with h; subst h; rfl
    · cases h
  case read =>
    unfold execRead at h
    split at h
    · next hp => injection h with h; subst h; exact (readings_ringPop hp :)
    · cases h
  case write byte =>
    unfold execWrite at h
    split at h
    · injection h with h; subst h; rw [writeSetup_eq]; rfl
    · injection h with h; subst h; rfl
  case poll =>
    unfold execPoll at h
    split at h
    · split at h
      · next he => injection h with h; subst h; exact (readings_evaluate he :)
      · cases h
    · injection h with h; subst h; rfl
  case enableRx on => injection h with h; subst h; exact readings_setReception ..
  case listen => injection h with h; subst h; exact readings_setReception ..
  case endRx => injection h with h; subst h; exact readings_setReception ..
  case stopListening => injection h with h; subst h; exact readings_setReception ..
  case enableTx on =>
    injection h with h
    subst h
    split <;> rfl
  all_goals injection h with h; subst h; rfl

/-- No move of an unmarked block changes the schedule or the readings. -/
theorem readings_takeMove {m : Move} {s t : State} (h : takeMove m s = .next t) : readings t = readings s := by
  unfold takeMove at h
  split at h
  · injection h with h; rw [h]
  · unfold presentCommand at h
    split at h
    · cases h
    · split at h
      · cases h
      · split at h
        · exact readings_exec h
        · cases h
        · cases h
  · rcases takeWriteStep_cases h with ⟨rfl, -⟩ | ⟨-, -, -, ⟨-, rfl⟩ | ⟨-, rfl⟩⟩
    · rfl
    · rfl
    · rw [writeFinish_eq]; rfl
  · unfold takeEdge at h
    split at h
    · exact readings_evaluate (outcomeOf_next h)
    · split at h <;> (injection h with h; subst h; rfl)
  · unfold takeDeferredEdge at h
    split at h
    · split at h
      · exact (readings_evaluate (outcomeOf_next h) :)
      · injection h with h; subst h; rfl
    · injection h with h; subst h; rfl
  · unfold presentDestroy at h
    split at h
    · cases h
    · split at h
      · cases h
      · injection h with h; subst h; rfl

/-- All that can happen in a move that ends in a next state: the agent's move on an unmarked block, or, on a marked one, time that
passes and `baudRate` (R91, R213). -/
theorem runMove_cases {m : Move} {s t : State} (h : runMove m s = .next t) :
    (s.refusal = none ∧ takeMove m s = .next t) ∨
    (s.refusal ≠ none ∧ m = .pass ∧ t = s) ∨
    (s.refusal ≠ none ∧ ∃ w, m = .command w ∧ decode w = .ok .baudRate ∧ t = respond (ofRate s.baud) s) := by
  unfold runMove at h
  split at h
  · exact .inl ⟨‹_›, h⟩
  · next r hr =>
    have hne : s.refusal ≠ none := by rw [hr]; exact Option.some_ne_none r
    unfold takeMarkedMove at h
    split at h
    · injection h with h
      exact .inr (.inl ⟨hne, rfl, h.symm⟩)
    · split at h
      · next hd => injection h with h; exact .inr (.inr ⟨hne, _, rfl, hd, h.symm⟩)
      · cases h
      · cases h
    all_goals cases h

theorem runMove_unmarked {m : Move} {s : State} (h : s.refusal = none) : runMove m s = takeMove m s := by
  unfold runMove
  rw [h]

/-- No move changes the schedule or the readings. -/
theorem readings_runMove {m : Move} {s t : State} (h : runMove m s = .next t) : readings t = readings s := by
  rcases runMove_cases h with ⟨-, h⟩ | ⟨-, -, rfl⟩ | ⟨-, w, -, -, rfl⟩
  · exact readings_takeMove h
  · rfl
  · rfl

/-- A step with a turn to come is that turn's move, from the state the turn begins in. -/
theorem step_of_turn {s : State} {t : Turn} {rest : List Turn} (h : s.schedule = t :: rest) :
    step s = runMove t.move (beginTurn t rest s) := by
  simp [step, takeTurn, h]

/-- Every step uses up its turn and leaves the turn's readings on the input ports. -/
theorem step_readings {s u : State} {t : Turn} {rest : List Turn} (h : s.schedule = t :: rest)
    (hs : step s = .next u) :
    readings u = (rest, s.cycle + BitVec.ofNat 32 t.elapsed, t.level, t.masked) := by
  rw [step_of_turn h] at hs
  rw [readings_runMove hs]
  rfl

theorem step_of_no_turn {s : State} (h : s.schedule = []) : step s = .next s := by
  simp [step, takeTurn, h]

theorem run_zero (s : State) : run 0 s = .next s := rfl

theorem run_succ_next {n : Nat} {s t : State} (h : step s = .next t) : run (n + 1) s = run n t := by
  have hc : core.step s = .next t := h
  show Host.Core.run core (n + 1) s = _
  simp only [Host.Core.run]
  rw [hc]
  rfl

theorem run_succ_fault {n : Nat} {s : State} {f : Fault} (h : step s = .fault f) : run (n + 1) s = .fault f := by
  have hc : core.step s = .fault f := h
  show Host.Core.run core (n + 1) s = _
  simp only [Host.Core.run]
  rw [hc]
  rfl

theorem run_succ_refused {n : Nat} {s : State} {r : Refusal} (h : step s = .refused r) :
    run (n + 1) s = .refused r := by
  have hc : core.step s = .refused r := h
  show Host.Core.run core (n + 1) s = _
  simp only [Host.Core.run]
  rw [hc]
  rfl

/-- The first step of a run that goes on. -/
theorem run_succ_cases {n : Nat} {s u : State} (h : run (n + 1) s = .next u) :
    ∃ t, step s = .next t ∧ run n t = .next u := by
  cases hs : step s with
  | next t => exact ⟨t, rfl, (run_succ_next hs).symm.trans h⟩
  | fault f => cases (run_succ_fault hs).symm.trans h
  | refused r => cases (run_succ_refused hs).symm.trans h

/-- A run of `m` and then `n` steps. -/
theorem run_add {m n : Nat} {s t : State} (h : run m s = .next t) : run (m + n) s = run n t := by
  induction m generalizing s with
  | zero => cases h; rw [Nat.zero_add]
  | succ m ih =>
    obtain ⟨u, hu, hr⟩ := run_succ_cases h
    rw [Nat.add_right_comm, run_succ_next hu, ih hr]

/-- A run that goes on for `m + n` steps goes on for `m`. -/
theorem run_prefix {m n : Nat} {s t : State} (h : run (m + n) s = .next t) : ∃ u, run m s = .next u := by
  induction m generalizing s with
  | zero => exact ⟨s, rfl⟩
  | succ m ih =>
    rw [Nat.add_right_comm] at h
    obtain ⟨v, hv, hr⟩ := run_succ_cases h
    obtain ⟨u, hu⟩ := ih hr
    exact ⟨u, (run_succ_next hv).trans hu⟩

/-- The readings after `n` turns: the turns used up and the cycles passed. -/
theorem run_readings {n : Nat} {s t : State} (h : run n s = .next t) :
    t.schedule = s.schedule.drop n ∧ t.cycle = s.cycle + BitVec.ofNat 32 (clock s n) := by
  induction n generalizing s with
  | zero => cases h; simp [clock]
  | succ n ih =>
    obtain ⟨u, hu, hr⟩ := run_succ_cases h
    obtain ⟨h1, h2⟩ := ih hr
    cases hs : s.schedule with
    | nil =>
      rw [step_of_no_turn hs] at hu
      injection hu with hu
      subst hu
      simp [h1, h2, hs, clock]
    | cons turn rest =>
      have hread := step_readings hs hu
      simp only [readings, Prod.mk.injEq] at hread
      simp [h1, h2, hread.1, hread.2.1, clock, hs, BitVec.ofNat_add, BitVec.add_assoc]

theorem clock_zero (s : State) : clock s 0 = 0 := rfl

theorem clock_mono (s : State) {m n : Nat} (h : m ≤ n) : clock s m ≤ clock s n := by
  obtain ⟨k, rfl⟩ := Nat.exists_eq_add_of_le h
  unfold clock
  rw [List.take_add, List.map_append, List.sum_append]
  exact Nat.le_add_right _ _

/-- The clock at the end of turn `n`. -/
theorem clock_succ_of_turn {s u : State} {n : Nat} {t : Turn} (h : TurnAt s n t u) :
    clock s (n + 1) = clock s n + t.elapsed := by
  obtain ⟨v, rest, hv, hs, -⟩ := h
  have hd := (run_readings hv).1
  rw [hs] at hd
  unfold clock
  rw [List.take_add, List.map_append, List.sum_append, ← hd]
  simp

/-- A run ends after its last turn. -/
theorem clock_of_no_turn {s : State} {n : Nat} (h : s.schedule.length ≤ n) : clock s n = clock s s.schedule.length := by
  unfold clock
  rw [List.take_of_length_le h, List.take_length]

/-- Every turn of the schedule is some turn of a run that goes on. -/
theorem turnAt_of_lt {s v : State} {n : Nat} (hv : run n s = .next v) (h : n < s.schedule.length) :
    ∃ t u, TurnAt s n t u := by
  have hd := (run_readings hv).1
  rw [List.drop_eq_getElem_cons h] at hd
  exact ⟨_, _, v, _, hv, hd, rfl⟩

/-- The turn of a number is that of the schedule. -/
theorem TurnAt.getElem {s u : State} {n : Nat} {t : Turn} (h : TurnAt s n t u) : s.schedule[n]? = some t := by
  obtain ⟨v, rest, hv, hs, -⟩ := h
  rw [← List.head?_drop, ← (run_readings hv).1, hs]
  rfl

theorem TurnAt.lt {s u : State} {n : Nat} {t : Turn} (h : TurnAt s n t u) : n < s.schedule.length :=
  (List.getElem?_eq_some_iff.mp h.getElem).1

theorem TurnAt.mem {s u : State} {n : Nat} {t : Turn} (h : TurnAt s n t u) : t ∈ s.schedule :=
  List.mem_of_getElem? h.getElem

/-- A turn is one move of its agent. -/
theorem TurnAt.runMove {s u w : State} {n : Nat} {t : Turn} (h : TurnAt s n t u) (hw : run (n + 1) s = .next w) :
    runMove t.move u = .next w := by
  obtain ⟨v, rest, hv, hs, rfl⟩ := h
  rw [run_add hv] at hw
  obtain ⟨x, hx, hr⟩ := run_succ_cases hw
  rw [run_zero] at hr
  injection hr with hr
  rw [← step_of_turn hs, hx, hr]

/-- A turn finds what the run left, with the turn's readings. -/
theorem TurnAt.found {s u v : State} {n : Nat} {t : Turn} (h : TurnAt s n t u) (hv : run n s = .next v) :
    ∃ rest, u = beginTurn t rest v := by
  obtain ⟨x, rest, hx, -, hu⟩ := h
  rw [hv] at hx
  injection hx with hx
  exact ⟨rest, hx ▸ hu⟩

/-- With no turn left a run stands still. -/
theorem run_of_no_turn {s v : State} {n : Nat} (hv : run n s = .next v) (h : s.schedule.length ≤ n) :
    run (n + 1) s = .next v := by
  have hd := (run_readings hv).1
  rw [List.drop_of_length_le h] at hd
  rw [run_add hv, run_succ_next (step_of_no_turn hd), run_zero]

/-- A run that gets past its last turn is a next state after every number of steps. -/
theorem run_total {s t : State} (ht : run s.schedule.length s = .next t) (n : Nat) : ∃ u, run n s = .next u := by
  rcases Nat.le_total n s.schedule.length with h | h
  · obtain ⟨k, hk⟩ := Nat.exists_eq_add_of_le h
    exact run_prefix (hk ▸ ht)
  · obtain ⟨k, rfl⟩ := Nat.exists_eq_add_of_le h
    clear h
    refine ⟨t, ?_⟩
    induction k with
    | zero => exact ht
    | succ k ih => exact run_of_no_turn ih (Nat.le_add_right _ _)

end Sys2Proof.Machine
end

