-- ==== Sys2Proof/Laws/Reception.lean ====
section
/-! SUPPORT. What a reception claim rests on: the turns that evaluate nothing leave the receiver alone, what one evaluation does to
an open frame, and the times of the transitions of frames. -/

namespace Sys2Proof.Machine

/-! ### The ring's contents -/

theorem filterMap_length_of_some {α : Type} (l : List Nat) (f : Nat → Option α) (h : ∀ i ∈ l, ∃ v, f i = some v) :
    (l.filterMap f).length = l.length := by
  induction l with
  | nil => rfl
  | cons a l ih =>
    obtain ⟨v, hv⟩ := h a (by simp)
    rw [List.filterMap_cons_some hv]
    simp [ih (fun i hi => h i (by simp [hi]))]

/-- `RingCount` counts the bytes held. -/
theorem contents_length {s : State} (h : Inv s) : (contents s).length = ringCount s := by
  unfold contents
  rw [filterMap_length_of_some _ _ (fun i hi => h.held i (by simpa using hi))]
  simp

/-! ### Evaluations -/

/-- In a state that meets the invariant an evaluation completes. -/
theorem evaluate_total {s : State} (h : Inv s) (k : EvalKind) : ∃ t, evaluate k s = .ok t := by
  cases he : evaluate k s with
  | ok t => exact ⟨t, rfl⟩
  | error f => have := evaluate_fault he; have := h.headRange; omega

theorem evaluate_idle_poll {s : State} (hi : s.rxIdx = .idle) : evaluate .poll s = .ok s := by
  simp [evaluate, advancePhase, hi, startPhase]

theorem evaluate_idle_other {s : State} (hi : s.rxIdx = .idle) (hl : s.rxIn ≠ startLevel s.construction.invert) :
    evaluate .edge s = .ok s := by
  simp [evaluate, advancePhase, hi, startPhase, hl]

theorem evaluate_idle_start {s : State} (hi : s.rxIdx = .idle) (hl : s.rxIn = startLevel s.construction.invert) :
    evaluate .edge s = .ok { s with rxRef := s.cycle, rxIdx := .data 0, rxAcc := 0#8 } := by
  simp [evaluate, advancePhase, hi, startPhase, hl]

/-- The next frame's start, after a commit by an edge that reads START_LEVEL. -/
def startsNext (k : EvalKind) (s : State) : Bool := k == .edge && s.rxIn == startLevel s.construction.invert

/-- What one evaluation does to an open frame whose accumulator agrees with `b` below the index, if the level before it is that of
every cell it advances: it keeps agreeing with `b`, and at `Mid(7)` it commits `b` (R105 to R108). -/
theorem evaluate_open {s t : State} {k : EvalKind} {i : Fin 8} {b : Byte} (h : Inv s) (hi : s.rxIdx = .data i)
    (hacc : ∀ n < i.val, s.rxAcc.getLsbD n = b.getLsbD n)
    (hbit : ∀ n, i.val ≤ n → n < 8 → mid s.period.toNat n ≤ elapsedSince s.rxRef s.cycle →
      lineBit s.construction.invert (levelBefore k s.rxIn) = b.getLsbD n)
    (he : evaluate k s = .ok t) :
    (elapsedSince s.rxRef s.cycle < mid s.period.toNat 7 ∧ ∃ j : Fin 8, i ≤ j ∧
      elapsedSince s.rxRef s.cycle < mid s.period.toNat j ∧
      (i < j → mid s.period.toNat (j - 1) ≤ elapsedSince s.rxRef s.cycle) ∧
      (∀ n < j.val, t.rxAcc.getLsbD n = b.getLsbD n) ∧ t = { s with rxIdx := .data j, rxAcc := t.rxAcc }) ∨
    (mid s.period.toNat 7 ≤ elapsedSince s.rxRef s.cycle ∧ ∃ u, commit b s = .ok u ∧
      t = if startsNext k s then { u with rxRef := s.cycle, rxIdx := .data 0, rxAcc := 0#8 }
          else { u with rxIdx := .idle, rxAcc := 0#8 }) := by
  obtain ⟨h1, h2, h3, h4, h5⟩ := advance_spec s.period.toNat (elapsedSince s.rxRef s.cycle)
    (lineBit s.construction.invert (levelBefore k s.rxIn)) (8 - i.val) i.val s.rxAcc
  unfold evaluate advancePhase at he
  simp only [hi] at he
  generalize advance s.period.toNat (elapsedSince s.rxRef s.cycle)
    (lineBit s.construction.invert (levelBefore k s.rxIn)) (8 - i.val) i.val s.rxAcc = r at *
  have hbits : ∀ n < r.1, r.2.getLsbD n = b.getLsbD n := by
    intro n hn
    rw [h5]
    by_cases hin : i.val ≤ n
    · rw [h.accHigh i hi n hin]
      have hn8 : n < 8 := by omega
      rw [hbit n hin hn8 (h3 n hin hn), decide_eq_true hin, decide_eq_true hn, decide_eq_true hn8]
      simp only [Bool.true_and, Bool.false_or]
    · rw [decide_eq_false hin, hacc n (by omega)]
      simp only [Bool.false_and, Bool.or_false]
  have hi8 := i.isLt
  split at he
  · next u hu =>
    injection he with he
    split at hu
    · next hlt =>
      injection hu with hu
      subst hu
      left
      have hnot : startPhase k { s with rxIdx := .data ⟨r.1, hlt⟩, rxAcc := r.2 } =
          { s with rxIdx := .data ⟨r.1, hlt⟩, rxAcc := r.2 } := by simp [startPhase]
      rw [hnot] at he
      subst he
      have hm : mid s.period.toNat r.1 ≤ mid s.period.toNat 7 := by
        unfold mid
        have := Nat.mul_le_mul_right s.period.toNat (show r.1 + 1 ≤ 7 + 1 by omega)
        omega
      have h4' := h4 (by omega)
      refine ⟨by omega, ⟨r.1, hlt⟩, h1, h4', fun hij => h3 _ ?_ ?_, hbits, rfl⟩
      · have : i.val < r.1 := hij
        show i.val ≤ r.1 - 1
        omega
      · have : i.val < r.1 := hij
        show r.1 - 1 < r.1
        omega
    · next hge =>
      have hr : r.1 = 8 := by omega
      have hb : r.2 = b := by
        apply BitVec.eq_of_getLsbD_eq
        intro n hn
        exact hbits n (by omega)
      rw [hb] at hu
      split at hu
      · next w hw =>
        injection hu with hu
        subst hu
        right
        refine ⟨h3 7 (by omega) (by omega), w, hw, ?_⟩
        subst he
        have hf := commit_frame hw
        have h_in : w.rxIn = s.rxIn := by rw [hf]
        have h_con : w.construction = s.construction := by rw [hf]
        have h_cyc : w.cycle = s.cycle := by rw [hf]
        unfold startPhase startsNext
        cases k <;> simp [h_in, h_con, h_cyc]
      · cases hu
  · cases he

/-! ### Turns that evaluate nothing -/

/-- The receiver's part of a state: its attachment, its assembly and the producer's cursor. -/
def receiver (s : State) : (Construction × Platform × Rate × Word) × (Bool × Bool) × (RxIndex × Byte × Word) × Nat :=
  ((s.construction, s.platform, s.baud, s.period), (s.rxValid, s.rxEnabled), (s.rxIdx, s.rxAcc, s.rxRef), s.head)

/-- Every command but `poll`, those that attach or detach reception, and a one-wire `write` leaves the receiver alone and sets no
`overflow` (R56). -/
theorem receiver_exec {i : Instr} {s t : State} (h : exec i s = .next t) (hp : i ≠ .poll)
    (hb : ∀ baud, i ≠ .begin baud) (he : ∀ on, i ≠ .enableRx on) (hl : i ≠ .listen) (hx : i ≠ .endRx)
    (hs : i ≠ .stopListening) (hw : ∀ byte, i = .write byte → s.oneWire = false) :
    receiver t = receiver s ∧ (t.overflow = true → s.overflow = true) := by
  cases i <;> simp only [exec] at h
  case begin baud => exact absurd rfl (hb baud)
  case enableRx on => exact absurd rfl (he on)
  case listen => exact absurd rfl hl
  case endRx => exact absurd rfl hx
  case stopListening => exact absurd rfl hs
  case poll => exact absurd rfl hp
  case setTransmitEnablePin pin =>
    unfold execSetTransmitEnablePin at h
    split at h
    · cases h
    · injection h with h
      subst h
      unfold assignTePin
      dsimp only
      split <;> exact ⟨rfl, id⟩
  case peek =>
    unfold execPeek at h
    split at h
    · injection h with h; subst h; exact ⟨rfl, id⟩
    · cases h
  case read =>
    unfold execRead at h
    split at h
    · next hr =>
      injection h with h
      subst h
      rcases ringPop_cases hr with ⟨-, -, rfl⟩ | ⟨v, -, -, -, rfl⟩ <;> exact ⟨rfl, id⟩
    · cases h
  case write byte =>
    have ho := hw byte rfl
    unfold execWrite at h
    split at h
    · injection h with h
      subst h
      rw [writeSetup_eq]
      simp [receiver, ho]
    · injection h with h; subst h; exact ⟨rfl, id⟩
  case enableTx on =>
    injection h with h
    subst h
    split <;> exact ⟨rfl, id⟩
  case overflow => injection h with h; subst h; exact ⟨rfl, fun hh => by cases hh⟩
  all_goals injection h with h; subst h; exact ⟨rfl, id⟩

/-- The host's turn inside a `write` that is not one-wire leaves the receiver alone (R152). -/
theorem receiver_writeStep {s t : State} (h : takeWriteStep s = .next t) (ho : s.busy = true → s.oneWire = false) :
    receiver t = receiver s ∧ t.overflow = s.overflow := by
  rcases takeWriteStep_cases h with ⟨rfl, -⟩ | ⟨hb, -, -, ⟨-, rfl⟩ | ⟨-, rfl⟩⟩
  · exact ⟨rfl, rfl⟩
  · exact ⟨rfl, rfl⟩
  · rw [writeFinish_eq]
    simp [receiver, ho hb]

/-! ### Runs in which the receiver is not disturbed -/

theorem receiver_poll {s t : State} (h : exec .poll s = .next t) (hg : ¬ (s.rxValid = true ∧ s.rxEnabled = true)) :
    receiver t = receiver s ∧ t.overflow = s.overflow := by
  simp only [exec, execPoll] at h
  rw [if_neg (by simpa using hg)] at h
  injection h with h
  subst h
  exact ⟨rfl, rfl⟩

/-- What a `poll` that evaluates does. -/
theorem poll_evaluates {s t : State} (h : exec .poll s = .next t) (hv : s.rxValid = true) (he : s.rxEnabled = true) :
    ∃ u, evaluate .poll s = .ok u ∧ t = respond 0#32 u := by
  simp only [exec, execPoll, hv, he, Bool.and_self, if_true] at h
  split at h
  · next u hu => injection h with h; exact ⟨u, hu, h.symm⟩
  · cases h

/-- A turn that evaluates nothing leaves the receiver alone. -/
theorem receiver_quiet {s u w : State} {n : Nat} {t : Turn} (hd : Undisturbed s) (ho : u.oneWire = s.oneWire)
    (hi : Inv u) (hen : u.rxEnabled = true) (ht : TurnAt s n t u) (hw : run (n + 1) s = .next w)
    (hne : ¬ EdgeTaken s n) (hnp : ∀ v, ¬ PollTaken s n v) :
    receiver w = receiver u ∧ (w.overflow = true → u.overflow = true) := by
  have hmove := hd t ht.mem
  have hrun := ht.runMove hw
  have hval := hi.attachedValid hen
  rcases runMove_cases hrun with ⟨-, hrun⟩ | ⟨-, -, rfl⟩ | ⟨-, _, -, -, rfl⟩
  case inr.inl | inr.inr => exact ⟨rfl, id⟩
  cases hm : t.move with
  | pass =>
    rw [hm] at hrun
    have hrun : Host.Outcome.next u = .next w := hrun
    injection hrun with hrun
    subst hrun
    exact ⟨rfl, id⟩
  | writeStep =>
    rw [hm] at hrun
    obtain ⟨h1, h2⟩ := receiver_writeStep (show takeWriteStep u = .next w from hrun) (fun hb => by
      cases hone : u.oneWire with
      | false => rfl
      | true => have := (hi.oneWireBusy hb hone).1; simp [hen] at this)
    exact ⟨h1, fun h => h2 ▸ h⟩
  | edge =>
    rw [hm] at hrun
    have hg : u.gateOpen = false := by
      cases hg : u.gateOpen with
      | false => rfl
      | true => exact absurd ⟨t, u, ht, hm, hg⟩ hne
    have hrun : takeEdge u = .next w := hrun
    unfold takeEdge at hrun
    rw [hg] at hrun
    simp only [Bool.false_eq_true, if_false] at hrun
    split at hrun <;> (injection hrun with hrun; subst hrun; exact ⟨rfl, id⟩)
  | deferredEdge => rw [hm] at hmove; exact hmove.elim
  | destroy => rw [hm] at hmove; exact hmove.elim
  | command word =>
    rw [hm] at hmove hrun
    have hrun : presentCommand word u = .next w := hrun
    unfold presentCommand at hrun
    split at hrun
    · cases hrun
    · next hb =>
      split at hrun
      · cases hrun
      · split at hrun
        · next i hdec =>
          have hpoll : i ≠ .poll := by
            rintro rfl
            exact hnp u ⟨t, word, ht, hm, hdec, by simpa using hb, hval, hen⟩
          dsimp only at hmove
          rw [hdec] at hmove
          refine receiver_exec hrun hpoll ?_ ?_ ?_ ?_ ?_ ?_
          · rintro b rfl; exact hmove
          · rintro b rfl; exact hmove
          · rintro rfl; exact hmove
          · rintro rfl; exact hmove
          · rintro rfl; exact hmove
          · rintro b rfl; exact ho.trans hmove
        · cases hrun
        · cases hrun

/-- What an edge event that is taken does. -/
theorem edge_evaluates {s u w : State} {n : Nat} {t : Turn} (ht : TurnAt s n t u) (hw : run (n + 1) s = .next w)
    (hm : t.move = .edge) (hg : u.gateOpen = true) : evaluate .edge u = .ok w := by
  rcases runMove_cases (hm ▸ ht.runMove hw) with ⟨-, hrun⟩ | ⟨-, h, -⟩ | ⟨-, _, h, -⟩
  case inr.inl | inr.inr => cases h
  have hrun : takeEdge u = .next w := hrun
  unfold takeEdge at hrun
  rw [hg] at hrun
  exact outcomeOf_next hrun

/-- The turn and the state of a turn's number are one. -/
theorem TurnAt.unique {s u u' : State} {n : Nat} {t t' : Turn} (h : TurnAt s n t u) (h' : TurnAt s n t' u') :
    t = t' ∧ u = u' := by
  obtain ⟨v, r, h1, h2, h3⟩ := h
  obtain ⟨v', r', h1', h2', h3'⟩ := h'
  rw [h1] at h1'
  injection h1' with h1'
  subst h1'
  rw [h2] at h2'
  injection h2' with h2' h2''
  subst h2' h2''
  exact ⟨rfl, h3.trans h3'.symm⟩

/-- What a `poll` that evaluates does to the run. -/
theorem pollTaken_evaluates {s u w : State} {n : Nat} (hp : PollTaken s n u) (hw : run (n + 1) s = .next w) :
    ∃ v, evaluate .poll u = .ok v ∧ w = respond 0#32 v := by
  obtain ⟨t, word, ht, hm, hdec, hb, hv, he⟩ := hp
  rcases runMove_cases (hm ▸ ht.runMove hw) with ⟨-, hrun⟩ | ⟨-, h, -⟩ | ⟨-, _, h, hd, -⟩
  case inr.inl => cases h
  case inr.inr =>
    injection h with h
    rw [← h, hdec] at hd
    cases hd
  have hrun : presentCommand word u = .next w := hrun
  unfold presentCommand at hrun
  rw [hb] at hrun
  simp only [Bool.false_eq_true, if_false] at hrun
  split at hrun
  · cases hrun
  · rw [hdec] at hrun
    exact poll_evaluates hrun hv he

/-- In an undisturbed run the receiver stays attached, and the construction, the platform, the rate and the period stay. -/
theorem undisturbed_static {s : State} (hd : Undisturbed s) (hen : s.rxEnabled = true)
    (hinv : ∀ n u, run n s = .next u → Inv u) :
    ∀ n u, run n s = .next u → u.rxEnabled = true ∧ u.construction = s.construction ∧ u.platform = s.platform ∧
      u.baud = s.baud ∧ u.period = s.period := by
  intro n
  induction n with
  | zero => intro u h; cases h; exact ⟨hen, rfl, rfl, rfl, rfl⟩
  | succ n ih =>
    intro w hw
    obtain ⟨v, hv⟩ := run_prefix hw
    obtain ⟨h1, h2, h3, h4, h5⟩ := ih v hv
    by_cases hlt : n < s.schedule.length
    · obtain ⟨t, u, ht⟩ := turnAt_of_lt hv hlt
      obtain ⟨rest, hu⟩ := ht.found hv
      have hiu : Inv u := hu ▸ (hinv n v hv).beginTurn t rest
      have hue : u.rxEnabled = true := by rw [hu]; exact h1
      have huc : u.construction = s.construction := by rw [hu]; exact h2
      have hup : u.platform = s.platform := by rw [hu]; exact h3
      have hub : u.baud = s.baud := by rw [hu]; exact h4
      have hur : u.period = s.period := by rw [hu]; exact h5
      by_cases hedge : EdgeTaken s n
      · obtain ⟨t', u', ht', hm, hg⟩ := hedge
        obtain ⟨rfl, rfl⟩ := ht.unique ht'
        have he := evaluate_frame (edge_evaluates ht hw hm hg)
        rw [he]
        exact ⟨hue, huc, hup, hub, hur⟩
      · by_cases hpoll : ∃ x, PollTaken s n x
        · obtain ⟨x, hx⟩ := hpoll
          obtain ⟨y, hy, rfl⟩ := pollTaken_evaluates hx hw
          obtain ⟨t', word, ht', -⟩ := hx
          obtain ⟨rfl, rfl⟩ := ht.unique ht'
          have he := evaluate_frame hy
          rw [he]
          exact ⟨hue, huc, hup, hub, hur⟩
        · have ho : u.oneWire = s.oneWire := by unfold State.oneWire; rw [huc]
          have hq := (receiver_quiet hd ho hiu hue ht hw hedge (fun v hv => hpoll ⟨v, hv⟩)).1
          simp only [receiver, Prod.mk.injEq] at hq
          obtain ⟨⟨q1, q2, q3, q4⟩, ⟨q5, q6⟩, -, -⟩ := hq
          exact ⟨q6.trans hue, q1.trans huc, q2.trans hup, q3.trans hub, q4.trans hur⟩
    · rw [run_of_no_turn hv (by omega)] at hw
      injection hw with hw
      subst hw
      exact ⟨h1, h2, h3, h4, h5⟩

/-! ### The times of transitions -/

theorem mem_transitionsOf {frames : List SentFrame} {period : Nat} {invert : Bool} {a : Transition} :
    a ∈ transitionsOf frames period invert ↔
      ∃ f ∈ frames, ∃ k < 10, f.changesAt invert k = true ∧ a = (f.boundary period k, cellLevel invert f.byte k) := by
  simp only [transitionsOf, SentFrame.transitions, List.mem_flatMap, List.mem_map, List.mem_filter, List.mem_range]
  constructor
  · rintro ⟨f, hf, k, ⟨hk, hc⟩, rfl⟩
    exact ⟨f, hf, k, hk, hc, rfl⟩
  · rintro ⟨f, hf, k, hk, hc, rfl⟩
    exact ⟨f, hf, k, ⟨hk, hc⟩, rfl⟩

/-- Frames sent one after the other are in the order of their starts, and a start names its frame. -/
theorem framesApart_order {frames : List SentFrame} {period : Nat} (h : FramesApart frames period)
    {f g : SentFrame} (hf : f ∈ frames) (hg : g ∈ frames) :
    f = g ∨ f.boundary period 10 ≤ g.start ∨ g.boundary period 10 ≤ f.start := by
  induction frames with
  | nil => cases hf
  | cons a l ih =>
    obtain ⟨h1, h2⟩ := List.pairwise_cons.mp h
    rcases List.mem_cons.mp hf with rfl | hf
    · rcases List.mem_cons.mp hg with rfl | hg
      · exact .inl rfl
      · exact .inr (.inl (h1 g hg))
    · rcases List.mem_cons.mp hg with hga | hg
      · exact .inr (.inr (hga ▸ h1 f hf))
      · exact ih h2 hf hg

/-- A boundary passes the pin at its time or up to the bound later (R250). -/
theorem boundary_range {frames : List SentFrame} {bound period : Nat} (h : TxAccurate bound frames) {f : SentFrame}
    (hf : f ∈ frames) {k : Nat} (hk : k ≤ 10) :
    f.start + k * period ≤ f.boundary period k ∧ f.boundary period k ≤ f.start + k * period + bound := by
  have := (h f hf).2 k hk
  unfold SentFrame.boundary
  omega

/-- The boundaries of one frame are at least a period less the bound apart. -/
theorem boundary_apart {frames : List SentFrame} {bound : Nat} (h : TxAccurate bound frames) (period : Nat)
    {f : SentFrame} (hf : f ∈ frames) {k q : Nat} (hkq : k < q) (hq : q ≤ 10) :
    f.boundary period k + period ≤ f.boundary period q + bound := by
  have h1 := boundary_range h hf (period := period) (show k ≤ 10 by omega)
  have h2 := boundary_range h hf (period := period) hq
  have h3 := Nat.mul_le_mul_right period (show k + 1 ≤ q by omega)
  rw [Nat.add_mul, Nat.one_mul] at h3
  omega

/-- So are any two transitions of frames sent one after the other, under the timing premise. -/
theorem transitions_apart {frames : List SentFrame} {driftBound latencyBound period : Nat}
    (ht : TxAccurate driftBound frames) (hr : RxTiming driftBound latencyBound period)
    (ha : FramesApart frames period) {f g : SentFrame} (hf : f ∈ frames) (hg : g ∈ frames) {k q : Nat} (hk : k < 10)
    (hq : q < 10) (h : f.boundary period k < g.boundary period q) :
    f.boundary period k + period ≤ g.boundary period q + driftBound := by
  have hr : driftBound + latencyBound < period / 2 := hr
  rcases framesApart_order ha hf hg with rfl | h1 | h1
  · rcases Nat.lt_or_ge k q with hkq | hkq
    · exact boundary_apart ht period hf hkq (by omega)
    · rcases Nat.eq_or_lt_of_le hkq with rfl | hlt
      · omega
      · have := boundary_apart ht period hf hlt (by omega)
        omega
  · have := boundary_apart ht period hf (k := k) (q := 10) (by omega) (by omega)
    have := boundary_range ht hg (period := period) (show q ≤ 10 by omega)
    omega
  · have := boundary_apart ht period hg (k := q) (q := 10) (by omega) (by omega)
    have := boundary_range ht hf (period := period) (show k ≤ 10 by omega)
    omega

/-- Where the level does not change at the boundaries after `m` up to `n`, the cells `m` and `n` have one level. -/
theorem cellLevel_const {f : SentFrame} {invert : Bool} {m n : Nat} (hmn : m ≤ n)
    (h : ∀ k, m < k → k ≤ n → f.changesAt invert k = false) :
    cellLevel invert f.byte n = cellLevel invert f.byte m := by
  induction n with
  | zero => rw [Nat.le_zero.mp hmn]
  | succ n ih =>
    rcases Nat.eq_or_lt_of_le hmn with rfl | hlt
    · rfl
    · have hc := h (n + 1) hlt (Nat.le_refl _)
      simp only [SentFrame.changesAt, Bool.or_eq_false_iff, bne_eq_false_iff_eq] at hc
      rw [hc.2]
      exact ih (by omega) (fun k h1 h2 => h k h1 (by omega))

/-- A data bit from the level of its cell (R142, R106). -/
theorem lineBit_cellLevel (invert : Bool) (b : Byte) {n : Nat} (h : n < 8) :
    lineBit invert (cellLevel invert b (n + 1)) = b.getLsbD n := by
  unfold lineBit cellLevel
  rw [if_neg (by omega), if_pos (by omega), Nat.add_sub_cancel, Bool.xor_assoc, Bool.xor_self, Bool.xor_false]

end Sys2Proof.Machine
end

