-- ==== Sys2Proof/Tests/Slice0.lean ====
section
/-! SUPPORT. Tests: one step each on small states, with the results 95_test_vectors.md or a rule gives (named at
each), the well-formedness smoke tests, and for every obligation with hypotheses a witness that meets them. -/

namespace Sys2Proof.Tests

open Sys2Proof.Machine

/-! ### Helpers -/

/-- The next state of an outcome. -/
def nextOf : Host.Outcome State Fault Refusal → Option State
  | .next s => some s
  | .fault _ | .refused _ => none

/-- The refusal of an outcome. -/
def refusalOf : Host.Outcome State Fault Refusal → Option Refusal
  | .refused r => some r
  | .next _ | .fault _ => none

/-- The fault of an outcome. -/
def faultOf : Host.Outcome State Fault Refusal → Option Fault
  | .fault f => some f
  | .next _ | .refused _ => none

/-- The response a command gives. -/
def answer (i : Instr) (s : State) : Option Word := (nextOf (exec i s)).map (·.resp)

/-- One field after a command. -/
def after {α : Type} (i : Instr) (s : State) (f : State → α) : Option α := (nextOf (exec i s)).map f

/-- The state after an evaluation at counter value `t` that reads `level`. -/
def evaluated (k : EvalKind) (t : Word) (level : Bool) (s : State) : Option State :=
  (evaluate k { s with cycle := t, rxIn := level }).toOption

/-- The receiver's fields, for comparing. -/
def rx (s : State) : RxIndex × Byte × Word := (s.rxIdx, s.rxAcc, s.rxRef)

/-- Pins (4, 5), 9600 baud at 80 MHz, after `begin` (V-LC1). -/
def begun : State := beginWith 9600#24 8333#32 State.reset

/-- `begun` with a frame open since counter value 1000, no bit received yet. -/
def framed : State := { begun with rxRef := 1000#32, rxIdx := .data 0 }

/-- `begun` with the ring 0x41, 0x42 (V-RX13). -/
def twoHeld : State := { begun with head := 2, buf := [(0, 0x41#8), (1, 0x42#8)] }

/-- A ring of CAP = 4, empty, after `begin`. -/
def small : State := { begun with construction := { Construction.scenario with cap := 4 } }

/-- V-MEM1 after three commits: a full ring of CAP = 4. -/
def full : State := { small with head := 3, buf := [(0, 0x61#8), (1, 0x62#8), (2, 0x63#8)] }

/-- One-wire on pin 2, TE on pin 3, 115200 baud (program 3). -/
def oneWire : State :=
  beginWith 115200#24 694#32
    (assignTePin 3#8 (State.initial Platform.vectors { rxPin := 2#8, txPin := 2#8 }))

/-- `write 0x41` at counter value 1000, its W0 done (V-TX1). -/
def writing : State := writeSetup 0x41#8 { begun with cycle := 1000#32 }

/-- The same with interrupts suspended (V-TX7). -/
def suspended : State := writeSetup 0x41#8 { begun with cycle := 1000#32, intTxEnabled := false }

/-- `s` with one turn to come. -/
def turn (s : State) (elapsed : Nat) (level : Bool) (m : Move) : State :=
  { s with schedule := [{ elapsed := elapsed, level := level, masked := false, move := m }] }

/-- The part of the invariant that a computation decides. -/
abbrev Plain (s : State) : Prop :=
  (1 ≤ s.construction.cap ∧ s.construction.cap ≤ 65536 ∧ s.head < s.construction.cap ∧
    s.tail < s.construction.cap ∧ Memory.wf s.buf ∧ (∀ c ∈ s.buf, c.1 < s.construction.cap) ∧ s.rxAcc = 0#8) ∧
  (∀ i < ringCount s, (s.buf.read ((s.tail + i) % s.construction.cap)).isSome = true) ∧
  ((s.rxIdx ≠ .idle → s.rxEnabled = true) ∧ (s.rxEnabled = true → s.rxValid = true) ∧
    ((s.baud = 0#24 ∧ s.period = 0#32 ∧ s.rxValid = false ∧ s.txValid = false) ∨
      (s.baud ≠ 0#24 ∧ s.platform.fClk / s.baud.toNat ≠ 0 ∧ 10 * (s.platform.fClk / s.baud.toNat) < 2 ^ 32 ∧
        s.period = BitVec.ofNat 32 (s.platform.fClk / s.baud.toNat) ∧
        s.rxValid = s.rxPinValid ∧ s.txValid = s.txPinValid)) ∧
    s.teValid = pinValid s.platform.validTx s.tePin ∧ s.teClash s.tePin = false) ∧
  (s.intSuspend = (s.busy && s.txSave.suspended) ∧ s.txPos ≤ 10 ∧ (s.busy = true → 1 ≤ s.txPos) ∧
    (s.busy = true → s.txValid = true) ∧
    (s.busy = true → s.oneWire = true →
      s.rxEnabled = false ∧ s.lineOut = true ∧ (s.txSave.rx = true → s.rxValid = true)) ∧
    (s.refusal ≠ none → s.busy = false) ∧ (s.destroyed = true → s.busy = false ∧ s.rxEnabled = false))

theorem inv_of_plain {s : State} (h : Plain s) : Inv s := by
  obtain ⟨⟨c1, c2, hh, ht, hm, hc, ha⟩, hk, ⟨f1, f2, f3, f4, f5⟩, g1, g2, g3, g4, g5, g6, g7⟩ := h
  refine ⟨⟨c1, c2⟩, hh, ht, hm, hc, fun i hi => Option.isSome_iff_exists.mp (hk i hi), fun _ => ha,
    fun _ _ _ _ => by simp [ha], f1, f2, ?_, f4, f5, g1, g2, g3, g4, g5, g6, g7⟩
  refine f3.imp id fun ⟨b0, b1, b2, b3, b4⟩ => ⟨?_, b4⟩
  unfold periodOf
  rw [if_neg b0]
  dsimp only
  rw [if_neg b1, if_neg (by omega), b3]

theorem reset_inv : Inv State.reset := inv_of_plain (by decide)
theorem begun_inv : Inv begun := inv_of_plain (by decide)
theorem framed_inv : Inv framed := inv_of_plain (by decide)
theorem twoHeld_inv : Inv twoHeld := inv_of_plain (by decide)
theorem small_inv : Inv small := inv_of_plain (by decide)
theorem full_inv : Inv full := inv_of_plain (by decide)
theorem oneWire_inv : Inv oneWire := inv_of_plain (by decide)
theorem writing_inv : Inv writing := inv_of_plain (by decide)
theorem suspended_inv : Inv suspended := inv_of_plain (by decide)

/-! ### Well-formedness: one ill-formed term for each check -/

/-- R71: eight bits admit 255 and not 256. -/
theorem test_wf_write_256 : SourceCommand.wellFormed ⟨.write, some 256⟩ = false := by decide
theorem test_wf_write_255 : SourceCommand.wellFormed ⟨.write, some 255⟩ = true := by decide
theorem test_wf_pin_256 : SourceCommand.wellFormed ⟨.setTransmitEnablePin, some 256⟩ = false := by decide
theorem test_wf_bool_2 : SourceCommand.wellFormed ⟨.enableRx, some 2⟩ = false := by decide
theorem test_wf_rate_2_24 : SourceCommand.wellFormed ⟨.begin, some 16777216⟩ = false := by decide
theorem test_wf_handler_2_24 : SourceCommand.wellFormed ⟨.onReceive, some 16777216⟩ = false := by decide
theorem test_wf_no_operand_wanted : SourceCommand.wellFormed ⟨.poll, some 0⟩ = false := by decide
theorem test_wf_operand_missing :
    SourceCommand.wellFormed ⟨.write, none⟩ = false ∧ SourceCommand.wellFormed ⟨.enableTx, none⟩ = false ∧
    SourceCommand.wellFormed ⟨.setTransmitEnablePin, none⟩ = false ∧ SourceCommand.wellFormed ⟨.begin, none⟩ = false ∧
    SourceCommand.wellFormed ⟨.onReceive, none⟩ = false := by decide
theorem test_wf_bytes_empty : SourceLine.wellFormed (.writeBytes []) = false := by decide
theorem test_wf_bytes_256 : SourceLine.wellFormed (.writeBytes [65, 256]) = false := by decide
theorem test_wf_string_code_256 : SourceLine.wellFormed (.writeString [65, 256]) = false := by decide
theorem test_wf_line_command : SourceLine.wellFormed (.command ⟨.write, some 256⟩) = false := by decide
/-- R9. -/
theorem test_wf_cap : ({ Construction.scenario with cap := 0 } : Construction).wellFormed = false ∧
    ({ Construction.scenario with cap := 65537 } : Construction).wellFormed = false ∧
    ({ Construction.scenario with cap := 65536 } : Construction).wellFormed = true := by decide
/-- R11. -/
theorem test_wf_clock : ({ Platform.vectors with fClk := 0 } : Platform).wellFormed = false ∧
    ({ Platform.vectors with fClk := 4294967296 } : Platform).wellFormed = false ∧
    Platform.vectors.wellFormed = true := by decide
/-- R12. -/
theorem test_wf_none_pin : ({ Platform.vectors with validRx := [noPin] } : Platform).wellFormed = false ∧
    ({ Platform.vectors with validTx := [noPin] } : Platform).wellFormed = false := by decide

/-! ### Decoding: words written out from R73 and V-ENC1 -/

/-- V-ENC1, the commands with an operand. -/
theorem test_decode_operands :
    decode 0x0100012C#32 = .ok (.begin 300#24) ∧ decode 0x0101C200#32 = .ok (.begin 115200#24) ∧
    decode 0x03000003#32 = .ok (.setTransmitEnablePin 3#8) ∧
    decode 0x04000000#32 = .ok (.enableIntTx false) ∧ decode 0x04000001#32 = .ok (.enableIntTx true) ∧
    decode 0x09000041#32 = .ok (.write 0x41#8) ∧ decode 0x090000FF#32 = .ok (.write 0xFF#8) ∧
    decode 0x0B000000#32 = .ok (.enableRx false) ∧ decode 0x0B000001#32 = .ok (.enableRx true) ∧
    decode 0x0C000000#32 = .ok (.enableTx false) ∧ decode 0x0C000001#32 = .ok (.enableTx true) ∧
    decode 0x0E000007#32 = .ok (.onReceive 7#24) := by decide

/-- V-ENC1, the commands of format N. -/
theorem test_decode_no_operand :
    decode 0x02000000#32 = .ok .baudRate ∧ decode 0x05000000#32 = .ok .available ∧
    decode 0x06000000#32 = .ok .peek ∧ decode 0x07000000#32 = .ok .read ∧ decode 0x08000000#32 = .ok .flush ∧
    decode 0x0A000000#32 = .ok .valid ∧ decode 0x0D000000#32 = .ok .overflow ∧
    decode 0x0F000000#32 = .ok .listen ∧ decode 0x10000000#32 = .ok .endRx ∧
    decode 0x11000000#32 = .ok .isListening ∧ decode 0x12000000#32 = .ok .stopListening ∧
    decode 0x13000000#32 = .ok .poll := by decide

/-- V-ENC2. -/
theorem test_decode_corners :
    decode 0x00000000#32 = .error .reservedOpcode ∧ decode 0x14000000#32 = .error .reservedOpcode ∧
    decode 0xFF000000#32 = .error .reservedOpcode ∧ decode 0x05000001#32 = .error .reservedBits ∧
    decode 0x0B000002#32 = .error .reservedBits ∧ decode 0x09000100#32 = .error .reservedBits ∧
    decode 0x030001FF#32 = .error .reservedBits ∧ decode 0x01FFFFFF#32 = .ok (.begin 16777215#24) ∧
    decode 0x0EFFFFFF#32 = .ok (.onReceive 16777215#24) := by decide

/-- V-ENC1, the other way. -/
theorem test_encode :
    encode (.begin 57600#24) = 0x0100E100#32 ∧ encode (.setTransmitEnablePin noPin) = 0x030000FF#32 ∧
    encode (.write 0x41#8) = 0x09000041#32 ∧ encode (.enableTx true) = 0x0C000001#32 ∧
    encode (.onReceive 0#24) = 0x0E000000#32 ∧ encode .poll = 0x13000000#32 := by decide

/-- spec/opcode_table.json's numbering: the word as it stands. -/
theorem test_decodeTableWord :
    decodeTableWord 32 0x09000041 = some (.write 0x41#8) ∧ decodeTableWord 32 0x14000000 = none := by decide

/-- The host's next command runs as the first one after reset (program 1). -/
theorem test_withFetchWord :
    (nextOf (step (State.reset.withFetchWord 32 0x01002580))).map (fun s => (s.period, s.rxEnabled, s.resp)) =
      some (8333#32, true, 0#32) := by decide

/-- R82, R83 and the lines they rule out. -/
theorem test_assembler_lines :
    Assembler.assembleLine "begin 9600  # rate" = some [0x01002580#32] ∧
    Assembler.assembleLine "end" = some [0x10000000#32] ∧
    Assembler.assembleLine "writeBytes 1, 0x10,'A'" = some [0x09000001#32, 0x09000010#32, 0x09000041#32] ∧
    Assembler.assembleLine "poll 1" = none := by decide
theorem test_assembler_range :
    Assembler.assembleLine "write 256" = none ∧ Assembler.assembleLine "setTransmitEnablePin 255" = none ∧
    Assembler.assembleLine "" = some [] := by decide

/-! ### The converter (V-TM1 to V-TM3) -/

theorem test_period :
    periodOf 80000000 300#24 = .ok 266666#32 ∧ periodOf 80000000 57600#24 = .ok 1388#32 ∧
    periodOf 80000000 16777215#24 = .ok 4#32 ∧ periodOf 160000000 9600#24 = .ok 16666#32 := by decide
theorem test_period_bounds :
    periodOf 80000000 0#24 = .error .zeroBaud ∧ periodOf 1000000 1000000#24 = .ok 1#32 ∧
    periodOf 1000000 1000001#24 = .error .periodZero ∧ periodOf 500000000 1#24 = .error .frameTooLong ∧
    periodOf 500000000 2#24 = .ok 250000000#32 := by decide
/-- V-LC1. -/
theorem test_begin :
    after (.begin 9600#24) State.reset (fun s => (s.baud, s.period, s.rxValid, s.txValid, s.rxEnabled, s.txLevel)) =
      some (9600#24, 8333#32, true, true, true, true) := by decide
/-- V-TM3: refused, with no response (R92). -/
theorem test_begin_refused : after (.begin 0#24) begun (fun s => (s.refusal, s.baud, s.outputs)) =
    some (some .badBaud, 9600#24, begun.outputs) := by decide
/-- R91: `baudRate` after it, and nothing else. -/
theorem test_refused_begin_baudRate :
    (nextOf (step (turn { begun with refusal := some .badBaud } 1 true (.command 0x02000000#32)))).map
      (fun s => (s.resp, s.refusal)) = some (9600#32, some .badBaud) ∧
    refusalOf (step (turn { begun with refusal := some .badBaud } 1 true (.command 0x05000000#32))) = some .badBaud ∧
    refusalOf (step (turn { begun with refusal := some .badBaud } 1 false .edge)) = some .badBaud := by decide
/-- V-TM2. -/
theorem test_baudRate : answer .baudRate State.reset = some 0#32 ∧ answer .baudRate begun = some 9600#32 := by decide

/-! ### The ring and the read surface -/

/-- V-RX13, V-MEM4. -/
theorem test_available : answer .available twoHeld = some 2#32 ∧
    ringCount { begun with construction := { Construction.scenario with cap := 8 }, head := 2, tail := 6 } = 4 := by
  decide
/-- V-RX13, R122. -/
theorem test_peek : answer .peek twoHeld = some 0x41#32 ∧ answer .peek begun = some 0xFFFFFFFF#32 := by decide
/-- V-MEM1. -/
theorem test_read : after .read full (fun s => (s.resp, s.tail)) = some (0x61#32, 1) := by decide
/-- V-ENC3. -/
theorem test_read_ff : answer .read { begun with head := 1, buf := [(0, 0xFF#8)] } = some 0x000000FF#32 ∧
    answer .read begun = some 0xFFFFFFFF#32 := by decide
/-- V-MEM3. -/
theorem test_flush : after .flush { twoHeld with overflow := true } (fun s => (s.resp, ringCount s, s.overflow)) =
    some (0#32, 0, true) := by decide
/-- V-RX14. -/
theorem test_overflow : after .overflow { begun with overflow := true } (fun s => (s.resp, s.overflow)) =
    some (1#32, false) := by decide
/-- V-MEM1: 'd' goes to cell 3 and the head wraps; then 'e' is dropped. -/
theorem test_push_wraps :
    (ringPush 0x64#8 { full with tail := 1 }).toOption.map (fun r => (r.1, r.2.head, r.2.buf.read 3)) =
      some (true, 0, some 0x64#8) ∧
    (ringPush 0x65#8 { full with tail := 1, head := 0 }).toOption.map (fun r => (r.1, r.2.overflow)) =
      some (false, true) := by decide
/-- V-MEM2: with CAP = 1 every commit is dropped. -/
theorem test_push_cap_1 :
    (ringPush 0x61#8 { begun with construction := { Construction.scenario with cap := 1 } }).toOption.map
      (fun r => (r.1, r.2.overflow, ringCount r.2)) = some (false, true, 0) := by decide

/-! ### The receiver (V-RX1 to V-RX12) -/

/-- V-RX1, rows 1 and 2. -/
theorem test_edge_start :
    (evaluated .edge 1000#32 false begun).map rx = some (.data 0, 0x00#8, 1000#32) ∧
    (evaluated .edge 9333#32 true framed).map rx = some (.data 0, 0x00#8, 1000#32) := by decide
/-- V-RX1, rows 3 to 5. -/
theorem test_edge_bits :
    (evaluated .edge 17666#32 false framed).map rx = some (.data 1, 0x01#8, 1000#32) ∧
    (evaluated .edge 59331#32 true { framed with rxIdx := .data 1, rxAcc := 0x01#8 }).map rx =
      some (.data 6, 0x01#8, 1000#32) ∧
    (evaluated .edge 67664#32 false { framed with rxIdx := .data 6, rxAcc := 0x01#8 }).map rx =
      some (.data 7, 0x41#8, 1000#32) := by decide
/-- V-RX1, row 6. -/
theorem test_edge_commits :
    (evaluated .edge 75997#32 true { framed with rxIdx := .data 7, rxAcc := 0x41#8 }).map
      (fun s => (rx s, ringCount s, s.buf)) = some ((.idle, 0x00#8, 1000#32), 1, [(0, 0x41#8)]) := by decide
/-- V-RX2, first and third row: inverse logic. -/
theorem test_edge_inverted :
    (evaluated .edge 1000#32 true
      { begun with construction := { Construction.scenario with invert := true } }).map rx =
        some (.data 0, 0x00#8, 1000#32) ∧
    (evaluated .edge 17666#32 true
      { framed with construction := { Construction.scenario with invert := true } }).map rx =
        some (.data 1, 0x01#8, 1000#32) := by decide
/-- V-RX3: 0xFF needs polls. -/
theorem test_poll :
    (evaluated .poll 71829#32 true framed).map rx = some (.data 7, 0x7F#8, 1000#32) ∧
    (evaluated .poll 71830#32 true framed).map (fun s => (s.rxIdx, s.buf)) = some (.idle, [(0, 0xFF#8)]) := by decide
/-- V-RX7: the sample boundary, through the command. -/
theorem test_poll_boundary :
    after .poll { framed with cycle := 13498#32 } rx = some (.data 0, 0x00#8, 1000#32) ∧
    after .poll { framed with cycle := 13499#32 } rx = some (.data 1, 0x00#8, 1000#32) := by decide
/-- V-RX9: counter wrap. -/
theorem test_poll_wrap :
    (evaluated .poll 0x00001000#32 true { framed with rxRef := 0xFFFFF000#32 }).map rx =
      some (.data 0, 0x00#8, 0xFFFFF000#32) ∧
    (evaluated .poll 0x00001000#32 true { framed with rxRef := 0xFFFFF000#32, period := 4166#32 }).map rx =
      some (.data 1, 0x01#8, 0xFFFFF000#32) := by decide
/-- V-RX11: the stop cell at START_LEVEL opens a bogus frame. -/
theorem test_edge_bogus_frame :
    (evaluated .edge 75997#32 false { framed with rxIdx := .data 7 }).map (fun s => (rx s, s.buf)) =
      some ((.data 0, 0x00#8, 75997#32), [(0, 0x80#8)]) := by decide
/-- V-RX12: the gates. -/
theorem test_gates :
    (nextOf (step (turn { framed with rxEnabled := false } 90000 true .edge))).map rx = some (rx framed) ∧
    after .poll { framed with rxEnabled := false, cycle := 90000#32 } rx = some (rx framed) := by decide
/-- R104: an edge during a suspension is latched, and delivered after it. -/
theorem test_latched_edge :
    (nextOf (step (turn suspended 500 false .edge))).map (fun s => (s.edgeLatch, s.rxIdx)) = some (true, .idle) ∧
    (nextOf (step (turn { begun with edgeLatch := true } 500 false .deferredEdge))).map
      (fun s => (s.edgeLatch, s.rxIdx)) = some (false, .data 0) := by decide

/-! ### The transmitter (V-TX1 to V-TX8) -/

/-- V-TX1: the start bit, then cell 1 at its deadline and not a cycle earlier. -/
theorem test_write_cells :
    (writing.txLevel, writing.busy, writing.txPos) = (false, true, 1) ∧
    (nextOf (step (turn writing 8333 true .writeStep))).map (fun s => (s.txLevel, s.txPos)) = some (true, 2) ∧
    (nextOf (step (turn writing 8332 true .writeStep))).map (fun s => (s.txLevel, s.txPos)) = some (false, 1) := by
  decide
/-- V-TX1, V-TX7: W10. -/
theorem test_write_finish :
    (nextOf (step (turn { suspended with txPos := 10 } 83330 true .writeStep))).map
      (fun s => (s.busy, s.resp, s.intSuspend, s.outputs.drop 4)) =
      some (false, 1#32, false, [.suspend false 84330#32, .response 1#32]) := by decide
/-- V-TX8 and program 3. -/
theorem test_write_one_wire :
    after (.write 0x55#8) { oneWire with cycle := 5000#32 }
      (fun s => (s.rxEnabled, s.lineOut, s.txSave, s.outputs.drop 4)) =
      some (false, true, ⟨true, false, false⟩, [.drive 3#8 true 5000#32, .drive 2#8 false 5000#32]) := by decide
/-- V-TX6. -/
theorem test_write_not_valid :
    after (.write 0x41#8) State.reset (fun s => (s.resp, s.busy, s.outputs)) =
      some (0#32, false, [.response 0#32]) := by decide
/-- V-TX7 with J = 0: the platform keeps every cell on time (log 6). -/
theorem test_jitter_bound : faultOf (step (turn suspended 8334 true .writeStep)) = some .jitterExceeded ∧
    (nextOf (step (turn writing 8833 true .writeStep))).map (·.txPos) = some 2 := by decide
/-- Program 3, line 2. -/
theorem test_enableIntTx : after (.enableIntTx false) State.reset (fun s => (s.intTxEnabled, s.resp)) =
    some (false, 0#32) := by decide

/-! ### Notification, lifecycle and control -/

/-- V-NT3. -/
theorem test_onReceive : after (.onReceive 9#24) { begun with handler := 7#24 } (·.handler) = some 9#24 := by decide
/-- V-NT4: the notification of 0xFF stands before the start of the next frame. -/
theorem test_notify :
    (evaluated .edge 84330#32 false { framed with handler := 7#24 }).map (fun s => (rx s, s.outputs.drop 2)) =
      some ((.data 0, 0x00#8, 84330#32), [.notify 7#24 1#32]) := by decide
/-- V-NT2. -/
theorem test_no_notify_when_full :
    (commit 0x64#8 { full with handler := 7#24 }).toOption.map (fun s => (s.overflow, s.outputs)) =
      some (true, full.outputs) := by decide
/-- V-LC4, V-TX5. -/
theorem test_setTransmitEnablePin :
    refusalOf (exec (.setTransmitEnablePin 4#8) begun) = some .tePinClash ∧
    after (.setTransmitEnablePin 3#8) State.reset (fun s => (s.tePin, s.teValid, s.outputs)) =
      some (3#8, true, [.drive 3#8 false 0#32, .response 0#32]) := by decide
theorem test_setTransmitEnablePin_none :
    after (.setTransmitEnablePin noPin) oneWire (fun s => (s.tePin, s.teValid, s.resp)) =
      some (noPin, false, 0#32) := by decide
/-- V-LC5. -/
theorem test_valid : answer .valid State.reset = some 0#32 ∧ answer .valid { begun with rxValid := false } = some 1#32 := by
  decide
/-- V-RX15, V-LC2. -/
theorem test_enableRx :
    after (.enableRx false) { framed with rxIdx := .data 4, rxAcc := 0x0F#8 } (fun s => (rx s, s.rxEnabled)) =
      some ((.idle, 0#8, 1000#32), false) ∧
    after (.enableRx true) { begun with rxValid := false, rxEnabled := false } (·.rxEnabled) = some false := by decide
/-- V-LC3, R185. -/
theorem test_enableTx : after (.enableTx true) begun (·.lineOut) = some false ∧
    after (.enableTx true) oneWire (·.lineOut) = some true := by decide
/-- V-LC6. -/
theorem test_stopListening : after .stopListening begun (·.rxEnabled) = some false := by decide
theorem test_listen : after .listen { begun with rxEnabled := false } (·.rxEnabled) = some true := by decide
theorem test_end : after .endRx twoHeld (fun s => (s.rxEnabled, ringCount s)) = some (false, 2) := by decide
theorem test_isListening : answer .isListening begun = some 1#32 ∧ answer .isListening State.reset = some 0#32 := by
  decide

/-! ### Refusals (V-EX1 to V-EX4) and destruction -/

theorem test_construction_refused :
    refusalOf (construct Platform.vectors { Construction.scenario with cap := 0 }) = some .badConstruction ∧
    refusalOf (construct { Platform.vectors with pinsInUse := [4#8] } Construction.scenario) = some .sharedPin ∧
    nextOf (construct Platform.vectors Construction.scenario) = some State.reset := by decide
/-- V-EX3, V-EX4. -/
theorem test_busy :
    refusalOf (step (turn writing 1 true (.command 0x05000000#32))) = some .hostBusy ∧
    refusalOf (step (turn writing 1 true (.command 0x00000000#32))) = some .hostBusy := by decide
theorem test_reserved :
    refusalOf (step (turn begun 1 true (.command 0x00000000#32))) = some .reservedOpcode ∧
    refusalOf (step (turn begun 1 true (.command 0x05000001#32))) = some .reservedBits := by decide
/-- R246. -/
theorem test_destroyed :
    (nextOf (step (turn twoHeld 1 true .destroy))).map (fun s => (s.rxEnabled, s.buf, s.destroyed)) =
      some (false, [], true) ∧
    refusalOf (step (turn { begun with destroyed := true } 1 true (.command 0x05000000#32))) = some .destroyed := by
  decide

/-! ### Witnesses: the hypotheses of each obligation, met together -/

/-- The platform of the vectors with another clock, for the periods at the bounds. -/
def clocked (f : Nat) : State := State.initial { Platform.vectors with fClk := f } Construction.scenario

/-- A schedule whose next turn makes the move `m`. -/
def withTurn (s : State) (t : Turn) : State := { s with schedule := [t] }

/-- A turn that makes `m` after `e` cycles, reading `l`. -/
def plainTurn (e : Nat) (l : Bool) (m : Move) : Turn := { elapsed := e, level := l, masked := false, move := m }

theorem witness_DecodedWordIsEncoding : decode 0x0EFFFFFF#32 = .ok (.onReceive 0xFFFFFF#24) := by decide

theorem witness_WordSelectsMatchingRow :
    (⟨.write, 0x09000000#32, 0xFFFFFF00#32⟩ : OpcodeRow) ∈ opcodeTable ∧
    0x090000FF#32 &&& 0xFFFFFF00#32 = 0x09000000#32 := by decide

/-- Every clause: OP 0, OP 0x14, OP 0xFF, a reserved bit, and a matching word. -/
theorem witness_ReservedEncodingsRefused :
    begun.busy = false ∧ begun.destroyed = false ∧ begun.refusal = none ∧ (opField 0x00FFFFFF#32).toNat = 0 ∧
    0x14 ≤ (opField 0x14000000#32).toNat ∧ 0x14 ≤ (opField 0xFF000000#32).toNat ∧
    (⟨.enableRx, 0x0B000000#32, 0xFFFFFFFE#32⟩ : OpcodeRow) ∈ opcodeTable ∧
    opField 0x0B000000#32 = opField 0x0B000002#32 ∧ 0x0B000002#32 &&& 0xFFFFFFFE#32 ≠ 0x0B000000#32 ∧
    0x0B000001#32 &&& 0xFFFFFFFE#32 = 0x0B000000#32 := by decide

theorem witness_PseudoInstructionsExpand : ([0xFF#8] : List Byte) ≠ [] ∧ ∃ n ∈ [65, 256], 256 ≤ n := by decide

theorem witness_StepRunsPresentedCommand :
    ∃ (s : State) (t : Turn), s.schedule = t :: [] ∧ t.move = .command 0x09000041#32 ∧
      decode 0x09000041#32 = .ok (.write 0x41#8) ∧ s.busy = false ∧ s.destroyed = false ∧ s.refusal = none :=
  ⟨withTurn begun (plainTurn 7 true (.command 0x09000041#32)), plainTurn 7 true (.command 0x09000041#32), by decide⟩

theorem witness_BusyRefusesEveryWord :
    ∃ (s : State) (t : Turn), s.schedule = t :: [] ∧ t.move = .command 0#32 ∧ s.busy = true ∧
      s.refusal = none :=
  ⟨withTurn writing (plainTurn 7 true (.command 0#32)), plainTurn 7 true (.command 0#32), by decide⟩

theorem witness_DestructionEndsCommands :
    (∃ (s : State) (t : Turn), s.schedule = t :: [] ∧ t.move = .destroy ∧ s.busy = false ∧ s.destroyed = false ∧
      s.refusal = none) ∧
    (∃ (s : State) (t : Turn), s.schedule = t :: [] ∧ t.move = .command 0x05000000#32 ∧ s.busy = false ∧
      s.destroyed = true ∧ s.refusal = none) :=
  ⟨⟨withTurn begun (plainTurn 7 true .destroy), plainTurn 7 true .destroy, by decide⟩,
   ⟨withTurn (destroyUart begun) (plainTurn 7 true (.command 0x05000000#32)),
    plainTurn 7 true (.command 0x05000000#32), by decide⟩⟩

theorem witness_NoTurnLeavesTheState : State.reset.schedule = [] := by decide

/-- Each verdict at the end of its range. -/
theorem witness_PeriodIsRoundedQuotient :
    (0#24).toNat = 0 ∧ ((1000001#24).toNat ≠ 0 ∧ 1000000 < (1000001#24).toNat) ∧
    ((1#24).toNat ≠ 0 ∧ 2 ^ 32 ≤ 10 * (429496730 / (1#24).toNat)) ∧
    ((1#24).toNat ≤ 429496729 ∧ 10 * (429496729 / (1#24).toNat) < 2 ^ 32) := by decide

theorem witness_ElapsedTimeWraps : 4294967295 < 2 ^ 32 ∧ elapsedSince 7#32 6#32 = 4294967295 := by decide

theorem witness_FrameOffsetsFitTheCounter :
    periodOf 80000000 9600#24 = .ok 8333#32 ∧ periodOf 429496729 1#24 = .ok 429496729#32 := by decide

theorem witness_BaudRateResponds :
    construct Platform.vectors Construction.scenario = .next State.reset ∧
    periodOf begun.platform.fClk 115200#24 = .ok 694#32 ∧
    (∃ (s : State) (t t' : Turn), s.schedule = t :: t' :: [] ∧ t.move = .command (encode (.begin 0#24)) ∧
      t'.move = .command (encode .baudRate) ∧ s.busy = false ∧ s.destroyed = false ∧ s.refusal = none ∧
      periodOf s.platform.fClk 0#24 = .error .zeroBaud) ∧
    (∃ s t : State, s.refusal = some .badBaud ∧ step s = .next t ∧ t.outputs ≠ s.outputs) :=
  ⟨rfl, by decide,
   ⟨{ begun with schedule := [plainTurn 7 true (.command 0x01000000#32), plainTurn 7 true (.command 0x02000000#32)] },
    plainTurn 7 true (.command 0x01000000#32), plainTurn 7 true (.command 0x02000000#32), by decide⟩,
   ⟨withTurn { begun with refusal := some .badBaud } (plainTurn 1 true (.command 0x02000000#32)), _, rfl, rfl,
    by decide⟩⟩

theorem witness_BeginConfigures :
    periodOf State.reset.platform.fClk 0#24 = .error .zeroBaud ∧
    periodOf (clocked 500000000).platform.fClk 1#24 = .error .frameTooLong ∧
    periodOf (clocked 1000000).platform.fClk 1000001#24 = .error .periodZero ∧
    periodOf State.reset.platform.fClk 16777215#24 = .ok 4#32 := by decide

/-- V-LC1 and V-LC2: pin 4 valid for reception, and pin 4 not valid. -/
theorem witness_BeginValidatesAssumedPins :
    periodOf State.reset.platform.fClk 9600#24 = .ok 8333#32 ∧
    PinsAsAssumed State.reset [(4#8, true)] [(5#8, true)] ∧
    PinsAsAssumed { State.reset with platform := { Platform.vectors with validRx := [] } }
      [(4#8, false)] [(5#8, true)] :=
  ⟨by decide,
   ⟨fun _ h => by cases List.mem_singleton.mp h; decide, fun _ h => by cases List.mem_singleton.mp h; decide⟩,
   fun _ h => by cases List.mem_singleton.mp h; decide, fun _ h => by cases List.mem_singleton.mp h; decide⟩

/-- An empty ring, one that holds bytes, and a full one, for the statements about the ring. -/
theorem witness_AvailableCountsHeldBytes : Inv State.reset ∧ Inv twoHeld ∧ Inv full :=
  ⟨reset_inv, twoHeld_inv, full_inv⟩

theorem witness_PeekRespondsOldest :
    (Inv begun ∧ contents begun = []) ∧ (Inv twoHeld ∧ contents twoHeld = [0x41#8, 0x42#8]) :=
  ⟨⟨begun_inv, by decide⟩, twoHeld_inv, by decide⟩

theorem witness_ReadRemovesOldest :
    (Inv begun ∧ contents begun = []) ∧ (Inv full ∧ contents full = 0x61#8 :: [0x62#8, 0x63#8]) :=
  ⟨⟨begun_inv, by decide⟩, full_inv, by decide⟩

theorem witness_PushAppendsOrDrops :
    (Inv full ∧ ringCount full = full.construction.cap - 1) ∧
    (Inv twoHeld ∧ ringCount twoHeld < twoHeld.construction.cap - 1) ∧
    (Inv { full with tail := 1 } ∧ ringCount { full with tail := 1 } = 2) :=
  ⟨⟨full_inv, by decide⟩, ⟨twoHeld_inv, by decide⟩, inv_of_plain (by decide), by decide⟩

theorem witness_CommitNotifiesStoredBytes :
    (Inv full ∧ ringCount full = full.construction.cap - 1) ∧
    (Inv { full with tail := 1, handler := 7#24 } ∧ ringCount { full with tail := 1, handler := 7#24 } < 3) :=
  ⟨⟨full_inv, by decide⟩, inv_of_plain (by decide), by decide⟩

/-- Empty with CAP = 4, and with the smallest ring, which holds nothing. -/
theorem witness_CommitsFillTheRing :
    (Inv small ∧ small.head = small.tail ∧ small.overflow = false) ∧
    (∃ s : State, s.construction.cap = 1 ∧ Inv s ∧ s.head = s.tail ∧ s.overflow = false) :=
  ⟨⟨small_inv, by decide⟩,
   ⟨State.initial Platform.vectors { Construction.scenario with cap := 1 }, rfl, inv_of_plain (by decide), by decide⟩⟩

/-- The last cycle before a midpoint; idle with a poll; idle with an edge to IDLE_LEVEL. -/
theorem witness_EvaluationWithoutEffect :
    ({ framed with cycle := 13498#32 }.rxIdx = .data 0 ∧
      elapsedSince { framed with cycle := 13498#32 }.rxRef { framed with cycle := 13498#32 }.cycle < mid 8333 0) ∧
    begun.rxIdx = .idle ∧ { begun with rxIn := true }.rxIn ≠ begun.construction.invert := by decide

theorem witness_StartEdgeOpensFrame :
    begun.rxIdx = .idle ∧ { begun with rxIn := false }.rxIn = begun.construction.invert := by decide

/-- At `Mid(0)` and one cycle before `Mid(7)`. -/
theorem witness_EvaluationAdvancesPassedCells :
    (∃ s : State, Inv s ∧ s.rxIdx = .data 0 ∧ elapsedSince s.rxRef s.cycle = mid s.period.toNat 0 ∧
      elapsedSince s.rxRef s.cycle < mid s.period.toNat 7) ∧
    (∃ s : State, Inv s ∧ s.rxIdx = .data 0 ∧ mid s.period.toNat 0 ≤ elapsedSince s.rxRef s.cycle ∧
      elapsedSince s.rxRef s.cycle + 1 = mid s.period.toNat 7) :=
  ⟨⟨{ framed with cycle := 13499#32 }, inv_of_plain (by decide), by decide⟩,
   ⟨{ framed with cycle := 71829#32 }, inv_of_plain (by decide), by decide⟩⟩

/-- At `Mid(7)`, with the ring free and full, for both kinds of edge. -/
theorem witness_LateEvaluationCommits :
    (∃ s : State, Inv s ∧ s.rxIdx = .data 7 ∧ elapsedSince s.rxRef s.cycle = mid s.period.toNat 7 ∧
      s.rxIn = s.construction.invert) ∧
    (∃ s : State, Inv s ∧ s.rxIdx = .data 0 ∧ mid s.period.toNat 7 ≤ elapsedSince s.rxRef s.cycle ∧
      s.rxIn ≠ s.construction.invert ∧ ringCount s = s.construction.cap - 1) :=
  ⟨⟨{ framed with cycle := 71830#32, rxIdx := .data 7 }, inv_of_plain (by decide), by decide⟩,
   ⟨{ full with rxRef := 0xFFFFFFFF#32, cycle := 100000#32, rxIdx := .data 0, rxIn := true },
    inv_of_plain (by decide), by decide⟩⟩

/-- The gate open, a suspension, and reception detached. -/
theorem witness_EdgeTurnObeysTheGate :
    ∃ t : Turn, t.move = .edge ∧ t.masked = false ∧
      ((withTurn begun t).schedule = t :: [] ∧ begun.rxValid = true ∧ begun.rxEnabled = true ∧
        begun.intSuspend = false ∧ begun.refusal = none) ∧
      ((withTurn suspended t).schedule = t :: [] ∧ suspended.intSuspend = true ∧ suspended.refusal = none) ∧
      ((withTurn State.reset t).schedule = t :: [] ∧ State.reset.intSuspend = false ∧
        State.reset.rxValid = false ∧ State.reset.refusal = none) :=
  ⟨plainTurn 3 false .edge, by decide⟩

theorem witness_LatchedEdgeDeliveredOnce :
    ∃ t : Turn, t.move = .deferredEdge ∧ t.masked = false ∧
      (∃ s : State, s.schedule = t :: [] ∧ s.edgeLatch = true ∧ s.intSuspend = false ∧ s.rxValid = true ∧
        s.rxEnabled = true ∧ s.refusal = none) ∧
      (∃ s : State, s.schedule = t :: [] ∧ s.edgeLatch = true ∧ s.intSuspend = false ∧ s.rxEnabled = false ∧
        s.refusal = none) ∧
      (∃ s : State, s.schedule = t :: [] ∧ s.edgeLatch = true ∧ s.intSuspend = true ∧ s.refusal = none) :=
  ⟨plainTurn 3 false .deferredEdge, rfl, rfl,
   ⟨withTurn { begun with edgeLatch := true } (plainTurn 3 false .deferredEdge), by decide⟩,
   ⟨withTurn { State.reset with edgeLatch := true } (plainTurn 3 false .deferredEdge), by decide⟩,
   ⟨withTurn { suspended with edgeLatch := true } (plainTurn 3 false .deferredEdge), by decide⟩⟩

theorem witness_PollEvaluatesWhenAttached :
    State.reset.rxValid = false ∧ (destroyUart begun).rxEnabled = false ∧
    (Inv framed ∧ framed.rxValid = true ∧ framed.rxEnabled = true) :=
  ⟨by decide, by decide, framed_inv, by decide⟩

/-- Whether an outcome is a next state that meets `p`. -/
def nextMeets (p : State → Bool) (r : Host.Outcome State Fault Refusal) : Bool := (nextOf r).any p

/-- A test of the states up to the last turn is one of all states of the run. -/
theorem run_meets {s : State} (p : State → Bool) (h : ∀ n ≤ s.schedule.length, nextMeets p (run n s) = true) {n : Nat}
    {u : State} (hu : run n s = .next u) : p u = true := by
  rcases Nat.le_total n s.schedule.length with hn | hn
  · have := h n hn
    rw [hu] at this
    exact this
  · have hl := h _ (Nat.le_refl _)
    cases ht : run s.schedule.length s with
    | next t =>
      rw [ht] at hl
      have hs := run_add (n := n - s.schedule.length) ht
      rw [Nat.add_sub_cancel' hn, hu] at hs
      have hz : ∀ k, run k t = .next t := by
        intro k
        induction k with
        | zero => rfl
        | succ k ih =>
          refine run_of_no_turn ih ?_
          rw [(run_readings ht).1, List.drop_length]
          exact Nat.zero_le _
      rw [hz] at hs
      injection hs with hs
      exact hs ▸ hl
    | fault f => rw [ht] at hl; cases hl
    | refused r => rw [ht] at hl; cases hl

/-- What the schedule alone decides of the levels. -/
theorem pinRead_of {s : State} {idle : Bool} {transitions : List Transition}
    (h : ∀ n < s.schedule.length, ∀ t ∈ s.schedule[n]?,
      (∀ a ∈ transitions, a.1 ≤ clock s (n + 1) → (∀ b ∈ transitions, b.1 ≤ clock s (n + 1) → b.1 ≤ a.1) →
        t.level = a.2) ∧
      ((∀ a ∈ transitions, clock s (n + 1) < a.1) → t.level = idle)) : PinRead s idle transitions :=
  fun n t _ ht => h n ht.lt t ht.getElem

/-- No state of the run is suspended. -/
theorem noDeafFrame_of {s : State} {frames : List SentFrame} {period : Nat}
    (h : ∀ n ≤ s.schedule.length, nextMeets (fun u => !u.suspended) (run n s) = true) : NoDeafFrame s frames period :=
  fun n u hu hsus => by
    have := run_meets _ h hu
    rw [hsus] at this
    cases this

theorem notRefused_of {s : State}
    (h : ∀ n ≤ s.schedule.length, nextMeets (fun u => u.refusal == none) (run n s) = true) : NotRefused s := by
  refine fun n => ⟨fun r hr => ?_, fun t ht => by simpa using run_meets _ h ht⟩
  cases ht : run s.schedule.length s with
  | next t => obtain ⟨u, hu⟩ := run_total ht n; rw [hu] at hr; cases hr
  | fault f => have := h _ (Nat.le_refl _); rw [ht] at this; cases this
  | refused r => have := h _ (Nat.le_refl _); rw [ht] at this; cases this

/-- A run of fewer than 2^32 cycles. -/
theorem counterSane_of {s : State} (h : clock s s.schedule.length < 2 ^ 32) : CounterSane s := by
  intro m n _
  rcases Nat.le_total (n + 1) s.schedule.length with hn | hn
  · have := clock_mono s hn; omega
  · rw [clock_of_no_turn hn]; omega

/-- Two frames, the second right behind the first: 0xFF, whose second transition is 1000 cycles late, and 0x00. -/
def backToBack : List SentFrame := [⟨0xFF#8, 1000, [0, 1000]⟩, ⟨0x00#8, 84330, []⟩]

/-- They arrive while a `write` is in flight (program 2): its command and a cell of it stand between their edge events, of which
two are 3165 cycles late, the most the premise allows beside a drift of 1000. -/
def fullDuplex : State :=
  { begun with
    schedule :=
      [plainTurn 1000 false (.command 0x09000041#32), plainTurn 0 false .edge, plainTurn 8333 false .writeStep,
        plainTurn 4165 true .edge, plainTurn 70832 false .edge, plainTurn 78162 true .edge] }

/-- The turn that takes each transition. -/
def fullDuplexEvent (time : Nat) : Option Nat :=
  if time = 1000 then some 1 else if time = 10333 then some 3 else if time = 84330 then some 4 else some 5

/-- The edge events of a schedule are its edge turns. -/
theorem edgeTaken_turn {s : State} {n : Nat} (h : EdgeTaken s n) : ∃ t ∈ s.schedule[n]?, t.move = .edge := by
  obtain ⟨t, u, ht, hm, -⟩ := h
  exact ⟨t, ht.getElem, hm⟩

theorem pollTaken_turn {s u : State} {n : Nat} (h : PollTaken s n u) :
    ∃ t ∈ s.schedule[n]?, ∃ w, t.move = .command w ∧ decode w = .ok .poll := by
  obtain ⟨t, w, ht, hm, hd, -⟩ := h
  exact ⟨t, ht.getElem, w, hm, hd⟩

theorem fullDuplex_edge : EdgeTaken fullDuplex 1 ∧ EdgeTaken fullDuplex 3 ∧ EdgeTaken fullDuplex 4 ∧ EdgeTaken fullDuplex 5 :=
  ⟨⟨_, _, ⟨_, _, rfl, rfl, rfl⟩, rfl, rfl⟩, ⟨_, _, ⟨_, _, rfl, rfl, rfl⟩, rfl, rfl⟩,
   ⟨_, _, ⟨_, _, rfl, rfl, rfl⟩, rfl, rfl⟩, ⟨_, _, ⟨_, _, rfl, rfl, rfl⟩, rfl, rfl⟩⟩

theorem fullDuplex_faithful : EdgeFaithful 3165 (transitionsOf backToBack 8333 false) fullDuplex := by
  have htr : transitionsOf backToBack 8333 false = [(1000, false), (10333, true), (84330, false), (159327, true)] := by
    decide
  obtain ⟨e1, e3, e4, e5⟩ := fullDuplex_edge
  rw [htr]
  have hev : ∀ a ∈ [(1000, false), (10333, true), (84330, false), (159327, true)],
      (fullDuplexEvent a.1).isSome = true := by decide
  have hord : ∀ a ∈ [(1000, false), (10333, true), (84330, false), (159327, true)],
      ∀ b ∈ [(1000, false), (10333, true), (84330, false), (159327, true)],
      ∀ m ∈ fullDuplexEvent a.1, ∀ n ∈ fullDuplexEvent b.1, a.1 < b.1 → m < n := by decide
  refine ⟨fullDuplexEvent, fun a ha _ => hev a ha, ?_, fun a ha b hb m n hm hn h => hord a ha b hb m hm n hn h, ?_⟩
  · intro a ha n hn
    simp only [List.mem_cons, List.not_mem_nil, or_false] at ha
    rcases ha with rfl | rfl | rfl | rfl <;> injection hn with hn <;> subst hn
    · exact ⟨⟨0, _, rfl, by decide⟩, e1, by decide⟩
    · exact ⟨⟨3, _, rfl, by decide⟩, e3, by decide⟩
    · exact ⟨⟨4, _, rfl, by decide⟩, e4, by decide⟩
    · exact ⟨⟨5, _, rfl, by decide⟩, e5, by decide⟩
  · intro n hn
    have hlt : n < 6 := by obtain ⟨_, _, ht, -⟩ := hn; exact ht.lt
    obtain ⟨t, ht, hm⟩ := edgeTaken_turn hn
    have h : ∀ n < 6, ∀ t ∈ fullDuplex.schedule[n]?, t.move = .edge →
        ∃ a ∈ [(1000, false), (10333, true), (84330, false), (159327, true)], fullDuplexEvent a.1 = some n := by decide
    exact h n hlt t ht hm

/-- Every hypothesis, with host turns between the edge events: 0xFF is completed by the next frame's start edge, 0x00 by its own
stop edge. -/
theorem witness_TimedFrameIsReceived :
    Inv fullDuplex ∧ fullDuplex.rxIdx = .idle ∧ fullDuplex.rxEnabled = true ∧ Undisturbed fullDuplex ∧
    FramesApart backToBack 8333 ∧
    PinRead fullDuplex (idleLevel false) (transitionsOf backToBack 8333 false) ∧
    NonePendingAtPolls fullDuplex (transitionsOf backToBack 8333 false) ∧ TxAccurate 1000 backToBack ∧
    EdgeFaithful 3165 (transitionsOf backToBack 8333 false) fullDuplex ∧ RxTiming 1000 3165 8333 ∧
    NoDeafFrame fullDuplex backToBack 8333 ∧ CounterSane fullDuplex ∧ NotRefused fullDuplex ∧
    Completed fullDuplex backToBack 8333 ∧ fullDuplex.period.toNat = 8333 := by
  refine ⟨begun_inv.withSchedule _, rfl, rfl, ?_, by unfold FramesApart; decide, pinRead_of (by decide), ?_,
    by unfold TxAccurate; decide, fullDuplex_faithful, by unfold RxTiming; decide,
    noDeafFrame_of (by decide), counterSane_of (by decide), notRefused_of (by decide), ?_, by decide⟩
  · intro t ht
    simp only [fullDuplex, List.mem_cons, List.not_mem_nil, or_false] at ht
    rcases ht with rfl | rfl | rfl | rfl | rfl | rfl
    · show fullDuplex.oneWire = false
      decide
    all_goals trivial
  · intro n u hp
    have hlt : n < 6 := by obtain ⟨_, _, ht, -⟩ := hp; exact ht.lt
    obtain ⟨t, ht, w, hm, hd⟩ := pollTaken_turn hp
    have h : ∀ n < 6, ∀ t ∈ fullDuplex.schedule[n]?, t.move ∈ [.edge, .writeStep, .command 0x09000041#32] := by decide
    have := h n hlt t ht
    rw [hm] at this
    simp only [List.mem_cons, List.not_mem_nil, or_false, reduceCtorEq, false_or, Move.command.injEq] at this
    subst this
    exact absurd hd (by decide)
  · intro f hf
    simp only [backToBack, List.mem_cons, List.not_mem_nil, or_false] at hf
    rcases hf with rfl | rfl
    · exact ⟨4, .inl ⟨fullDuplex_edge.2.2.1, by decide⟩⟩
    · exact ⟨5, .inl ⟨fullDuplex_edge.2.2.2, by decide⟩⟩

/-- 0xFF alone, on a full ring, with `available` between its edges and a `poll` at `Mid(7)` itself (V-RX3). -/
def polled : State :=
  { full with
    schedule :=
      [plainTurn 1000 false .edge, plainTurn 5000 false (.command 0x05000000#32), plainTurn 3333 true .edge,
        plainTurn 62497 true (.command 0x13000000#32)] }

theorem polled_edge : EdgeTaken polled 0 ∧ EdgeTaken polled 2 :=
  ⟨⟨_, _, ⟨_, _, rfl, rfl, rfl⟩, rfl, rfl⟩, ⟨_, _, ⟨_, _, rfl, rfl, rfl⟩, rfl, rfl⟩⟩

/-- The turn that takes each transition. -/
def polledEvent (time : Nat) : Option Nat := if time = 1000 then some 0 else some 2

theorem polled_faithful : EdgeFaithful 0 (transitionsOf [⟨0xFF#8, 1000, []⟩] 8333 false) polled := by
  have htr : transitionsOf [⟨0xFF#8, 1000, []⟩] 8333 false = [(1000, false), (9333, true)] := by decide
  rw [htr]
  have hord : ∀ a ∈ [(1000, false), (9333, true)], ∀ b ∈ [(1000, false), (9333, true)], a.1 < b.1 →
      ∀ m ∈ polledEvent a.1, ∀ n ∈ polledEvent b.1, m < n := by decide
  have hev : ∀ a ∈ [(1000, false), (9333, true)], (polledEvent a.1).isSome = true := by decide
  refine ⟨polledEvent, fun a ha _ => hev a ha, ?_, fun a ha b hb m n hm hn h => hord a ha b hb h m hm n hn, ?_⟩
  · intro a ha n hn
    simp only [List.mem_cons, List.not_mem_nil, or_false] at ha
    rcases ha with rfl | rfl <;> injection hn with hn <;> subst hn
    · exact ⟨⟨0, _, rfl, by decide⟩, polled_edge.1, by decide⟩
    · exact ⟨⟨2, _, rfl, by decide⟩, polled_edge.2, by decide⟩
  · intro n hn
    have hlt : n < 4 := by obtain ⟨_, _, ht, -⟩ := hn; exact ht.lt
    obtain ⟨t, ht, hm⟩ := edgeTaken_turn hn
    have h : ∀ n < 4, ∀ t ∈ polled.schedule[n]?, t.move = .edge →
        ∃ a ∈ [(1000, false), (9333, true)], polledEvent a.1 = some n := by decide
    exact h n hlt t ht hm

theorem polled_poll : ∃ u, PollTaken polled 3 u ∧ elapsedSince u.rxRef u.cycle = mid 8333 7 :=
  ⟨_, ⟨_, _, ⟨_, _, rfl, rfl, rfl⟩, rfl, by decide, rfl, rfl, rfl⟩, by decide⟩

theorem witness_TimedFrameIsReceived_poll :
    Inv polled ∧ polled.rxIdx = .idle ∧ polled.rxEnabled = true ∧ Undisturbed polled ∧
    FramesApart [⟨0xFF#8, 1000, []⟩] 8333 ∧
    PinRead polled (idleLevel false) (transitionsOf [⟨0xFF#8, 1000, []⟩] 8333 false) ∧
    NonePendingAtPolls polled (transitionsOf [⟨0xFF#8, 1000, []⟩] 8333 false) ∧
    TxAccurate 0 [⟨0xFF#8, 1000, []⟩] ∧
    EdgeFaithful 0 (transitionsOf [⟨0xFF#8, 1000, []⟩] 8333 false) polled ∧ RxTiming 0 0 8333 ∧
    NoDeafFrame polled [⟨0xFF#8, 1000, []⟩] 8333 ∧ CounterSane polled ∧ NotRefused polled ∧
    Completed polled [⟨0xFF#8, 1000, []⟩] 8333 ∧ polled.period.toNat = 8333 ∧
    ringCount polled = polled.construction.cap - 1 := by
  refine ⟨full_inv.withSchedule _, rfl, rfl, ?_, by unfold FramesApart; decide, pinRead_of (by decide), ?_,
    by unfold TxAccurate; decide, polled_faithful, by unfold RxTiming; decide,
    noDeafFrame_of (by decide), counterSane_of (by decide), notRefused_of (by decide), ?_, by decide, by decide⟩
  · intro t ht
    simp only [polled, List.mem_cons, List.not_mem_nil, or_false] at ht
    rcases ht with rfl | rfl | rfl | rfl <;> trivial
  · intro n u hp
    have hlt : n < 4 := by obtain ⟨_, _, ht, -⟩ := hp; exact ht.lt
    obtain ⟨t, ht, w, hm, hd⟩ := pollTaken_turn hp
    have hn : n = 3 := by
      have h : ∀ n < 4, ∀ t ∈ polled.schedule[n]?, n = 3 ∨ t.move ∈ [.edge, .command 0x05000000#32] := by decide
      refine (h n hlt t ht).resolve_right fun h => ?_
      rw [hm] at h
      simp only [List.mem_cons, List.not_mem_nil, or_false, reduceCtorEq, false_or, Move.command.injEq] at h
      subst h
      exact absurd hd (by decide)
    subst hn
    have h : ∀ a ∈ transitionsOf [⟨0xFF#8, 1000, []⟩] 8333 false, a.1 ≤ clock polled 3 := by decide
    exact fun a ha _ => ⟨2, by decide, polled_edge.2, h a ha⟩
  · intro f hf
    cases List.mem_singleton.mp hf
    obtain ⟨u, hu, he⟩ := polled_poll
    exact ⟨3, .inr ⟨u, hu, by decide, by rw [he]⟩⟩

/-- Program 3's start bit and first data bit: W0 drives the one at 5000 in the step that detaches reception, so it falls in no cycle in
which the gate is open throughout, and no edge event is owed for either (R141, R103). -/
def ownBits : State :=
  { oneWire with schedule := [plainTurn 5000 true (.command 0x09000055#32), plainTurn 694 true .writeStep] }

theorem test_own_bits_owe_no_edge :
    GateOpenAt ownBits 5000 ∧ EdgeFaithful 0 [(5000, false), (5694, true)] ownBits := by
  have hclosed : ∀ τ ∈ [5000, 5694], ¬ GateOpenThroughout ownBits τ := by
    intro τ hτ h
    simp only [List.mem_cons, List.not_mem_nil, or_false] at hτ
    rcases hτ with rfl | rfl
    · exact absurd (h.2 1 _ rfl (by decide) (by decide)) (by decide)
    · exact absurd (h.2 1 _ rfl (by decide) (by decide)) (by decide)
  refine ⟨⟨0, _, rfl, by decide⟩, fun _ => none, ?_, fun _ _ _ h => (by cases h), fun _ _ _ _ _ _ h => (by cases h), ?_⟩
  · intro a ha h
    simp only [List.mem_cons, List.not_mem_nil, or_false] at ha
    rcases ha with rfl | rfl
    · exact absurd h (hclosed _ (by decide))
    · exact absurd h (hclosed _ (by decide))
  · intro n hn
    obtain ⟨t, ht, hm⟩ := edgeTaken_turn hn
    have hlt : n < 2 := by obtain ⟨_, _, ht, -⟩ := hn; exact ht.lt
    have h : ∀ n < 2, ∀ t ∈ ownBits.schedule[n]?, t.move ≠ .edge := by decide
    exact absurd hm (h n hlt t ht)

/-- A frame that is open from the first state on; after 200 cycles a `poll` measures 200. -/
def openFor200 : State :=
  { framed with
    cycle := 1000#32, schedule := [plainTurn 100 true .pass, plainTurn 100 true (.command 0x13000000#32)] }

/-- 200 cycles after W0 the host, in its wait, measures 200. -/
def writingFor200 : State := { writing with schedule := [plainTurn 100 true .pass, plainTurn 100 true .writeStep] }

theorem witness_SaneCounterMeasuresTrueTime :
    (CounterSane openFor200 ∧ run 0 openFor200 = .next openFor200 ∧ openFor200.rxRef = openFor200.cycle ∧
      (∃ u rest, run 1 openFor200 = .next u ∧ u.schedule = plainTurn 100 true (.command 0x13000000#32) :: rest) ∧
      FrameOpen openFor200 0 2 ∧ Evaluates openFor200 1) ∧
    (CounterSane writingFor200 ∧ run 0 writingFor200 = .next writingFor200 ∧
      writingFor200.txT0 = writingFor200.cycle ∧
      (∃ u rest, run 1 writingFor200 = .next u ∧ u.schedule = plainTurn 100 true .writeStep :: rest) ∧
      WriteOpen writingFor200 0 2 ∧ WriteStepAt writingFor200 1) := by
  refine ⟨⟨counterSane_of (by decide), rfl, by decide, ⟨_, _, rfl, rfl⟩, ⟨1000#32, fun k _ hk => ?_⟩,
      .inr (.inl ⟨_, _, _, ⟨_, _, rfl, rfl, rfl⟩, rfl, by decide, rfl, rfl, rfl⟩)⟩,
    counterSane_of (by decide), rfl, by decide, ⟨_, _, rfl, rfl⟩, fun k _ hk => ?_, _, _, ⟨_, _, rfl, rfl, rfl⟩, rfl⟩
  · obtain rfl | rfl : k = 0 ∨ k = 1 := by omega
    · exact ⟨_, rfl, by decide, by decide⟩
    · exact ⟨_, rfl, by decide, by decide⟩
  · obtain rfl | rfl : k = 0 ∨ k = 1 := by omega
    · exact ⟨_, rfl, by decide⟩
    · exact ⟨_, rfl, by decide⟩

/-- R253's "or none at all": a frame left open with no evaluation, and `available` 2^32 cycles later. -/
def leftOpen : State := { framed with schedule := [plainTurn 4294967296 true (.command 0x05000000#32)] }

theorem test_frame_without_evaluation_is_sane : FrameOpen leftOpen 0 1 ∧ CounterSane leftOpen := by
  refine ⟨⟨1000#32, fun k _ hk => ?_⟩, fun m n h => ?_⟩
  · obtain rfl : k = 0 := by omega
    exact ⟨_, rfl, by decide, by decide⟩
  · exfalso
    have hmove : ∀ {n : Nat} {t : Turn} {u : State}, TurnAt leftOpen n t u → t.move = .command 0x05000000#32 := by
      intro n t u ht
      have h : ∀ t ∈ leftOpen.schedule, t.move = .command 0x05000000#32 := by decide
      exact h t ht.mem
    rcases h with ⟨-, ⟨t, u, ht, hm, -⟩ | ⟨_, t, w, ht, hm, hd, -⟩ | ⟨t, u, ht, hm, -⟩⟩ | ⟨-, t, u, ht, hm⟩
    · cases (hmove ht).symm.trans hm
    · cases (hmove ht).symm.trans hm
      exact absurd hd (by decide)
    · cases (hmove ht).symm.trans hm
    · cases (hmove ht).symm.trans hm

theorem witness_WriteStartsFrame : State.reset.txValid = false ∧ begun.txValid = true := by decide

/-- A cycle before the deadline of cell 1; at the deadline of cell 9 with interrupts suspended. -/
theorem witness_WriteStepDrivesCell :
    (∃ (s : State) (t : Turn), s.schedule = t :: [] ∧ t.move = .writeStep ∧ s.refusal = none ∧ s.busy = true ∧ s.txPos = 1 ∧
      ((beginTurn t [] s).cycle - s.txT0).toNat + 1 = s.txPos * s.period.toNat) ∧
    (∃ (s : State) (t : Turn), s.schedule = t :: [] ∧ t.move = .writeStep ∧ s.refusal = none ∧ s.busy = true ∧ s.txPos = 9 ∧
      ((beginTurn t [] s).cycle - s.txT0).toNat = s.txPos * s.period.toNat ∧ s.intSuspend = true) :=
  ⟨⟨withTurn writing (plainTurn 8332 true .writeStep), plainTurn 8332 true .writeStep, by decide⟩,
   ⟨withTurn { suspended with txPos := 9 } (plainTurn 74997 true .writeStep), plainTurn 74997 true .writeStep,
    by decide⟩⟩

theorem witness_WriteStepsKeepTheirBounds :
    ∃ (s t : State) (u : Turn), Inv s ∧ s.schedule = u :: [] ∧ u.move = .writeStep ∧ step s = .next t ∧
      s.busy = true ∧ t.txPos ≠ s.txPos ∧ s.intSuspend = true :=
  ⟨withTurn suspended (plainTurn 8333 true .writeStep),
   writeCell (beginTurn (plainTurn 8333 true .writeStep) [] suspended), plainTurn 8333 true .writeStep,
   inv_of_plain (by decide), rfl, rfl, rfl, by decide⟩

theorem witness_WriteFinishRestores :
    (∃ (s : State) (t : Turn), s.schedule = t :: [] ∧ t.move = .writeStep ∧ s.refusal = none ∧ s.busy = true ∧ s.txPos = 10 ∧
      ((beginTurn t [] s).cycle - s.txT0).toNat + 1 = 10 * s.period.toNat) ∧
    (∃ (s : State) (t : Turn), s.schedule = t :: [] ∧ t.move = .writeStep ∧ s.refusal = none ∧ s.busy = true ∧ s.txPos = 10 ∧
      ((beginTurn t [] s).cycle - s.txT0).toNat = 10 * s.period.toNat ∧ s.intSuspend = true) :=
  ⟨⟨withTurn { suspended with txPos := 10 } (plainTurn 83329 true .writeStep), plainTurn 83329 true .writeStep,
    by decide⟩,
   ⟨withTurn { suspended with txPos := 10 } (plainTurn 83330 true .writeStep), plainTurn 83330 true .writeStep,
    by decide⟩⟩

/-- The offsets of a `write` with every step at its deadline. -/
def onTime (p k : Nat) : Nat := k * p

/-- `s` about to run a whole `write`. -/
def sending (s : State) (b : Byte) : State :=
  { s with schedule := writeTurns b 1000 (onTime s.period.toNat) (fun _ => true) (fun _ => false) }

theorem witness_WriteTransmitsFrame :
    (∃ s : State, s.intTxEnabled = false ∧ Inv s ∧ s.busy = false ∧ s.destroyed = false ∧ s.refusal = none ∧ s.txValid = true ∧
      s.platform.txJitter = 0 ∧ s.period = 694#32 ∧
      s.schedule = writeTurns 0x55#8 1000 (onTime s.period.toNat) (fun _ => true) (fun _ => false)) ∧
    (694#32).toNat = 694 ∧ onTime 694 0 = 0 ∧ (∀ k < 10, onTime 694 k ≤ onTime 694 (k + 1)) ∧
    onTime 694 10 < 2 ^ 32 ∧ (∀ k, 1 ≤ k → k ≤ 10 → k * 694 ≤ onTime 694 k) ∧
    (∀ k, 1 ≤ k → k ≤ 10 → onTime 694 k ≤ k * 694 + 0) :=
  ⟨⟨sending { oneWire with intTxEnabled := false } 0x55#8, rfl, inv_of_plain (by decide), by decide, by decide, rfl,
    by decide, by decide, by decide, rfl⟩,
   by decide, by decide, by decide, by decide, by unfold onTime; omega, by unfold onTime; omega⟩

/-- Program 3's drive events, with the start bit at 1000 here. -/
theorem test_write_events :
    (writeOutputs { oneWire with intTxEnabled := false } 0x55#8 1000#32 (onTime 694)).drop 2 =
      [.drive 2#8 false 1000#32, .drive 2#8 true 1694#32, .drive 2#8 false 2388#32, .drive 2#8 true 3082#32,
       .drive 2#8 false 3776#32, .drive 2#8 true 4470#32, .drive 2#8 false 5164#32, .drive 2#8 true 5858#32,
       .drive 2#8 false 6552#32, .drive 2#8 true 7246#32] ++
      [.drive 3#8 false 7940#32, .suspend false 7940#32, .response 1#32] := by decide

theorem witness_ReceptionCommandsGated :
    (Instr.enableRx false = .enableRx false) ∧ (Instr.listen = .listen ∧ true = true) ∧
    (Instr.endRx = .endRx ∧ false = false) ∧ (Instr.stopListening = .stopListening ∧ false = false) := by decide

/-- Both data pins clash; NONE and a third pin do not. -/
theorem witness_TePinAssignment :
    (4#8 ≠ noPin ∧ 4#8 = begun.construction.rxPin) ∧ (5#8 ≠ noPin ∧ 5#8 = begun.construction.txPin) ∧
    (noPin = noPin) ∧ (254#8 ≠ begun.construction.rxPin ∧ 254#8 ≠ begun.construction.txPin) := by decide

theorem witness_BeforeBeginNothingWorks :
    State.reset.rxValid = false ∧ State.reset.txValid = false ∧ State.reset.rxEnabled = false ∧
    State.reset.baud = 0#24 ∧ State.reset.head = State.reset.tail ∧ State.reset.overflow = false ∧
    Instr.poll ∈ [Instr.available, .overflow, .isListening, .valid, .baudRate, .poll, .listen, .endRx, .stopListening,
      .flush] := by decide

/-- CAP at 0 and 65537, and a pin in use. -/
theorem witness_ConstructionRefused :
    ({ Construction.scenario with cap := 0 } : Construction).cap = 0 ∧
    65536 < ({ Construction.scenario with cap := 65537 } : Construction).cap ∧
    1 ≤ Construction.scenario.cap ∧ Construction.scenario.cap ≤ 65536 ∧ Construction.scenario.txPin ≠ noPin ∧
    Construction.scenario.txPin ∈ ({ Platform.vectors with pinsInUse := [5#8] } : Platform).pinsInUse := by decide

/-- CAP at 1 and 65536, and NONE for either pin. -/
theorem witness_ConstructionGivesResetState :
    (∃ c : Construction, 1 ≤ c.cap ∧ c.cap = 65536 ∧ c.rxPin = noPin ∧ c.txPin ∉ Platform.vectors.pinsInUse) ∧
    (∃ c : Construction, c.cap = 1 ∧ c.cap ≤ 65536 ∧ c.rxPin ∉ Platform.vectors.pinsInUse ∧ c.txPin = noPin) :=
  ⟨⟨{ rxPin := noPin, txPin := 5#8, cap := 65536 }, by decide⟩,
   ⟨{ rxPin := 4#8, txPin := noPin, cap := 1 }, by decide⟩⟩

theorem witness_ConstructionEstablishesInvariant :
    construct Platform.vectors Construction.scenario = .next State.reset := rfl

theorem witness_StepKeepsInvariant :
    ∃ s t : State, Inv s ∧ step s = .next t ∧ s.rxIdx = .data 0 ∧ t.rxIdx = .idle :=
  ⟨withTurn framed (plainTurn 71830 true (.command 0x13000000#32)), _, inv_of_plain (by decide), rfl, by decide⟩

/-- The one step that faults; a run from a construction that reaches it; a clean entry that is never refused. -/
theorem witness_NoRunReachesARingFault :
    (∃ (s : State) (f : Fault), Inv s ∧ step s = .fault f) ∧
    (∃ (s : State) (turns : List Turn) (f : Fault), construct Platform.vectors Construction.scenario = .next s ∧
      run 4 { s with schedule := turns } = .fault f) ∧
    (CleanEntry State.reset ∧ NotRefused State.reset) := by
  refine ⟨⟨withTurn suspended (plainTurn 8334 true .writeStep), .jitterExceeded, inv_of_plain (by decide), rfl⟩,
    ⟨State.reset,
      [plainTurn 1 true (.command 0x01002580#32), plainTurn 1 true (.command 0x04000000#32),
        plainTurn 1 true (.command 0x09000041#32), plainTurn 8334 true .writeStep], .jitterExceeded, rfl, rfl⟩,
    ⟨Platform.vectors, Construction.scenario, rfl⟩, notRefused_of (by decide)⟩

theorem witness_AcceptedCommandsComplete :
    Inv framed ∧ periodOf framed.platform.fClk 16777215#24 = .ok 4#32 ∧ framed.teClash 254#8 = false ∧
    framed.teClash noPin = false :=
  ⟨framed_inv, by decide⟩

theorem witness_SingleProducerSingleConsumer :
    (∃ t : State, Instr.read ≠ .poll ∧ exec .read full = .next t ∧ t.tail ≠ full.tail) ∧
    (∃ t : State, evaluate .poll { framed with cycle := 71830#32 } = .ok t ∧ t.head = 1) :=
  ⟨⟨_, by decide, rfl, by decide⟩, ⟨_, rfl, by decide⟩⟩

theorem witness_OnlyBeginChangesThePeriod :
    ∃ s t : State, step s = .next t ∧ t.period ≠ s.period :=
  ⟨withTurn begun (plainTurn 1 true (.command 0x0101C200#32)), _, rfl, by decide⟩

/-- Both directions: W0 raises it, W10 lowers it. -/
theorem witness_OnlyWriteSuspendsInterrupts :
    (∃ s t : State, Inv s ∧ step s = .next t ∧ t.intSuspend ≠ s.intSuspend ∧ t.intSuspend = true) ∧
    (∃ s t : State, Inv s ∧ step s = .next t ∧ t.intSuspend ≠ s.intSuspend ∧ t.intSuspend = false) :=
  ⟨⟨withTurn { begun with intTxEnabled := false } (plainTurn 1 true (.command 0x09000041#32)), _,
    inv_of_plain (by decide), rfl, by decide⟩,
   ⟨withTurn { suspended with txPos := 10 } (plainTurn 83330 true .writeStep), _,
    inv_of_plain (by decide), rfl, by decide⟩⟩

theorem witness_ObservationsOnlyGrow : ∃ t : State, step (withTurn begun (plainTurn 1 true .edge)) = .next t := ⟨_, rfl⟩

/-- A cell of a `write`, a command, a fault and a refusal. -/
theorem witness_OnlyPollReadsTheReceivePin :
    (∃ t, step (withTurn writing (plainTurn 8333 true .writeStep)) = .next t ∧ t.txPos = 2) ∧
    (∃ t, step (withTurn twoHeld (plainTurn 1 true (.command 0x07000000#32))) = .next t) ∧
    decode 0x07000000#32 ≠ .ok .poll ∧
    (∃ f, step (withTurn suspended (plainTurn 8334 true .writeStep)) = .fault f) ∧
    (∃ r, step (withTurn writing (plainTurn 1 true .destroy)) = .refused r) ∧
    (∃ t : State, Instr.write 0x41#8 ≠ .poll ∧ exec (.write 0x41#8) begun = .next t) :=
  ⟨⟨_, rfl, by decide⟩, ⟨_, rfl⟩, by decide, ⟨_, rfl⟩, ⟨_, rfl⟩, _, by decide, rfl⟩

theorem witness_CounterReadOnlyWhereNamed :
    ∃ t : State, Instr.read ≠ .poll ∧ (∀ b, Instr.read ≠ .write b) ∧ (∀ b, Instr.read ≠ .begin b) ∧
      (∀ p, Instr.read ≠ .setTransmitEnablePin p) ∧ exec .read twoHeld = .next t :=
  ⟨_, by decide, fun _ h => (by cases h), fun _ h => (by cases h), fun _ h => (by cases h), rfl⟩

/-- A start edge while a frame is being sent; a cell sent while a frame is being received. -/
theorem witness_FullDuplexPathsAreSeparate :
    (∃ (s t : State) (u : Turn), s.schedule = u :: [] ∧ step s = .next t ∧ u.move = .edge ∧ s.busy = true ∧
      t.rxIdx ≠ s.rxIdx) ∧
    (∃ (s t : State) (u : Turn), s.schedule = u :: [] ∧ step s = .next t ∧ u.move = .writeStep ∧ s.oneWire = false ∧
      t.txPos ≠ s.txPos ∧ s.rxIdx = .data 0) :=
  ⟨⟨withTurn writing (plainTurn 1 false .edge), _, plainTurn 1 false .edge, rfl, rfl, rfl, by decide⟩,
   ⟨withTurn { writing with rxIdx := .data 0, rxRef := 900#32 } (plainTurn 8333 true .writeStep), _,
    plainTurn 8333 true .writeStep, rfl, rfl, rfl, by decide⟩⟩

end Sys2Proof.Tests
end

section
/-! PROOFS. Family 20_memory.md: what `RingPush` and the commit do, each as one equation for a full ring and one for a ring with
room, and what a list of commits leaves in the ring (R53, R67, R68, R108). -/

namespace Sys2Proof.Machine

/-- The state after `v` went into the head cell and `head` moved on, R53's Stored. -/
def storeByte (v : Byte) (s : State) : State :=
  { s with buf := s.buf.write s.head v, head := s.nextCell s.head }

/-- The ring is full exactly when it holds CAP − 1 bytes (R53, R67). -/
theorem Inv.nextCell_eq_tail_iff {s : State} (h : Inv s) :
    s.nextCell s.head = s.tail ↔ ringCount s = s.construction.cap - 1 := by
  have hh := h.headRange
  unfold State.nextCell ringCount
  constructor
  · intro hfull
    rw [← hfull]
    rcases Nat.lt_or_ge (s.head + 1) s.construction.cap with hlt | hge
    · rw [Nat.mod_eq_of_lt hlt, Nat.mod_eq_of_lt (by omega)]
      omega
    · have hwrap : s.head + 1 = s.construction.cap := by omega
      rw [hwrap, Nat.mod_self, Nat.sub_zero, Nat.add_mod_right, Nat.mod_eq_of_lt hh]
      omega
  · intro hcount
    by_contra hroom
    have hpush := (ringCount_push hh h.tailRange hroom).1
    have hlt := Nat.mod_lt ((s.head + 1) % s.construction.cap + s.construction.cap - s.tail)
      (show 0 < s.construction.cap by omega)
    omega

theorem Inv.nextCell_ne_tail {s : State} (h : Inv s) (hroom : ringCount s < s.construction.cap - 1) :
    s.nextCell s.head ≠ s.tail :=
  fun hfull => Nat.ne_of_lt hroom (h.nextCell_eq_tail_iff.mp hfull)

/-- The ring is full or has room; there is no third case. -/
theorem Inv.full_or_room {s : State} (h : Inv s) :
    ringCount s = s.construction.cap - 1 ∨ ringCount s < s.construction.cap - 1 := by
  have := ringCount_lt s (Nat.zero_lt_of_lt h.headRange)
  omega

theorem ringPush_of_full {s : State} (h : Inv s) (v : Byte) (hfull : ringCount s = s.construction.cap - 1) :
    ringPush v s = .ok (false, { s with overflow := true }) :=
  if_pos (h.nextCell_eq_tail_iff.mpr hfull)

theorem ringPush_of_room {s : State} (h : Inv s) (v : Byte) (hroom : ringCount s < s.construction.cap - 1) :
    ringPush v s = .ok (true, storeByte v s) := by
  unfold ringPush memWrite
  rw [if_neg (h.nextCell_ne_tail hroom), if_pos h.headRange]
  rfl

/-- A stored byte stands behind the bytes held: it is one cell further, and no held cell is the head cell. -/
theorem contents_storeByte {s : State} (h : Inv s) (v : Byte) (hroom : ringCount s < s.construction.cap - 1) :
    contents (storeByte v s) = contents s ++ [v] := by
  obtain ⟨hcount, hlast⟩ := ringCount_push h.headRange h.tailRange (h.nextCell_ne_tail hroom)
  have hcount : ringCount (storeByte v s) = ringCount s + 1 := hcount
  have hlast : (s.tail + ringCount s) % s.construction.cap = s.head := hlast
  have hheld : ∀ i ∈ List.range (ringCount s),
      (s.buf.write s.head v).read ((s.tail + i) % s.construction.cap) =
        s.buf.read ((s.tail + i) % s.construction.cap) := fun i hi =>
    Memory.read_write_other _ v (ring_cell_ne_head h.headRange h.tailRange (List.mem_range.mp hi))
  unfold contents
  rw [hcount, List.range_succ, List.filterMap_append]
  congr 1
  · exact List.filterMap_congr hheld
  · refine List.filterMap_cons_some ?_
    change (s.buf.write s.head v).read ((s.tail + ringCount s) % s.construction.cap) = some v
    rw [hlast, Memory.read_write_same]

theorem commit_of_full {s : State} (h : Inv s) (v : Byte) (hfull : ringCount s = s.construction.cap - 1) :
    commit v s = .ok { s with overflow := true } := by
  unfold commit
  rw [ringPush_of_full h v hfull]
  rfl

/-- A commit into a ring with room stores, and notifies the handler if there is one (R108, R171). -/
theorem commit_of_room {s : State} (h : Inv s) (v : Byte) (hroom : ringCount s < s.construction.cap - 1) :
    commit v s = .ok (if s.handler = 0#24 then storeByte v s
      else emit (.notify s.handler (ofCount (ringCount (storeByte v s)))) (storeByte v s)) := by
  have hhandler : (storeByte v s).handler = s.handler := rfl
  unfold commit
  rw [ringPush_of_room h v hroom]
  by_cases hz : s.handler = 0#24 <;> simp [hhandler, hz]

/-- One commit completes; the ring then holds the first CAP − 1 of the bytes held and the new one, and `overflow` comes on
exactly when the ring was full (R53, R68). -/
theorem commit_contents {s : State} (h : Inv s) (v : Byte) :
    ∃ t, commit v s = .ok t ∧ t.construction = s.construction ∧
      contents t = (contents s ++ [v]).take (s.construction.cap - 1) ∧
      (t.overflow = true ↔ s.overflow = true ∨ ringCount s = s.construction.cap - 1) := by
  have hlen := contents_length h
  rcases h.full_or_room with hfull | hroom
  · refine ⟨_, commit_of_full h v hfull, rfl, ?_, by simp [hfull]⟩
    exact (List.take_left' (hlen.trans hfull)).symm
  · refine ⟨_, commit_of_room h v hroom, by split <;> rfl, ?_, ?_⟩
    · have htake : (contents s ++ [v]).take (s.construction.cap - 1) = contents s ++ [v] :=
        List.take_of_length_le (by simp only [List.length_append, List.length_singleton]; omega)
      rw [htake, ← contents_storeByte h v hroom]
      split <;> rfl
    · have hover : (storeByte v s).overflow = s.overflow := rfl
      split <;> simp [hover, Nat.ne_of_lt hroom]

/-- What was cut at `n` and stays in front is not missed by a second cut at `n`. -/
theorem take_take_append {α : Type} (n : Nat) (held new : List α) :
    (held.take n ++ new).take n = (held ++ new).take n := by
  rw [List.take_append, List.take_append, List.take_take, Nat.min_self, List.length_take]
  congr 2
  omega

/-- Commits in a row all complete; the ring then holds the first CAP − 1 of the bytes held and those committed, and
`overflow` comes on exactly when there are more of them (R67). -/
theorem commits_contents (bytes : List Byte) {s : State} (h : Inv s) :
    ∃ t, bytes.foldlM (fun u v => commit v u) s = Except.ok t ∧ Inv t ∧
      contents t = (contents s ++ bytes).take (s.construction.cap - 1) ∧
      (t.overflow = true ↔ s.overflow = true ∨ s.construction.cap - 1 < ringCount s + bytes.length) := by
  induction bytes generalizing s with
  | nil =>
    have hmax : ringCount s ≤ s.construction.cap - 1 := by have := h.full_or_room; omega
    refine ⟨s, rfl, h, ?_, ?_⟩
    · rw [List.append_nil, List.take_of_length_le ((contents_length h).trans_le hmax)]
    · simp [Nat.not_lt.mpr hmax]
  | cons v bytes ih =>
    obtain ⟨u, hcommit, hcon, hcontents, hover⟩ := commit_contents h v
    have hu := h.commit hcommit
    obtain ⟨t, hrest, ht, htcontents, htover⟩ := ih hu
    have hcount : ringCount u = min (s.construction.cap - 1) (ringCount s + 1) := by
      rw [← contents_length hu, hcontents, List.length_take, List.length_append, contents_length h,
        List.length_singleton]
    refine ⟨t, ?_, ht, ?_, ?_⟩
    · rw [List.foldlM_cons, hcommit]
      exact hrest
    · rw [htcontents, hcontents, hcon, take_take_append, ← List.append_cons]
    · rw [htover, hover, hcon, hcount, List.length_cons, or_assoc]
      have := h.full_or_room
      apply or_congr Iff.rfl
      omega

/-- Settles O22: a full ring is the one whose next head cell is `tail`, and the head cell is none of the cells held. -/
theorem pushAppendsOrDrops : Obligations.PushAppendsOrDrops := by
  intro s v h
  refine ⟨ringPush_of_full h v, fun hroom => ⟨storeByte v s, ringPush_of_room h v hroom, contents_storeByte h v hroom, rfl, ?_⟩⟩
  exact fun i hi => Memory.read_write_other s.buf v hi

/-- Settles O24, by induction on the bytes committed, from any state that meets the invariant. -/
theorem commitsFillTheRing : Obligations.CommitsFillTheRing := by
  intro bytes s h hempty hclear
  have hcount : ringCount s = 0 := ringCount_self s hempty
  have hnone : contents s = [] := List.length_eq_zero_iff.mp ((contents_length h).trans hcount)
  obtain ⟨t, hrun, ht, hcontents, hover⟩ := commits_contents bytes h
  rw [hnone, List.nil_append] at hcontents
  refine ⟨t, hrun, hcontents, ?_, ?_⟩
  · rw [← contents_length ht, hcontents, List.length_take, Nat.min_comm]
  · simp [hover, hclear, hcount]

end Sys2Proof.Machine
end

section
/-! PROOFS. Family 30_encoding.md: the match and mask columns of R73 as a test of the two fields of a word, what the decoder answers
in each case (R74, R75), what the port of an idle block makes of it, and the commands of a pseudo-instruction (R83). -/

namespace Sys2Proof

/-- A command word is its two fields, `{OP, ARG}` (R70). -/
theorem opField_append_argField (w : Word) : opField w ++ argField w = w :=
  (BitVec.extractLsb'_append_extractLsb'_eq_extractLsb' rfl).trans BitVec.extractLsb'_eq_self

@[simp] theorem opField_append (op : BitVec 8) (arg : BitVec 24) : opField (op ++ arg) = op :=
  BitVec.extractLsb'_append_eq_left

@[simp] theorem argField_append (op : BitVec 8) (arg : BitVec 24) : argField (op ++ arg) = arg :=
  BitVec.extractLsb'_append_eq_right

/-- Two words written as fields agree exactly when both fields do (R70). -/
theorem append_fields_inj {op op' : BitVec 8} {arg arg' : BitVec 24} :
    op ++ arg = op' ++ arg' ↔ op = op' ∧ arg = arg' :=
  ⟨fun h => ⟨by simpa using congrArg opField h, by simpa using congrArg argField h⟩,
   fun ⟨hop, harg⟩ => by rw [hop, harg]⟩

/-- The columns of R73 by fields: the match is the row's OP over a zero ARG, and the mask is all of OP over the bits that the
row's format reserves. -/
theorem OpcodeRow.columns {r : OpcodeRow} (hr : r ∈ opcodeTable) :
    r.pattern = r.mnemonic.opcode ++ 0#24 ∧ r.mask = BitVec.allOnes 8 ++ r.mnemonic.format.reserved := by
  revert r
  decide

theorem OpcodeRow.opField_pattern {r : OpcodeRow} (hr : r ∈ opcodeTable) : opField r.pattern = r.mnemonic.opcode := by
  rw [(OpcodeRow.columns hr).1, opField_append]

/-- A word matches a row exactly when it has the row's OP and its reserved bits are 0. -/
theorem OpcodeRow.matches_iff {r : OpcodeRow} (hr : r ∈ opcodeTable) (w : Word) :
    w &&& r.mask = r.pattern ↔
      opField w = r.mnemonic.opcode ∧ argField w &&& r.mnemonic.format.reserved = 0#24 := by
  obtain ⟨hpattern, hmask⟩ := OpcodeRow.columns hr
  have hmasked : w &&& r.mask = opField w ++ (argField w &&& r.mnemonic.format.reserved) := by
    calc w &&& r.mask
        = (opField w ++ argField w) &&& (BitVec.allOnes 8 ++ r.mnemonic.format.reserved) := by
          rw [opField_append_argField, hmask]
      _ = (opField w &&& BitVec.allOnes 8) ++ (argField w &&& r.mnemonic.format.reserved) := BitVec.and_append
      _ = opField w ++ (argField w &&& r.mnemonic.format.reserved) := by rw [BitVec.and_allOnes]
  rw [hmasked, hpattern, append_fields_inj]

/-- The opcodes of R73 are 0x01 to 0x13. -/
theorem Mnemonic.opcode_range (m : Mnemonic) : 0 < m.opcode.toNat ∧ m.opcode.toNat < 0x14 := by
  cases m <;> decide

/-- R74: there is no row under OP 0x00 nor under 0x14 to 0xFF. -/
theorem Mnemonic.ofOpcode_reserved {op : BitVec 8} (h : op.toNat = 0 ∨ 0x14 ≤ op.toNat) :
    Mnemonic.ofOpcode op = none := by
  rw [Option.eq_none_iff_forall_ne_some]
  intro m hm
  have hrange := m.opcode_range
  rw [Mnemonic.opcode_of_ofOpcode hm] at hrange
  omega

theorem decode_reservedOpcode {w : Word} (h : (opField w).toNat = 0 ∨ 0x14 ≤ (opField w).toNat) :
    decode w = .error .reservedOpcode := by
  unfold decode
  rw [Mnemonic.ofOpcode_reserved h]

/-- Under a defined OP the decoder turns on the reserved bits alone. -/
theorem decode_of_opcode {w : Word} {m : Mnemonic} (h : opField w = m.opcode) :
    decode w = if argField w &&& m.format.reserved = 0#24 then .ok (m.withArgument (argField w))
      else .error .reservedBits := by
  unfold decode
  rw [h, Mnemonic.ofOpcode_opcode]

/-- A word that matches a row decodes to that row's command. -/
theorem decode_of_match {r : OpcodeRow} (hr : r ∈ opcodeTable) {w : Word} (h : w &&& r.mask = r.pattern) :
    decode w = .ok (r.mnemonic.withArgument (argField w)) := by
  obtain ⟨hop, harg⟩ := (OpcodeRow.matches_iff hr w).mp h
  rw [decode_of_opcode hop, if_pos harg]

/-- A word with a row's OP that does not match the row has a reserved bit set (R75). -/
theorem decode_of_mismatch {r : OpcodeRow} (hr : r ∈ opcodeTable) {w : Word} (hop : opField r.pattern = opField w)
    (h : w &&& r.mask ≠ r.pattern) : decode w = .error .reservedBits := by
  have hop : opField w = r.mnemonic.opcode := hop.symm.trans (OpcodeRow.opField_pattern hr)
  rw [decode_of_opcode hop, if_neg fun harg => h ((OpcodeRow.matches_iff hr w).mpr ⟨hop, harg⟩)]

/-- R83: numbers below 256 are bytes; `writeBytes` needs at least one of them. -/
theorem instrs_writeBytes {codes : List Nat} (hne : codes ≠ []) (hlt : ∀ n ∈ codes, n < 256) :
    (SourceLine.writeBytes codes).instrs = some (codes.map fun n => .write (BitVec.ofNat 8 n)) :=
  if_pos (by simpa [SourceLine.wellFormed, hne] using hlt)

theorem instrs_writeString {codes : List Nat} (hlt : ∀ n ∈ codes, n < 256) :
    (SourceLine.writeString codes).instrs = some (codes.map fun n => .write (BitVec.ofNat 8 n)) :=
  if_pos (by simpa [SourceLine.wellFormed] using hlt)

/-- A code that is no byte makes either pseudo-instruction no line. -/
theorem instrs_of_big_code {codes : List Nat} (h : ∃ n ∈ codes, 256 ≤ n) :
    (SourceLine.writeBytes codes).instrs = none ∧ (SourceLine.writeString codes).instrs = none :=
  ⟨if_neg (by simpa [SourceLine.wellFormed] using fun _ => h), if_neg (by simpa [SourceLine.wellFormed] using h)⟩

/-- The numbers of bytes name those bytes again. -/
theorem map_write_toNat (bytes : List Byte) :
    ((bytes.map BitVec.toNat).map fun n => Instr.write (BitVec.ofNat 8 n)) = bytes.map Instr.write := by
  rw [List.map_map]
  exact List.map_congr_left fun b _ => congrArg Instr.write ((BitVec.ofNat_toNat 8 b).trans (BitVec.setWidth_eq b))

/-- Settles O6: the numbers of bytes are below 256, so the line is accepted, and each stands for its own byte. -/
theorem pseudoInstructionsExpand : Obligations.PseudoInstructionsExpand := by
  refine ⟨fun bytes => ?_, fun codes => instrs_of_big_code⟩
  have hlt : ∀ n ∈ bytes.map BitVec.toNat, n < 256 := List.forall_mem_map.mpr fun b _ => b.isLt
  rw [← map_write_toNat bytes]
  exact ⟨fun hne => instrs_writeBytes (by simpa using hne) hlt, instrs_writeString hlt⟩

end Sys2Proof

namespace Sys2Proof.Machine

section port
variable {w : Word} {s : State} (hbusy : s.busy = false) (hdestroyed : s.destroyed = false) (hmark : s.refusal = none)
include hbusy hdestroyed hmark

/-- The port of an unmarked idle block runs the command a word decodes to (R77). -/
theorem runMove_command_ok {i : Instr} (hd : decode w = .ok i) : runMove (.command w) s = exec i s := by
  simp [runMove_unmarked hmark, takeMove, presentCommand, hbusy, hdestroyed, hd]

theorem runMove_command_reservedOpcode (hd : decode w = .error .reservedOpcode) :
    runMove (.command w) s = .refused .reservedOpcode := by
  simp [runMove_unmarked hmark, takeMove, presentCommand, hbusy, hdestroyed, hd]

theorem runMove_command_reservedBits (hd : decode w = .error .reservedBits) :
    runMove (.command w) s = .refused .reservedBits := by
  simp [runMove_unmarked hmark, takeMove, presentCommand, hbusy, hdestroyed, hd]

end port

/-- Settles O5: a row's match and mask test OP and the reserved bits, which is what the decoder tests, and the port of an unmarked
idle block answers as the decoder does. -/
theorem reservedEncodingsRefused : Obligations.ReservedEncodingsRefused := by
  intro w s hbusy hdestroyed hmark
  refine ⟨fun hop => ?_, fun r hr hop hne => ?_, fun r hr hmatch => ?_⟩
  · exact runMove_command_reservedOpcode hbusy hdestroyed hmark (decode_reservedOpcode hop)
  · exact runMove_command_reservedBits hbusy hdestroyed hmark (decode_of_mismatch hr hop hne)
  · have hd := decode_of_match hr hmatch
    exact ⟨_, hd, runMove_command_ok hbusy hdestroyed hmark hd⟩

end Sys2Proof.Machine
end

section
/-! PROOFS. Family 41_timing_model.md: `Period` as one equation per verdict (R90), the offsets and deadlines of an accepted period
(R93), and `baudRate` before and after an accepted or a refused `begin` (R91, R213). -/

namespace Sys2Proof

/-- The decoder inverts the encoder on an instruction whose operand leaves the reserved bits 0 and is assembled again (R72). -/
theorem decode_encode_of_wordShape {i : Instr} (h : Laws.WordShape.Statement i) : decode (encode i) = .ok i := by
  obtain ⟨hreserved, hargument⟩ := h
  rw [decode_of_opcode (opField_encode i), argField_encode, if_pos hreserved, hargument]

end Sys2Proof

namespace Sys2Proof.Machine

section verdicts
variable {f : Nat} {b : Rate}

theorem periodOf_zero (h : b.toNat = 0) : periodOf f b = .error .zeroBaud :=
  if_pos (BitVec.eq_of_toNat_eq h)

/-- At a rate other than 0 the verdict turns on the quotient alone. -/
theorem periodOf_of_ne_zero (h : b.toNat ≠ 0) : periodOf f b =
    if f / b.toNat = 0 then .error .periodZero
    else if 10 * (f / b.toNat) ≥ 2 ^ 32 then .error .frameTooLong
    else .ok (BitVec.ofNat 32 (f / b.toNat)) :=
  if_neg fun hb => h (congrArg BitVec.toNat hb)

theorem periodOf_above_clock (h : b.toNat ≠ 0) (hrate : f < b.toNat) : periodOf f b = .error .periodZero := by
  rw [periodOf_of_ne_zero h, if_pos (Nat.div_eq_of_lt hrate)]

theorem periodOf_long_frame (h : b.toNat ≠ 0) (hlong : 2 ^ 32 ≤ 10 * (f / b.toNat)) :
    periodOf f b = .error .frameTooLong := by
  rw [periodOf_of_ne_zero h, if_neg (by omega), if_pos hlong]

theorem periodOf_accepted (h : b.toNat ≠ 0) (hrate : b.toNat ≤ f) (hfits : 10 * (f / b.toNat) < 2 ^ 32) :
    periodOf f b = .ok (BitVec.ofNat 32 (f / b.toNat)) := by
  have hpos : f / b.toNat ≠ 0 := (Nat.div_pos hrate (Nat.pos_of_ne_zero h)).ne'
  rw [periodOf_of_ne_zero h, if_neg hpos, if_neg (Nat.not_le.mpr hfits)]

end verdicts

/-- The rate, the clock and the length of a frame leave four cases, and each has its own verdict (R90). -/
theorem periodOf_cases (f : Nat) (b : Rate) :
    (b.toNat = 0 ∧ periodOf f b = .error .zeroBaud) ∨
    (b.toNat ≠ 0 ∧ f < b.toNat ∧ periodOf f b = .error .periodZero) ∨
    (b.toNat ≠ 0 ∧ b.toNat ≤ f ∧ 2 ^ 32 ≤ 10 * (f / b.toNat) ∧ periodOf f b = .error .frameTooLong) ∨
    (b.toNat ≠ 0 ∧ b.toNat ≤ f ∧ 10 * (f / b.toNat) < 2 ^ 32 ∧
      periodOf f b = .ok (BitVec.ofNat 32 (f / b.toNat))) := by
  by_cases hzero : b.toNat = 0
  · exact .inl ⟨hzero, periodOf_zero hzero⟩
  rcases Nat.lt_or_ge f b.toNat with hrate | hrate
  · exact .inr (.inl ⟨hzero, hrate, periodOf_above_clock hzero hrate⟩)
  rcases Nat.lt_or_ge (10 * (f / b.toNat)) (2 ^ 32) with hfits | hlong
  · exact .inr (.inr (.inr ⟨hzero, hrate, hfits, periodOf_accepted hzero hrate hfits⟩))
  · exact .inr (.inr (.inl ⟨hzero, hrate, hlong, periodOf_long_frame hzero hlong⟩))

/-- Settles O12: each of the four cases of a rate has one verdict, and the cases exclude each other. -/
theorem periodIsRoundedQuotient : Obligations.PeriodIsRoundedQuotient := by
  intro f b
  rcases periodOf_cases f b with
    ⟨hzero, hv⟩ | ⟨hzero, hrate, hv⟩ | ⟨hzero, hrate, hlong, hv⟩ | ⟨hzero, hrate, hfits, hv⟩
  · simp [hv, hzero]
  · simp [hv, hzero, hrate, Nat.div_eq_of_lt hrate]
  · simp [-Nat.reducePow, hv, hzero, Nat.not_lt.mpr hrate, hlong, Nat.not_lt.mpr hlong]
  · have hword : ∀ p : Word, BitVec.ofNat 32 (f / b.toNat) = p ↔ p.toNat = f / b.toNat := fun p => by
      rw [← BitVec.toNat_inj, BitVec.toNat_ofNat, Nat.mod_eq_of_lt (by omega), eq_comm]
    simp [-Nat.reducePow, hv, hzero, Nat.not_lt.mpr hrate, hrate, hfits, Nat.not_le.mpr hfits, hword]

/-- A sample offset falls inside cell i + 1, so those of the data bits come before the stop bit (R93). -/
theorem mid_lt_deadline {period : Nat} (hpos : 0 < period) {i : Nat} (hi : i < 8) : mid period i < deadline period 9 :=
  calc mid period i = (i + 1) * period + period / 2 := rfl
    _ < (i + 1) * period + period := Nat.add_lt_add_left (Nat.div_lt_self hpos Nat.one_lt_two) _
    _ = (i + 2) * period := (Nat.succ_mul (i + 1) period).symm
    _ ≤ deadline period 9 := Nat.mul_le_mul_right period (by omega)

theorem deadline_mono (period : Nat) {k n : Nat} (h : k ≤ n) : deadline period k ≤ deadline period n :=
  Nat.mul_le_mul_right period h

/-- Settles O13: an accepted period is positive, and offsets and deadlines grow with their index. -/
theorem frameOffsetsFitTheCounter : Obligations.FrameOffsetsFitTheCounter := by
  intro f b p h
  obtain ⟨-, -, hpos, hfits⟩ := periodOf_ok h
  exact ⟨hfits, fun i hi => ⟨rfl, mid_lt_deadline hpos hi⟩, fun k hk => ⟨rfl, deadline_mono p.toNat hk⟩⟩

/-- The response of `baudRate` is the rate, zero-extended (R91). -/
@[simp] theorem ofRate_toNat (r : Rate) : (ofRate r).toNat = r.toNat :=
  BitVec.toNat_setWidth_of_le (by decide)

theorem exec_baudRate (s : State) : exec .baudRate s = .next (respond (ofRate s.baud) s) := rfl

/-- An accepted construction gives the reset state of R240. -/
theorem construct_next {p : Platform} {c : Construction} {s : State} (h : construct p c = .next s) :
    s = State.initial p c := by
  unfold construct at h
  split at h
  · split at h
    · cases h
    · injection h with h
      exact h.symm
  · cases h

theorem exec_begin_accepted {s : State} {baud : Rate} {p : Word} (h : periodOf s.platform.fClk baud = .ok p) :
    exec (.begin baud) s = .next (beginWith baud p s) := by
  simp only [exec, execBegin, h]

/-- A rejected rate marks the state and changes nothing else (R92, R213). -/
theorem exec_begin_rejected {s : State} {baud : Rate} {e : BaudRejection}
    (h : periodOf s.platform.fClk baud = .error e) :
    exec (.begin baud) s = .next { s with refusal := some .badBaud } := by
  simp only [exec, execBegin, h]

@[simp] theorem beginWith_baud (baud : Rate) (p : Word) (s : State) : (beginWith baud p s).baud = baud := by
  unfold beginWith
  dsimp only
  split <;> split <;> rfl

/-- `baudRate` keeps its effect on a marked state (R91, R213). -/
theorem runMove_marked_baudRate {s : State} {r : Refusal} {w : Word} (hmark : s.refusal = some r)
    (hd : decode w = .ok .baudRate) : runMove (.command w) s = .next (respond (ofRate s.baud) s) := by
  unfold runMove takeMarkedMove
  simp only [hmark, hd, exec_baudRate]

/-- What runs on a marked state keeps the mark and the rate (R91, R213). -/
theorem runMove_marked_keeps {s t : State} {m : Move} (hmark : s.refusal ≠ none) (h : runMove m s = .next t) :
    t.refusal = s.refusal ∧ t.baud = s.baud := by
  rcases runMove_cases h with ⟨hnone, -⟩ | ⟨-, -, rfl⟩ | ⟨-, w, -, -, rfl⟩
  · exact absurd hnone hmark
  · exact ⟨rfl, rfl⟩
  · exact ⟨respond_refusal .., respond_baud ..⟩

theorem step_marked_keeps {s t : State} (hmark : s.refusal ≠ none) (h : step s = .next t) :
    t.refusal = s.refusal ∧ t.baud = s.baud := by
  cases hsched : s.schedule with
  | nil =>
    rw [step_of_no_turn hsched] at h
    cases h
    exact ⟨rfl, rfl⟩
  | cons turn rest =>
    rw [step_of_turn hsched] at h
    exact runMove_marked_keeps (s := beginTurn turn rest s) hmark h

/-- A refused `begin` on the port of an unmarked idle block leaves the block as the turn found it, but for the mark (R213). -/
theorem step_begin_rejected {s : State} {baud : Rate} {e : BaudRejection} {t : Turn} {rest : List Turn}
    (hsched : s.schedule = t :: rest) (hmove : t.move = .command (encode (.begin baud))) (hbusy : s.busy = false)
    (hdestroyed : s.destroyed = false) (hmark : s.refusal = none) (he : periodOf s.platform.fClk baud = .error e) :
    step s = .next { beginTurn t rest s with refusal := some .badBaud } := by
  rw [step_of_turn hsched, hmove, runMove_command_ok (s := beginTurn t rest s) hbusy hdestroyed hmark
    (decode_encode_of_wordShape (Laws.WordShape.begin baud))]
  exact exec_begin_rejected he

theorem step_marked_baudRate {s : State} {r : Refusal} {t : Turn} {rest : List Turn} (hsched : s.schedule = t :: rest)
    (hmove : t.move = .command (encode .baudRate)) (hmark : s.refusal = some r) :
    step s = .next (respond (ofRate s.baud) (beginTurn t rest s)) := by
  rw [step_of_turn hsched, hmove]
  exact runMove_marked_baudRate (s := beginTurn t rest s) hmark
    (decode_encode_of_wordShape Laws.WordShape.baudRate)

/-- Settles O16: only an accepted `begin` sets the rate; a refused one sets the mark, under which `baudRate` still runs. -/
theorem baudRateResponds : Obligations.BaudRateResponds := by
  refine ⟨rfl, fun s => ⟨_, ofRate_toNat s.baud, exec_baudRate s⟩, fun p c s h => ?initial, fun s baud p h => ?accepted,
    ?refused, fun s t r hmark h => ?marked⟩
  case initial => rw [construct_next h]; rfl
  case accepted => exact ⟨_, exec_begin_accepted h, beginWith_baud baud p s⟩
  case refused =>
    intro s baud e t t' rest hsched hmove hmove' hbusy hdestroyed hmark he
    have hbegin := step_begin_rejected hsched hmove hbusy hdestroyed hmark he
    have hrate := step_marked_baudRate (s := { beginTurn t (t' :: rest) s with refusal := some .badBaud }) rfl hmove' rfl
    have hrun := (run_succ_next hbegin).trans ((run_succ_next hrate).trans (run_zero _))
    exact ⟨_, _, hrun, ofRate_toNat s.baud, rfl, rfl, rfl⟩
  case marked =>
    obtain ⟨hrefusal, hbaud⟩ := step_marked_keeps (by simp [hmark]) h
    exact ⟨hrefusal.trans hmark, hbaud⟩

end Sys2Proof.Machine
end

section
/-! PROOFS. Family 42_rx_assembly.md: the read surface of the ring (R120 to R126), elapsed time (R114), the evaluations without effect
(R111) and `poll` (R112). -/

namespace Sys2Proof.Machine

/-! ### The oldest byte -/

/-- A ring whose cursors meet holds nothing, whatever its cells hold (R52). -/
theorem contents_of_empty {s : State} (hempty : s.head = s.tail) : contents s = [] := by
  simp [contents, ringCount_self s hempty]

/-- The state after the oldest byte was taken: `tail` has moved on (R54). -/
def dropOldest (s : State) : State := { s with tail := s.nextCell s.tail }

/-- A ring whose cursors differ holds the byte of the cell at `tail`, and behind it what is left once `tail` has moved on. -/
theorem Inv.contents_cons {s : State} (h : Inv s) (hne : s.head ≠ s.tail) :
    ∃ b, s.buf.read s.tail = some b ∧ contents s = b :: contents (dropOldest s) := by
  have hcount : ringCount s = ringCount (dropOldest s) + 1 := (ringCount_pop h.headRange h.tailRange hne).symm
  have hfirst : (s.tail + 0) % s.construction.cap = s.tail := Nat.mod_eq_of_lt h.tailRange
  have hcell : ∀ i, (s.tail + (i + 1)) % s.construction.cap = (s.nextCell s.tail + i) % s.construction.cap :=
    fun i => (ring_cell_pop s.tail s.construction.cap i).symm
  obtain ⟨b, hb⟩ := h.held 0 (by omega)
  refine ⟨b, hfirst ▸ hb, ?_⟩
  unfold contents
  simp only [hcount, List.range_succ_eq_map, List.filterMap_cons, List.filterMap_map, hb]
  exact congrArg (b :: ·) (List.filterMap_congr fun i _ => congrArg s.buf.read (hcell i))

theorem Inv.contents_eq_nil_iff {s : State} (h : Inv s) : contents s = [] ↔ s.head = s.tail := by
  refine ⟨fun hnil => ?_, contents_of_empty⟩
  by_contra hne
  obtain ⟨b, -, hcons⟩ := h.contents_cons hne
  exact List.cons_ne_nil _ _ (hcons.symm.trans hnil)

/-- `RingPeek` answers the oldest byte, and NoData when there is none (R54). -/
theorem ringPeek_eq {s : State} (h : Inv s) : ringPeek s = .ok (contents s).head? := by
  unfold ringPeek
  split
  next hempty => rw [contents_of_empty hempty]; rfl
  next hne =>
    obtain ⟨b, hread, hcons⟩ := h.contents_cons hne
    rw [memRead_of_written h.tailRange hread, hcons]
    rfl

theorem ringPop_of_empty {s : State} (hempty : s.head = s.tail) : ringPop s = .ok (none, s) :=
  if_pos hempty

/-- `RingPop` of a ring that holds bytes answers the one at `tail` and moves `tail` on (R54). -/
theorem ringPop_of_held {s : State} (h : Inv s) (hne : s.head ≠ s.tail) {b : Byte} (hread : s.buf.read s.tail = some b) :
    ringPop s = .ok (some b, dropOldest s) := by
  unfold ringPop
  rw [if_neg hne, memRead_of_written h.tailRange hread]
  rfl

/-! ### Responses -/

/-- The response of a byte is its number, zero-extended (R78). -/
@[simp] theorem ofByte_toNat (v : Byte) : (ofByte v).toNat = v.toNat :=
  BitVec.toNat_setWidth_of_le (by decide)

theorem ofFlag_eq_ite (b : Bool) : ofFlag b = if b then 1#32 else 0#32 := by
  cases b <;> rfl

/-- The count fits the response, since CAP is at most 65536 (R120). -/
theorem Inv.ofCount_ringCount_toNat {s : State} (h : Inv s) : (ofCount (ringCount s)).toNat = ringCount s := by
  have hlt := ringCount_lt s (Nat.zero_lt_of_lt h.headRange)
  have hcap := h.capRange.2
  exact Nat.mod_eq_of_lt (by omega)

/-! ### The commands of the read surface -/

theorem exec_available (s : State) : exec .available s = .next (respond (ofCount (ringCount s)) s) := rfl

theorem exec_peek {s : State} (h : Inv s) : exec .peek s = .next (respond (ofRingAnswer (contents s).head?) s) := by
  simp only [exec, execPeek, ringPeek_eq h]

theorem exec_read_of_pop {s t : State} {r : Option Byte} (hpop : ringPop s = .ok (r, t)) :
    exec .read s = .next (respond (ofRingAnswer r) t) := by
  simp only [exec, execRead, hpop]

theorem exec_flush (s : State) : exec .flush s = .next (respond 0#32 (ringFlush s)) := rfl

theorem exec_overflow (s : State) : exec .overflow s = .next (respond (ofFlag s.overflow) { s with overflow := false }) :=
  rfl

/-- Settles O17: the count is that of the bytes held, below CAP, and 0 only when the cursors meet. -/
theorem availableCountsHeldBytes : Obligations.AvailableCountsHeldBytes := by
  refine ⟨rfl, fun s h => ?_⟩
  have hcount := h.ofCount_ringCount_toNat
  have hbound := ringCount_lt s (Nat.zero_lt_of_lt h.headRange)
  exact ⟨ofCount (ringCount s), hcount, hcount.trans (contents_length h).symm,
    hcount.trans_le (Nat.le_sub_one_of_lt hbound), h.contents_eq_nil_iff, exec_available s⟩

/-- Settles O18: `peek` responds the head of the list of bytes held. -/
theorem peekRespondsOldest : Obligations.PeekRespondsOldest := by
  refine ⟨rfl, fun s h => ⟨ofRingAnswer (contents s).head?, ?_, exec_peek h⟩⟩
  cases contents s with
  | nil => rfl
  | cons b rest => exact ofByte_toNat b

/-- Settles O19: the cursors meet exactly when nothing is held; otherwise the byte at `tail` is the oldest. -/
theorem readRemovesOldest : Obligations.ReadRemovesOldest := by
  refine ⟨rfl, fun s h => ⟨fun hnil => ?_, fun b rest hheld => ?_⟩⟩
  · exact exec_read_of_pop (ringPop_of_empty (h.contents_eq_nil_iff.mp hnil))
  · have hne : s.head ≠ s.tail := fun hempty => by simp [contents_of_empty hempty] at hheld
    obtain ⟨v, hread, hcons⟩ := h.contents_cons hne
    obtain ⟨rfl, hrest⟩ := List.cons.inj (hcons.symm.trans hheld)
    exact ⟨ofByte v, ofByte_toNat v, exec_read_of_pop (ringPop_of_held h hne hread), hrest⟩

/-- Settles O20: after `flush` the cursors meet. -/
theorem flushEmptiesTheRing : Obligations.FlushEmptiesTheRing :=
  ⟨rfl, fun s => ⟨exec_flush s, contents_of_empty rfl, ringCount_self _ rfl⟩⟩

/-- Settles O21: the response is the flag before the same step clears it. -/
theorem overflowReadsAndClears : Obligations.OverflowReadsAndClears := by
  refine ⟨rfl, fun s => ?_⟩
  rw [exec_overflow, ofFlag_eq_ite]
  rfl

/-! ### Elapsed time and evaluations -/

/-- Settles O14: subtraction of words wraps, and it undoes the addition of the cycles that passed. -/
theorem elapsedTimeWraps : Obligations.ElapsedTimeWraps := by
  refine ⟨fun ref t => ?_, fun ref d hd => ?_⟩
  · have href := ref.isLt
    unfold elapsedSince
    rw [BitVec.toNat_sub]
    congr 1
    omega
  · unfold elapsedSince
    rw [add_sub_cancel_left, BitVec.toNat_ofNat, Nat.mod_eq_of_lt hd]

/-- The loop of R105 stops at once when the next midpoint has not passed. -/
theorem advance_before_mid {period e i : Nat} (hbefore : e < mid period i) (bit : Bool) (cells : Nat) (acc : Byte) :
    advance period e bit cells i acc = (i, acc) := by
  cases cells with
  | zero => rfl
  | succ cells => exact if_neg (Nat.not_le.mpr hbefore)

/-- Inside a frame an evaluation before the next midpoint advances nothing, and no start is recognised there (R111). -/
theorem evaluate_before_mid {s : State} {i : Fin 8} (k : EvalKind) (hi : s.rxIdx = .data i)
    (hbefore : elapsedSince s.rxRef s.cycle < mid s.period.toNat i.val) : evaluate k s = .ok s := by
  have hstay : { s with rxIdx := .data i, rxAcc := s.rxAcc } = s := by rw [← hi]
  have hadvance : advancePhase k s = .ok s := by
    unfold advancePhase
    simp only [hi, advance_before_mid hbefore, i.isLt, dif_pos, Fin.eta, hstay]
  have hstart : startPhase k s = s := if_neg fun hidle => by simp [hi] at hidle
  simp only [evaluate, hadvance, hstart]

/-- Settles O25: inside a frame no midpoint has passed; in idle only an edge to START_LEVEL has an effect. -/
theorem evaluationWithoutEffect : Obligations.EvaluationWithoutEffect := by
  refine fun s k => ⟨fun i hi hbefore => evaluate_before_mid k hi hbefore, fun hidle hquiet => ?_⟩
  cases k with
  | poll => exact evaluate_idle_poll hidle
  | edge => exact evaluate_idle_other hidle (hquiet.resolve_left (by decide))

theorem exec_poll_detached {s : State} (h : s.rxValid = false ∨ s.rxEnabled = false) :
    exec .poll s = .next (respond 0#32 s) :=
  if_neg (by rcases h with h | h <;> simp [h])

theorem exec_poll_attached {s t : State} (hvalid : s.rxValid = true) (henabled : s.rxEnabled = true)
    (heval : evaluate .poll s = .ok t) : exec .poll s = .next (respond 0#32 t) := by
  simp only [exec, execPoll, hvalid, henabled, Bool.and_self, if_true, heval]

/-- Settles O31: under the invariant the evaluation of an attached receiver completes, since `head` is below CAP. -/
theorem pollEvaluatesWhenAttached : Obligations.PollEvaluatesWhenAttached := by
  refine ⟨rfl, fun s => ⟨exec_poll_detached, fun h hvalid henabled => ?_⟩⟩
  obtain ⟨t, heval⟩ := evaluate_total h .poll
  exact ⟨t, heval, exec_poll_attached hvalid henabled heval⟩

end Sys2Proof.Machine
end

section
/-! PROOFS. Family 43_tx_emitter.md: a flag as an operand field (R71), and `enableIntTx` (R150). -/

namespace Sys2Proof

/-- A flag as an operand field leaves the 23 bits above it 0 (R71). -/
theorem append_setWidth_ofBool (op : BitVec 8) (on : Bool) :
    op ++ (BitVec.ofBool on).setWidth 24 = op ++ 0#23 ++ BitVec.ofBool on := by
  have hfield : (BitVec.ofBool on).setWidth 24 = 0#23 ++ BitVec.ofBool on := by cases on <;> rfl
  rw [hfield, BitVec.append_assoc, BitVec.cast_eq]

theorem encode_enableIntTx (on : Bool) : encode (.enableIntTx on) = 0x04#8 ++ 0#23 ++ BitVec.ofBool on :=
  append_setWidth_ofBool 0x04#8 on

end Sys2Proof

namespace Sys2Proof.Machine

theorem exec_enableIntTx (on : Bool) (s : State) :
    exec (.enableIntTx on) s = .next (respond 0#32 { s with intTxEnabled := on }) := rfl

/-- Settles O38: the command's one update is the flag, and the response puts 0 on the port and on the record. -/
theorem enableIntTxSets : Obligations.EnableIntTxSets :=
  fun s on => ⟨encode_enableIntTx on, exec_enableIntTx on s⟩

end Sys2Proof.Machine
end

section
/-! PROOFS. Family 44_notification.md: the notification handler (R170). -/

namespace Sys2Proof

theorem encode_onReceive (handler : HandlerId) : encode (.onReceive handler) = 0x0E#8 ++ handler := rfl

end Sys2Proof

namespace Sys2Proof.Machine

/-- Registering looks at no byte of the ring: the handler and the response are all it writes. -/
theorem exec_onReceive (handler : HandlerId) (s : State) :
    exec (.onReceive handler) s = .next (respond 0#32 { s with handler := handler }) := rfl

/-- Settles O39: the one update is the handler, and the one event is the response 0. -/
theorem onReceiveReplacesHandler : Obligations.OnReceiveReplacesHandler :=
  fun s handler => ⟨encode_onReceive handler, exec_onReceive handler s⟩

end Sys2Proof.Machine
end

section
/-! PROOFS. Family 45_lifecycle.md: the gate of the four reception commands as one update (R183), one-wire mode by its pins (R10),
and the lifecycle commands that respond without a rate. -/

namespace Sys2Proof

theorem encode_enableRx (on : Bool) : encode (.enableRx on) = 0x0B#8 ++ 0#23 ++ BitVec.ofBool on :=
  append_setWidth_ofBool 0x0B#8 on

theorem encode_enableTx (on : Bool) : encode (.enableTx on) = 0x0C#8 ++ 0#23 ++ BitVec.ofBool on :=
  append_setWidth_ofBool 0x0C#8 on

end Sys2Proof

namespace Sys2Proof.Machine

/-! ### Reception -/

theorem setReception_of_invalid {s : State} (h : s.rxValid = false) (on : Bool) : setReception on s = s := by
  simp only [setReception, h, Bool.false_eq_true, ↓reduceIte]

/-- Attaching and detaching differ in the flag alone: both reset the assembly (R183). -/
theorem setReception_of_valid {s : State} (h : s.rxValid = true) (on : Bool) :
    setReception on s = { s with rxEnabled := on, rxIdx := .idle, rxAcc := 0#8 } := by
  simp only [setReception, if_pos h]
  cases on <;> rfl

/-- The three aliases of `enableRx` run it with their fixed flag (R188, R190, R191). -/
theorem exec_reception {i : Instr} {on : Bool} (s : State)
    (hi : i = .enableRx on ∨ (i = .listen ∧ on = true) ∨ (i = .endRx ∧ on = false) ∨ (i = .stopListening ∧ on = false)) :
    exec i s = .next (respond 0#32 (setReception on s)) := by
  obtain rfl | ⟨rfl, rfl⟩ | ⟨rfl, rfl⟩ | ⟨rfl, rfl⟩ := hi <;> rfl

/-- Settles O40: an invalid receive pin leaves the state to the response alone, a valid one lets the flag and the assembly's reset
through. -/
theorem receptionCommandsGated : Obligations.ReceptionCommandsGated := by
  refine ⟨⟨encode_enableRx, rfl, rfl, rfl⟩, fun s i on hi => ?_⟩
  rw [exec_reception s hi]
  by_cases hvalid : s.rxValid = true
  · simp only [setReception_of_valid hvalid, if_pos hvalid]; rfl
  · simp only [setReception_of_invalid (Bool.eq_false_of_not_eq_true hvalid), if_neg hvalid]; rfl

/-! ### The direction of the shared pin -/

/-- Of ONE_WIRE's three tests (R10) the one of the transmit pin follows from the other two. -/
theorem oneWire_iff (s : State) :
    s.oneWire = true ↔ s.construction.rxPin ≠ noPin ∧ s.construction.rxPin = s.construction.txPin := by
  simp only [State.oneWire, Bool.and_eq_true, bne_iff_ne, beq_iff_eq]
  exact ⟨fun ⟨⟨hrx, _⟩, heq⟩ => ⟨hrx, heq⟩, fun ⟨hrx, heq⟩ => ⟨⟨hrx, heq ▸ hrx⟩, heq⟩⟩

theorem exec_enableTx (on : Bool) (s : State) :
    exec (.enableTx on) s = .next (respond 0#32 (if s.oneWire && s.txValid then { s with lineOut := on } else s)) := rfl

/-- Settles O41: the command's gate is one-wire mode with a valid transmit pin, and the direction is all that passes it. -/
theorem enableTxSwitchesDirection : Obligations.EnableTxSwitchesDirection := by
  refine fun s on => ⟨encode_enableTx on, ?_⟩
  have hgate : (s.oneWire && s.txValid) = true ↔
      s.construction.rxPin ≠ noPin ∧ s.construction.rxPin = s.construction.txPin ∧ s.txValid = true := by
    rw [Bool.and_eq_true, oneWire_iff, and_assoc]
  rw [exec_enableTx]
  by_cases hpass : (s.oneWire && s.txValid) = true
  · rw [if_pos hpass, if_pos (hgate.mp hpass)]; rfl
  · rw [if_neg hpass, if_neg (mt hgate.mpr hpass)]; rfl

/-! ### The reported flags -/

theorem exec_valid (s : State) : exec .valid s = .next (respond (ofFlag (s.rxValid || s.txValid)) s) := rfl

theorem exec_isListening (s : State) : exec .isListening s = .next (respond (ofFlag s.rxEnabled) s) := rfl

/-- Settles O43: each command's one event is the response of its flag, the disjunction of the two validities for `valid`. -/
theorem statusCommandsReport : Obligations.StatusCommandsReport := by
  refine ⟨⟨rfl, rfl⟩, fun s => ⟨?_, ?_⟩⟩
  · rw [exec_valid, ofFlag_eq_ite]
    simp only [Bool.or_eq_true]
    rfl
  · rw [exec_isListening, ofFlag_eq_ite]
    rfl

end Sys2Proof.Machine
end

section
/-! PROOFS. Family 70_reset_and_hazards.md: what construction accepts (R9, R224), and the state it gives (R240). -/

namespace Sys2Proof

/-- The sizes of R9. -/
theorem Construction.wellFormed_iff (c : Construction) : c.wellFormed = true ↔ 1 ≤ c.cap ∧ c.cap ≤ 65536 := by
  simp only [Construction.wellFormed, Bool.and_eq_true, decide_eq_true_eq]

end Sys2Proof

namespace Sys2Proof.Machine

/-- A pin is free for a construction when it is NONE or no other UART uses it (R224). -/
theorem pinTaken_eq_false_iff (used : List PinId) (pin : PinId) :
    pinTaken used pin = false ↔ pin = noPin ∨ pin ∉ used := by
  simp only [pinTaken, Bool.and_eq_false_iff, bne_eq_false_iff_eq, List.contains_eq_mem, decide_eq_false_iff_not]

/-- A construction of an allowed size on free pins is accepted, on every platform (R9, R213, R224). -/
theorem construct_accepted {p : Platform} {c : Construction} (hsize : c.wellFormed = true)
    (hrx : pinTaken p.pinsInUse c.rxPin = false) (htx : pinTaken p.pinsInUse c.txPin = false) :
    construct p c = .next (State.initial p c) := by
  simp only [construct, hsize, hrx, htx, Bool.or_self, Bool.false_eq_true, ↓reduceIte]

/-- Settles O46: the size and the pins pass both tests of construction, and its state has the listed values by definition. -/
theorem constructionGivesResetState : Obligations.ConstructionGivesResetState := by
  refine ⟨fun r t => ⟨rfl, rfl⟩, fun p c hmin hmax hrx htx => ⟨State.initial p c, ?_, ?_⟩⟩
  · exact construct_accepted (c.wellFormed_iff.mpr ⟨hmin, hmax⟩)
      ((pinTaken_eq_false_iff _ _).mpr hrx) ((pinTaken_eq_false_iff _ _).mpr htx)
  · and_intros <;> rfl

end Sys2Proof.Machine
end

section
/-! PROOFS. The encoding as a whole (R70 to R76, R82): the decoder and the encoder invert each other, the decoder agrees with the
match and mask columns, and the words of the vectors and of the assembler's examples. -/

namespace Sys2Proof

/-- Every instruction has an operand field of its format, from which it is assembled again (R71, R72). -/
theorem Instr.wordShape (i : Instr) : Laws.WordShape.Statement i := by
  cases i with
  | begin baud => exact Laws.WordShape.begin baud
  | baudRate => exact Laws.WordShape.baudRate
  | setTransmitEnablePin pin => exact Laws.WordShape.setTransmitEnablePin pin
  | enableIntTx on => exact Laws.WordShape.enableIntTx on
  | available => exact Laws.WordShape.available
  | peek => exact Laws.WordShape.peek
  | read => exact Laws.WordShape.read
  | flush => exact Laws.WordShape.flush
  | write byte => exact Laws.WordShape.write byte
  | valid => exact Laws.WordShape.valid
  | enableRx on => exact Laws.WordShape.enableRx on
  | enableTx on => exact Laws.WordShape.enableTx on
  | overflow => exact Laws.WordShape.overflow
  | onReceive handler => exact Laws.WordShape.onReceive handler
  | listen => exact Laws.WordShape.listen
  | endRx => exact Laws.WordShape.endRx
  | isListening => exact Laws.WordShape.isListening
  | stopListening => exact Laws.WordShape.stopListening
  | poll => exact Laws.WordShape.poll

/-- Settles O2: every instruction's operand field leaves the reserved bits 0 and assembles to the instruction. -/
theorem decodeInvertsEncode : Obligations.DecodeInvertsEncode :=
  fun i => decode_encode_of_wordShape i.wordShape

@[simp] theorem Mnemonic.withArgument_mnemonic (m : Mnemonic) (arg : BitVec 24) : (m.withArgument arg).mnemonic = m := by
  cases m <;> rfl

/-- What a word that decodes tells of its fields: OP is the row's, the reserved bits are 0, and ARG gives the operand. -/
theorem decode_ok {w : Word} {i : Instr} (h : decode w = .ok i) :
    opField w = i.mnemonic.opcode ∧ argField w &&& i.mnemonic.format.reserved = 0#24 ∧
      i = i.mnemonic.withArgument (argField w) := by
  unfold decode at h
  split at h
  next => cases h
  next m hrow =>
    split at h
    next hreserved =>
      injection h with h
      subst h
      rw [Mnemonic.withArgument_mnemonic]
      exact ⟨(Mnemonic.opcode_of_ofOpcode hrow).symm, hreserved, rfl⟩
    next => cases h

/-- A field whose bits from `n` on are 0 is its low `n` bits, zero-extended. -/
theorem setWidth_setWidth_of_high_zero {arg : BitVec 24} {n : Nat} (h : arg &&& (BitVec.allOnes 24 <<< n) = 0#24) :
    (arg.setWidth n).setWidth 24 = arg := by
  refine BitVec.eq_of_getLsbD_eq fun k hk => ?_
  have hbit : (arg &&& (BitVec.allOnes 24 <<< n)).getLsbD k = false := by rw [h]; exact BitVec.getLsbD_zero
  simp only [BitVec.getLsbD_and, BitVec.getLsbD_shiftLeft, BitVec.getLsbD_allOnes, hk, decide_true, Bool.true_and,
    show k - n < 24 by omega, Bool.and_true] at hbit
  by_cases hlow : k < n <;> simp_all

theorem setWidth_byteField {arg : BitVec 24} (h : arg &&& 0xFFFF00#24 = 0#24) :
    (arg.extractLsb' 0 8).setWidth 24 = arg := by
  rw [← BitVec.setWidth_eq_extractLsb' (by decide)]
  exact setWidth_setWidth_of_high_zero (n := 8) h

theorem setWidth_flagField {arg : BitVec 24} (h : arg &&& 0xFFFFFE#24 = 0#24) :
    (BitVec.ofBool (arg.getLsbD 0)).setWidth 24 = arg := by
  have hlow : BitVec.ofBool (arg.getLsbD 0) = arg.setWidth 1 := by
    refine BitVec.eq_of_getLsbD_eq fun k hk => ?_
    obtain rfl : k = 0 := by omega
    simp
  rw [hlow]
  exact setWidth_setWidth_of_high_zero (n := 1) h

/-- A field whose reserved bits are 0 is the operand field of the instruction assembled from it (R71, R72). -/
theorem Mnemonic.argument_withArgument (m : Mnemonic) {arg : BitVec 24} (h : arg &&& m.format.reserved = 0#24) :
    (m.withArgument arg).argument = arg := by
  cases m
  case begin | onReceive => rfl
  case setTransmitEnablePin | write => exact setWidth_byteField h
  case enableIntTx | enableRx | enableTx => exact setWidth_flagField h
  all_goals exact (BitVec.and_allOnes.symm.trans h).symm

/-- Settles O3: OP names the row, and a field with its reserved bits 0 is the operand field again. -/
theorem decodedWordIsEncoding : Obligations.DecodedWordIsEncoding := by
  intro w i h
  obtain ⟨hop, hreserved, hi⟩ := decode_ok h
  have harg : i.argument = argField w := by
    rw [hi]
    exact i.mnemonic.argument_withArgument hreserved
  calc encode i = i.mnemonic.opcode ++ i.argument := rfl
    _ = opField w ++ argField w := by rw [hop, harg]
    _ = w := opField_append_argField w

/-- A mnemonic has one row. -/
theorem OpcodeRow.eq_of_mnemonic_eq {r r' : OpcodeRow} (hr : r ∈ opcodeTable) (hr' : r' ∈ opcodeTable)
    (h : r.mnemonic = r'.mnemonic) : r = r' := by
  have htable : ∀ r ∈ opcodeTable, ∀ r' ∈ opcodeTable, r.mnemonic = r'.mnemonic → r = r' := by decide
  exact htable r hr r' hr' h

/-- Settles O4: matching a row and decoding to a command of it are one test of the two fields, and OP names one row. -/
theorem wordSelectsMatchingRow : Obligations.WordSelectsMatchingRow := by
  refine fun w => ⟨fun r hr => ⟨fun hmatch => ?_, fun ⟨i, hd, hi⟩ => ?_⟩, fun r hr r' hr' hmatch hmatch' => ?_⟩
  · exact ⟨_, decode_of_match hr hmatch, Mnemonic.withArgument_mnemonic _ _⟩
  · obtain ⟨hop, hreserved, -⟩ := decode_ok hd
    exact (OpcodeRow.matches_iff hr w).mpr (hi ▸ ⟨hop, hreserved⟩)
  · have hrow := (decode_of_match hr hmatch).symm.trans (decode_of_match hr' hmatch')
    have hmnemonic := congrArg Instr.mnemonic (Except.ok.inj hrow)
    rw [Mnemonic.withArgument_mnemonic, Mnemonic.withArgument_mnemonic] at hmnemonic
    exact OpcodeRow.eq_of_mnemonic_eq hr hr' hmnemonic

/-- Settles O1: eleven fixed words, evaluated. -/
theorem vectorWordsDecode : Obligations.VectorWordsDecode := by
  unfold Obligations.VectorWordsDecode
  decide

/-- Settles O7: six fixed lines, evaluated. -/
theorem assemblerExamples : Obligations.AssemblerExamples := by
  and_intros <;> rfl

end Sys2Proof
end

section
/-! PROOFS. What the commands do, each as one update of the state, and all that a command and an agent's move can do when they
complete: the case analysis every rule about steps starts from. -/

namespace Sys2Proof

/-- The commands that only respond. -/
def Instr.Reports (i : Instr) : Prop := i = .baudRate ∨ i = .available ∨ i = .peek ∨ i = .valid ∨ i = .isListening

/-- `enableRx` and its aliases, with the flag they set (R183, R188, R190, R191). -/
def Instr.SetsReception (i : Instr) (on : Bool) : Prop :=
  i = .enableRx on ∨ (i = .listen ∧ on = true) ∨ (i = .endRx ∧ on = false) ∨ (i = .stopListening ∧ on = false)

end Sys2Proof

namespace Sys2Proof.Machine

/-! ### The branching operations as one update -/

/-- An accepted `begin` as one update of the state it starts in (R180). -/
theorem beginWith_eq (baud : Rate) (p : Word) (s : State) : beginWith baud p s =
    { s with
      baud := baud
      period := p
      rxValid := s.rxPinValid
      txValid := s.txPinValid
      txLevel := if s.txPinValid then !s.construction.invert else s.txLevel
      rxEnabled := if s.rxPinValid then true else s.rxEnabled
      rxIdx := if s.rxPinValid then .idle else s.rxIdx
      rxAcc := if s.rxPinValid then 0#8 else s.rxAcc
      resp := 0#32
      outputs := s.outputs ++ (if s.txPinValid then [.drive s.construction.txPin (!s.construction.invert) s.cycle] else []) ++
        [.response 0#32] } := by
  cases htx : s.txPinValid <;> cases hrx : s.rxPinValid <;>
    simp [beginWith, htx, hrx, driveTx, rxEnable, respond, emit, idleLevel]

/-- `setTransmitEnablePin` with a pin that does not clash, as one update (R186). -/
theorem assignTePin_eq (pin : PinId) (s : State) : assignTePin pin s =
    { s with
      tePin := pin
      teValid := pinValid s.platform.validTx pin
      teLevel := if pinValid s.platform.validTx pin then false else s.teLevel
      resp := 0#32
      outputs := s.outputs ++ (if pinValid s.platform.validTx pin then [.drive pin false s.cycle] else []) ++
        [.response 0#32] } := by
  cases hpin : pinValid s.platform.validTx pin <;> simp [assignTePin, hpin, driveTe, respond, emit]

/-- The gate of the reception commands as one update (R183). -/
theorem setReception_eq (on : Bool) (s : State) : setReception on s =
    { s with
      rxEnabled := if s.rxValid then on else s.rxEnabled
      rxIdx := if s.rxValid then .idle else s.rxIdx
      rxAcc := if s.rxValid then 0#8 else s.rxAcc } := by
  by_cases hvalid : s.rxValid = true
  · simp only [setReception_of_valid hvalid, if_pos hvalid]
  · simp only [setReception_of_invalid (Bool.eq_false_of_not_eq_true hvalid), if_neg hvalid]

/-- `enableTx` before its response, as one update (R185). -/
theorem switchLine_eq (on : Bool) (s : State) : (if s.oneWire && s.txValid then { s with lineOut := on } else s) =
    { s with lineOut := if s.oneWire && s.txValid then on else s.lineOut } := by
  split <;> rfl

/-! ### Commands -/

theorem exec_setTransmitEnablePin_clash {s : State} {pin : PinId} (h : s.teClash pin = true) :
    exec (.setTransmitEnablePin pin) s = .refused .tePinClash :=
  if_pos h

theorem exec_setTransmitEnablePin {s : State} {pin : PinId} (h : s.teClash pin = false) :
    exec (.setTransmitEnablePin pin) s = .next (assignTePin pin s) :=
  if_neg (by simp [h])

theorem exec_write_valid {s : State} (h : s.txValid = true) (byte : Byte) :
    exec (.write byte) s = .next (writeSetup byte s) :=
  if_pos h

theorem exec_write_invalid {s : State} (h : s.txValid = false) (byte : Byte) :
    exec (.write byte) s = .next (respond 0#32 s) :=
  if_neg (by simp [h])

/-- All that a command can do when it completes, from the state `s`. -/
inductive CommandEffect (s : State) : Instr → State → Prop
  | began {baud : Rate} {p : Word} (hperiod : periodOf s.platform.fClk baud = .ok p) :
      CommandEffect s (.begin baud) (beginWith baud p s)
  | rejected {baud : Rate} {e : BaudRejection} (hperiod : periodOf s.platform.fClk baud = .error e) :
      CommandEffect s (.begin baud) { s with refusal := some .badBaud }
  | reported {i : Instr} (hi : i.Reports) (v : Word) : CommandEffect s i (respond v s)
  | assigned {pin : PinId} (hclash : s.teClash pin = false) :
      CommandEffect s (.setTransmitEnablePin pin) (assignTePin pin s)
  | chose (on : Bool) : CommandEffect s (.enableIntTx on) (respond 0#32 { s with intTxEnabled := on })
  | popped {r : Option Byte} {u : State} (hpop : ringPop s = .ok (r, u)) :
      CommandEffect s .read (respond (ofRingAnswer r) u)
  | flushed : CommandEffect s .flush (respond 0#32 (ringFlush s))
  | wrote (byte : Byte) (hvalid : s.txValid = true) : CommandEffect s (.write byte) (writeSetup byte s)
  | unwritten (byte : Byte) (hvalid : s.txValid = false) : CommandEffect s (.write byte) (respond 0#32 s)
  | received {i : Instr} {on : Bool} (hi : i.SetsReception on) :
      CommandEffect s i (respond 0#32 (setReception on s))
  | switched (on : Bool) : CommandEffect s (.enableTx on)
      (respond 0#32 { s with lineOut := if s.oneWire && s.txValid then on else s.lineOut })
  | cleared : CommandEffect s .overflow (respond (ofFlag s.overflow) { s with overflow := false })
  | registered (handler : HandlerId) : CommandEffect s (.onReceive handler) (respond 0#32 { s with handler := handler })
  | polled {u : State} (hvalid : s.rxValid = true) (henabled : s.rxEnabled = true) (heval : evaluate .poll s = .ok u) :
      CommandEffect s .poll (respond 0#32 u)
  | unpolled (hoff : s.rxValid = false ∨ s.rxEnabled = false) : CommandEffect s .poll (respond 0#32 s)

theorem exec_effect {i : Instr} {s t : State} (h : exec i s = .next t) : CommandEffect s i t := by
  cases i
  case begin baud =>
    cases hperiod : periodOf s.platform.fClk baud with
    | ok p => rw [exec_begin_accepted hperiod] at h; cases h; exact .began hperiod
    | error e => rw [exec_begin_rejected hperiod] at h; cases h; exact .rejected hperiod
  case setTransmitEnablePin pin =>
    cases hclash : s.teClash pin with
    | true => rw [exec_setTransmitEnablePin_clash hclash] at h; cases h
    | false => rw [exec_setTransmitEnablePin hclash] at h; cases h; exact .assigned hclash
  case peek =>
    simp only [exec, execPeek] at h
    split at h <;> cases h
    exact .reported (by simp [Instr.Reports]) _
  case read =>
    simp only [exec, execRead] at h
    split at h <;> cases h
    exact .popped ‹_›
  case write byte =>
    cases hvalid : s.txValid with
    | true => rw [exec_write_valid hvalid] at h; cases h; exact .wrote byte hvalid
    | false => rw [exec_write_invalid hvalid] at h; cases h; exact .unwritten byte hvalid
  case poll =>
    by_cases hon : s.rxValid = true ∧ s.rxEnabled = true
    · obtain ⟨u, heval, rfl⟩ := poll_evaluates h hon.1 hon.2
      exact .polled hon.1 hon.2 heval
    · have hoff : s.rxValid = false ∨ s.rxEnabled = false := by simpa [imp_iff_not_or] using hon
      rw [exec_poll_detached hoff] at h
      cases h
      exact .unpolled hoff
  case baudRate | available | valid | isListening => cases h; exact .reported (by simp [Instr.Reports]) _
  case enableRx on => cases h; exact .received (.inl rfl)
  case listen => cases h; exact .received (.inr (.inl ⟨rfl, rfl⟩))
  case endRx => cases h; exact .received (.inr (.inr (.inl ⟨rfl, rfl⟩)))
  case stopListening => cases h; exact .received (.inr (.inr (.inr ⟨rfl, rfl⟩)))
  case enableTx on => rw [exec_enableTx, switchLine_eq] at h; cases h; exact .switched on
  case enableIntTx on => cases h; exact .chose on
  case flush => cases h; exact .flushed
  case overflow => cases h; exact .cleared
  case onReceive handler => cases h; exact .registered handler

/-- Under the invariant a command completes, but for a clash of the TE pin: the ring accesses stay in cells that hold a byte. -/
theorem exec_total {s : State} (h : Inv s) (i : Instr) :
    (∃ t, exec i s = .next t) ∨
      (∃ pin, i = .setTransmitEnablePin pin ∧ s.teClash pin = true ∧ exec i s = .refused .tePinClash) := by
  cases i
  case begin baud =>
    cases hperiod : periodOf s.platform.fClk baud with
    | ok p => exact .inl ⟨_, exec_begin_accepted hperiod⟩
    | error e => exact .inl ⟨_, exec_begin_rejected hperiod⟩
  case setTransmitEnablePin pin =>
    cases hclash : s.teClash pin with
    | true => exact .inr ⟨pin, rfl, hclash, exec_setTransmitEnablePin_clash hclash⟩
    | false => exact .inl ⟨_, exec_setTransmitEnablePin hclash⟩
  case peek => exact .inl ⟨_, exec_peek h⟩
  case read =>
    by_cases hempty : s.head = s.tail
    · exact .inl ⟨_, exec_read_of_pop (ringPop_of_empty hempty)⟩
    · obtain ⟨b, hread, -⟩ := h.contents_cons hempty
      exact .inl ⟨_, exec_read_of_pop (ringPop_of_held h hempty hread)⟩
  case write byte =>
    cases hvalid : s.txValid with
    | true => exact .inl ⟨_, exec_write_valid hvalid byte⟩
    | false => exact .inl ⟨_, exec_write_invalid hvalid byte⟩
  case poll =>
    by_cases hon : s.rxValid = true ∧ s.rxEnabled = true
    · obtain ⟨u, heval⟩ := evaluate_total h .poll
      exact .inl ⟨_, exec_poll_attached hon.1 hon.2 heval⟩
    · exact .inl ⟨_, exec_poll_detached (by simpa [imp_iff_not_or] using hon)⟩
  all_goals exact .inl ⟨_, rfl⟩

/-! ### Moves -/

/-- All that an agent's move can do when it completes, from the state `s` its turn begins in. -/
inductive MoveEffect (s : State) : Move → State → Prop
  | stood {m : Move} (hm : m = .pass ∨ m = .writeStep ∨ m = .edge ∨ m = .deferredEdge) : MoveEffect s m s
  | commanded {w : Word} {i : Instr} {t : State} (hword : decode w = .ok i) (hbusy : s.busy = false)
      (hlive : s.destroyed = false) (hmark : s.refusal = none) (heffect : CommandEffect s i t) :
      MoveEffect s (.command w) t
  | answeredRate {w : Word} (hword : decode w = .ok .baudRate) (hmark : s.refusal ≠ none) :
      MoveEffect s (.command w) (respond (ofRate s.baud) s)
  | sentCell (hbusy : s.busy = true) (hdue : deadline s.period.toNat s.txPos ≤ elapsedSince s.txT0 s.cycle)
      (htime : s.intSuspend = true →
        elapsedSince s.txT0 s.cycle ≤ deadline s.period.toNat s.txPos + s.platform.txJitter)
      (hpos : s.txPos < 10) : MoveEffect s .writeStep (writeCell s)
  | finished (hbusy : s.busy = true) (hdue : deadline s.period.toNat s.txPos ≤ elapsedSince s.txT0 s.cycle)
      (htime : s.intSuspend = true →
        elapsedSince s.txT0 s.cycle ≤ deadline s.period.toNat s.txPos + s.platform.txJitter)
      (hpos : 10 ≤ s.txPos) : MoveEffect s .writeStep (writeFinish s)
  | evaluated {t : State} (hgate : s.gateOpen = true) (heval : evaluate .edge s = .ok t) : MoveEffect s .edge t
  | latched (hsuspended : s.suspended = true) : MoveEffect s .edge { s with edgeLatch := true }
  | delivered {t : State} (hgate : s.gateOpen = true) (heval : evaluate .edge { s with edgeLatch := false } = .ok t) :
      MoveEffect s .deferredEdge t
  | dropped (hgate : s.gateOpen = false) : MoveEffect s .deferredEdge { s with edgeLatch := false }
  | destroyed (hbusy : s.busy = false) (hmark : s.refusal = none) : MoveEffect s .destroy (destroyUart s)

/-- What the port does with a word on an unmarked block, when it does not refuse it. -/
theorem presentCommand_next {w : Word} {s t : State} (h : presentCommand w s = .next t) :
    s.busy = false ∧ s.destroyed = false ∧ ∃ i, decode w = .ok i ∧ exec i s = .next t := by
  unfold presentCommand at h
  split at h
  · cases h
  next hbusy =>
    split at h
    · cases h
    next hlive =>
      split at h
      next i hword => exact ⟨by simpa using hbusy, by simpa using hlive, i, hword, h⟩
      · cases h
      · cases h

theorem takeMove_effect {m : Move} {s t : State} (hmark : s.refusal = none) (h : takeMove m s = .next t) :
    MoveEffect s m t := by
  cases m with
  | pass => cases h; exact .stood (.inl rfl)
  | command w =>
    obtain ⟨hbusy, hlive, i, hword, hexec⟩ := presentCommand_next h
    exact .commanded hword hbusy hlive hmark (exec_effect hexec)
  | writeStep =>
    rcases takeWriteStep_cases h with ⟨rfl, -⟩ | ⟨hbusy, hdue, htime, ⟨hpos, rfl⟩ | ⟨hpos, rfl⟩⟩
    · exact .stood (.inr (.inl rfl))
    · exact .sentCell hbusy hdue htime hpos
    · exact .finished hbusy hdue htime hpos
  | edge =>
    simp only [takeMove, takeEdge] at h
    split at h
    next hgate => exact .evaluated hgate (outcomeOf_next h)
    next =>
      split at h <;> cases h
      next hsuspended => exact .latched hsuspended
      next => exact .stood (.inr (.inr (.inl rfl)))
  | deferredEdge =>
    simp only [takeMove, takeDeferredEdge] at h
    split at h
    next =>
      split at h
      next hgate => exact .delivered hgate (outcomeOf_next h)
      next hgate => cases h; exact .dropped (by simpa using hgate)
    next => cases h; exact .stood (.inr (.inr (.inr rfl)))
  | destroy =>
    simp only [takeMove, presentDestroy] at h
    split at h
    · cases h
    next hbusy =>
      split at h <;> cases h
      exact .destroyed (by simpa using hbusy) hmark

theorem runMove_effect {m : Move} {s t : State} (h : runMove m s = .next t) : MoveEffect s m t := by
  rcases runMove_cases h with ⟨hmark, h⟩ | ⟨-, rfl, rfl⟩ | ⟨hmark, w, rfl, hword, rfl⟩
  · exact takeMove_effect hmark h
  · exact .stood (.inl rfl)
  · exact .answeredRate hword hmark

/-- A step that goes on is the move of its turn, or there is no turn. -/
theorem step_effect {s t : State} (h : step s = .next t) :
    (s.schedule = [] ∧ t = s) ∨
      ∃ (u : Turn) (rest : List Turn), s.schedule = u :: rest ∧ MoveEffect (beginTurn u rest s) u.move t := by
  cases hsched : s.schedule with
  | nil => rw [step_of_no_turn hsched] at h; cases h; exact .inl ⟨rfl, rfl⟩
  | cons u rest => rw [step_of_turn hsched] at h; exact .inr ⟨u, rest, rfl, runMove_effect h⟩

theorem step_turn_effect {s t : State} {u : Turn} {rest : List Turn} (hsched : s.schedule = u :: rest)
    (h : step s = .next t) : MoveEffect (beginTurn u rest s) u.move t :=
  runMove_effect ((step_of_turn hsched).symm.trans h)

end Sys2Proof.Machine
end

section
/-! PROOFS. The invariant over steps and runs (R36), that no run reaches a ring fault (R32, R51, R210), and that every accepted
command completes and responds (R78). -/

namespace Sys2Proof.Machine

theorem Inv.withoutLatch {s : State} (h : Inv s) : Inv { s with edgeLatch := false } := h.withEdgeLatch false

/-- What an accepted command leaves meets the invariant, since the port of a busy or destroyed block takes none. -/
theorem CommandEffect.inv {s t : State} {i : Instr} (heffect : CommandEffect s i t) (h : Inv s) (hbusy : s.busy = false)
    (hlive : s.destroyed = false) (hmark : s.refusal = none) : Inv t := by
  cases heffect with
  | began hperiod => exact h.beginWith hperiod hbusy hlive
  | rejected => exact h.withRefusal hbusy _
  | reported _ v => exact h.respond v
  | assigned hclash => exact h.assignTePin hclash
  | chose on => exact (h.withIntTxEnabled on).respond _
  | popped hpop => exact (h.ringPop hpop).respond _
  | flushed => exact h.ringFlush.respond _
  | wrote byte hvalid => exact h.writeSetup hbusy hvalid byte hlive hmark
  | unwritten => exact h.respond _
  | received => exact (h.setReception _ hbusy hlive).respond _
  | switched => exact (h.withLineOut _ hbusy).respond _
  | cleared => exact (h.withOverflow false).respond _
  | registered handler => exact (h.withHandler handler).respond _
  | polled _ henabled heval => exact (h.evaluate henabled heval).respond _
  | unpolled => exact h.respond _

theorem State.rxEnabled_of_gateOpen {s : State} (h : s.gateOpen = true) : s.rxEnabled = true := by
  simp only [State.gateOpen, Bool.and_eq_true] at h
  exact h.1.2

theorem MoveEffect.inv {s t : State} {m : Move} (heffect : MoveEffect s m t) (h : Inv s) : Inv t := by
  cases heffect with
  | stood => exact h
  | commanded _ hbusy hlive hmark heffect => exact heffect.inv h hbusy hlive hmark
  | answeredRate => exact h.respond _
  | sentCell _ _ _ hpos => exact h.writeCell hpos
  | finished hbusy => exact h.writeFinish hbusy
  | evaluated hgate heval => exact h.evaluate (State.rxEnabled_of_gateOpen hgate) heval
  | latched => exact h.withEdgeLatch true
  | delivered hgate heval => exact h.withoutLatch.evaluate (State.rxEnabled_of_gateOpen hgate) heval
  | dropped => exact h.withoutLatch
  | destroyed hbusy => exact h.destroyUart hbusy

/-- Settles O48: each effect of a move keeps the invariant. -/
theorem stepKeepsInvariant : Obligations.StepKeepsInvariant := by
  intro s t h hstep
  rcases step_effect hstep with ⟨-, rfl⟩ | ⟨u, rest, -, heffect⟩
  · exact h
  · exact heffect.inv (h.beginTurn u rest)

theorem Inv.run {s t : State} {n : Nat} (h : Inv s) (hrun : run n s = .next t) : Inv t := by
  induction n generalizing s with
  | zero => cases hrun; exact h
  | succ n ih =>
    obtain ⟨u, hstep, hrest⟩ := run_succ_cases hrun
    exact ih (stepKeepsInvariant s u h hstep) hrest

theorem Inv.of_construct {p : Platform} {c : Construction} {s : State} (h : construct p c = .next s) : Inv s := by
  have hsize : c.wellFormed = true := by
    by_contra hsize
    simp [construct, hsize] at h
  exact construct_next h ▸ Inv.initial p hsize

/-- Settles O47: an accepted construction has a legal size, and `State.reset` is one. -/
theorem constructionEstablishesInvariant : Obligations.ConstructionEstablishesInvariant :=
  ⟨fun _ _ _ h => Inv.of_construct h, Inv.of_construct (rfl : construct Platform.vectors Construction.scenario = _)⟩

/-! ### Faults -/

theorem Inv.outcomeOf_evaluate_ne_fault {s : State} (h : Inv s) (k : EvalKind) (f : Fault) :
    outcomeOf (Machine.evaluate k s) ≠ .fault f := by
  obtain ⟨t, heval⟩ := evaluate_total h k
  simp [heval, outcomeOf]

theorem Inv.exec_ne_fault {s : State} (h : Inv s) (i : Instr) (f : Fault) : exec i s ≠ .fault f := by
  rcases exec_total h i with ⟨t, hexec⟩ | ⟨pin, -, -, hexec⟩ <;> simp [hexec]

theorem Inv.presentCommand_ne_fault {s : State} (h : Inv s) (w : Word) (f : Fault) : presentCommand w s ≠ .fault f := by
  unfold presentCommand
  split
  · simp
  split
  · simp
  split
  · exact h.exec_ne_fault _ f
  · simp
  · simp

theorem takeMarkedMove_ne_fault (r : Refusal) (m : Move) (s : State) (f : Fault) : takeMarkedMove r m s ≠ .fault f := by
  unfold takeMarkedMove
  split
  · simp
  · split <;> simp [exec_baudRate]
  all_goals simp

/-- Of all moves only the host's turn inside a `write` can stop the model, by the bound of R144. -/
theorem Inv.takeMove_fault {s : State} (h : Inv s) {m : Move} {f : Fault} (hfault : takeMove m s = .fault f) :
    f = .jitterExceeded := by
  cases m with
  | pass => cases hfault
  | command w => exact absurd hfault (h.presentCommand_ne_fault w f)
  | writeStep => exact (takeWriteStep_fault hfault).1
  | edge =>
    simp only [takeMove, takeEdge] at hfault
    split at hfault
    · exact absurd hfault (h.outcomeOf_evaluate_ne_fault _ f)
    · split at hfault <;> cases hfault
  | deferredEdge =>
    simp only [takeMove, takeDeferredEdge] at hfault
    split at hfault
    · split at hfault
      · exact absurd hfault (h.withoutLatch.outcomeOf_evaluate_ne_fault _ f)
      · cases hfault
    · cases hfault
  | destroy =>
    simp only [takeMove, presentDestroy] at hfault
    split at hfault
    · cases hfault
    · split at hfault <;> cases hfault

theorem Inv.step_fault {s : State} (h : Inv s) {f : Fault} (hfault : step s = .fault f) : f = .jitterExceeded := by
  cases hsched : s.schedule with
  | nil => rw [step_of_no_turn hsched] at hfault; cases hfault
  | cons u rest =>
    rw [step_of_turn hsched] at hfault
    unfold runMove at hfault
    split at hfault
    · exact (h.beginTurn u rest).takeMove_fault hfault
    · exact absurd hfault (takeMarkedMove_ne_fault _ _ _ f)

theorem Inv.run_fault {s : State} {n : Nat} (h : Inv s) {f : Fault} (hfault : Machine.run n s = .fault f) :
    f = .jitterExceeded := by
  induction n generalizing s with
  | zero => cases hfault
  | succ n ih =>
    cases hstep : step s with
    | next t => exact ih (stepKeepsInvariant s t h hstep) ((run_succ_next hstep).symm.trans hfault)
    | fault g =>
      rw [run_succ_fault hstep] at hfault
      cases hfault
      exact h.step_fault hstep
    | refused r => cases (run_succ_refused hstep).symm.trans hfault

/-- A run from the invariant that is never refused goes on in the invariant, or meets the environment's breach of R144. -/
theorem Inv.run_goes_on {s : State} (h : Inv s) (hnot : NotRefused s) (n : Nat) :
    (∃ t, Machine.run n s = .next t ∧ Inv t) ∨ Machine.run n s = .fault .jitterExceeded := by
  cases hrun : Machine.run n s with
  | next t => exact .inl ⟨t, rfl, h.run hrun⟩
  | fault f => exact .inr (by rw [h.run_fault hrun])
  | refused r => exact absurd hrun ((hnot n).1 r)

/-- Settles O49: no step from the invariant faults but by R144's bound, and every construction starts in it. -/
theorem noRunReachesARingFault : Obligations.NoRunReachesARingFault := by
  refine ⟨fun s f h => h.step_fault, fun p c s turns n f hnew => ?_, fun s n hentry hnot => ?_⟩
  · exact ((Inv.of_construct hnew).withSchedule turns).run_fault
  · obtain ⟨p, c, hnew⟩ := hentry
    have h : Inv s := (Inv.of_construct hnew).withSchedule s.schedule
    exact h.run_goes_on hnot n

/-! ### Responses -/

/-- An evaluation leaves the ring, `overflow` and the record alone, or changes them as one commit does. -/
theorem evaluate_cases {k : EvalKind} {s t : State} (h : evaluate k s = .ok t) :
    ∃ u, (u = s ∨ ∃ v, commit v s = .ok u) ∧ t = { u with rxIdx := t.rxIdx, rxAcc := t.rxAcc, rxRef := t.rxRef } := by
  unfold evaluate at h
  split at h <;> cases h
  next w hadvance =>
  have hstart : ∀ u : State, w = { u with rxIdx := w.rxIdx, rxAcc := w.rxAcc, rxRef := w.rxRef } →
      startPhase k w = { u with rxIdx := (startPhase k w).rxIdx, rxAcc := (startPhase k w).rxAcc,
                                rxRef := (startPhase k w).rxRef } := fun u hw => by
    unfold startPhase
    split
    · rw [hw]
    · exact hw
  unfold advancePhase at hadvance
  split at hadvance
  · cases hadvance
    exact ⟨s, .inl rfl, hstart s rfl⟩
  · dsimp only at hadvance
    split at hadvance
    · cases hadvance
      exact ⟨s, .inl rfl, hstart s rfl⟩
    · split at hadvance
      · next u hcommit =>
        injection hadvance with hw
        exact ⟨u, .inr ⟨_, hcommit⟩, hstart u (hw ▸ rfl)⟩
      · cases hadvance

/-- A commit stores or drops, and only adds to the record (R46, R53). -/
theorem commit_adds {v : Byte} {s t : State} (h : commit v s = .ok t) :
    s.outputs <+: t.outputs ∧ (s.overflow = true → t.overflow = true) := by
  unfold commit at h
  split at h
  · cases h
  next hpush =>
    rcases ringPush_cases hpush with ⟨rfl, -, rfl⟩ | ⟨rfl, -, -, rfl⟩ <;> split at h <;> cases h
    · exact ⟨List.prefix_append _ _, fun _ => rfl⟩
    · exact ⟨List.prefix_rfl, fun _ => rfl⟩
    · exact ⟨List.prefix_append _ _, id⟩
    · exact ⟨List.prefix_rfl, id⟩

theorem evaluate_adds {k : EvalKind} {s t : State} (h : evaluate k s = .ok t) :
    s.outputs <+: t.outputs ∧ (s.overflow = true → t.overflow = true) := by
  obtain ⟨u, rfl | ⟨v, hcommit⟩, ht⟩ := evaluate_cases h <;> rw [ht]
  · exact ⟨List.prefix_rfl, id⟩
  · exact (commit_adds hcommit :)

/-- The state of a command that has responded: the host's port is as it was, and the last event is the response on `resp`. -/
def Responded (s t : State) : Prop := t.busy = s.busy ∧ ∃ events, t.outputs = s.outputs ++ events ++ [.response t.resp]

theorem responded_respond {s u : State} (v : Word) (hbusy : u.busy = s.busy) (houtputs : s.outputs <+: u.outputs) :
    Responded s (respond v u) := by
  obtain ⟨events, hevents⟩ := houtputs
  exact ⟨hbusy, events, by rw [hevents]; rfl⟩

/-- Every command responds, but for a rejected `begin` and a `write` that starts a frame (R78, R92). -/
theorem CommandEffect.responded {s t : State} {i : Instr} (heffect : CommandEffect s i t)
    (hbegin : ∀ baud, i = .begin baud → ∃ p, periodOf s.platform.fClk baud = .ok p)
    (hwrite : (∀ b, i ≠ .write b) ∨ s.txValid = false) : Responded s t := by
  cases heffect with
  | began =>
    rw [beginWith_eq]
    exact ⟨rfl, _, congrArg (· ++ _) rfl⟩
  | rejected herror =>
    obtain ⟨p, hp⟩ := hbegin _ rfl
    cases hp.symm.trans herror
  | assigned =>
    rw [assignTePin_eq]
    exact ⟨rfl, _, rfl⟩
  | popped hpop =>
    have hsame := ringPop_cases hpop
    refine responded_respond _ ?_ ?_ <;> rcases hsame with ⟨-, -, rfl⟩ | ⟨v, -, -, -, rfl⟩
    · rfl
    · rfl
    · exact List.prefix_rfl
    · exact List.prefix_rfl
  | wrote byte hvalid =>
    rcases hwrite with hwrite | hwrite
    · exact absurd rfl (hwrite byte)
    · cases hvalid.symm.trans hwrite
  | received =>
    rw [setReception_eq]
    exact responded_respond _ rfl List.prefix_rfl
  | polled _ _ heval =>
    refine responded_respond _ ?_ (evaluate_adds heval).1
    rw [evaluate_frame heval]
  | reported | chose | flushed | unwritten | switched | cleared | registered | unpolled =>
    exact responded_respond _ rfl List.prefix_rfl

/-- Settles O50: under the invariant only the command's own check can keep it from completing, and its effect responds. -/
theorem acceptedCommandsComplete : Obligations.AcceptedCommandsComplete := by
  intro s i h hbegin hpin
  rcases exec_total h i with ⟨t, hexec⟩ | ⟨pin, hi, hclash, -⟩
  · exact ⟨t, hexec, (exec_effect hexec).responded hbegin⟩
  · cases hclash.symm.trans (hpin pin hi)

end Sys2Proof.Machine
end

section
/-! PROOFS. What the steps leave alone: the two sides of the ring (R56), the rate and the period (R23, R94), the suspension (R35),
the record (R46) and the two paths of full duplex (R152). -/

namespace Sys2Proof.Machine

/-! ### The ring's two sides -/

/-- Every command but `poll` leaves the producer's side of the ring alone (R56). -/
theorem CommandEffect.producer {s t : State} {i : Instr} (heffect : CommandEffect s i t) (hi : i ≠ .poll) :
    t.head = s.head ∧ t.buf = s.buf ∧ (t.overflow = true → s.overflow = true) ∧
      (i ≠ .read → i ≠ .flush → t.tail = s.tail) ∧ (i ≠ .overflow → t.overflow = s.overflow) := by
  cases heffect with
  | began => rw [beginWith_eq]; exact ⟨rfl, rfl, id, fun _ _ => rfl, fun _ => rfl⟩
  | assigned => rw [assignTePin_eq]; exact ⟨rfl, rfl, id, fun _ _ => rfl, fun _ => rfl⟩
  | wrote => rw [writeSetup_eq]; exact ⟨rfl, rfl, id, fun _ _ => rfl, fun _ => rfl⟩
  | received => rw [setReception_eq]; exact ⟨rfl, rfl, id, fun _ _ => rfl, fun _ => rfl⟩
  | popped hpop =>
    rcases ringPop_cases hpop with ⟨-, -, rfl⟩ | ⟨v, -, -, -, rfl⟩ <;>
      exact ⟨rfl, rfl, id, fun hread => absurd rfl hread, fun _ => rfl⟩
  | flushed => exact ⟨rfl, rfl, id, fun _ hflush => absurd rfl hflush, fun _ => rfl⟩
  | cleared => exact ⟨rfl, rfl, fun h => absurd h Bool.false_ne_true, fun _ _ => rfl, fun hclear => absurd rfl hclear⟩
  | polled | unpolled => exact absurd rfl hi
  | rejected | reported | chose | unwritten | switched | registered =>
    exact ⟨rfl, rfl, id, fun _ _ => rfl, fun _ => rfl⟩

/-- Settles O51: the commands by their effects, an evaluation by its frame and its commit. -/
theorem singleProducerSingleConsumer : Obligations.SingleProducerSingleConsumer := by
  refine ⟨fun i s t hi hexec => (exec_effect hexec).producer hi, fun k s t heval => ⟨?_, (evaluate_adds heval).2⟩⟩
  rw [evaluate_frame heval]

/-! ### The rate and the period -/

/-- What only construction and `begin` set (R9, R11, R23, R30). -/
def configuration (s : State) : Construction × Platform × Rate × Word := (s.construction, s.platform, s.baud, s.period)

theorem configuration_evaluate {k : EvalKind} {s t : State} (h : evaluate k s = .ok t) :
    configuration t = configuration s := by
  rw [evaluate_frame h]
  rfl

/-- A command leaves the configuration alone, but for an accepted `begin`, which sets the rate and its period. -/
theorem CommandEffect.configuration {s t : State} {i : Instr} (heffect : CommandEffect s i t) :
    configuration t = configuration s ∨
      ∃ baud p, i = .begin baud ∧ periodOf s.platform.fClk baud = .ok p ∧
        configuration t = (s.construction, s.platform, baud, p) := by
  cases heffect with
  | began hperiod => exact .inr ⟨_, _, rfl, hperiod, by rw [beginWith_eq]; rfl⟩
  | assigned => rw [assignTePin_eq]; exact .inl rfl
  | wrote => rw [writeSetup_eq]; exact .inl rfl
  | received => rw [setReception_eq]; exact .inl rfl
  | popped hpop => rcases ringPop_cases hpop with ⟨-, -, rfl⟩ | ⟨v, -, -, -, rfl⟩ <;> exact .inl rfl
  | polled _ _ heval => exact .inl (configuration_evaluate heval :)
  | rejected | reported | chose | flushed | unwritten | switched | cleared | registered | unpolled => exact .inl rfl

theorem MoveEffect.configuration {s t : State} {m : Move} (heffect : MoveEffect s m t) :
    configuration t = configuration s ∨
      ∃ w baud p, m = .command w ∧ decode w = .ok (.begin baud) ∧ periodOf s.platform.fClk baud = .ok p ∧
        configuration t = (s.construction, s.platform, baud, p) := by
  cases heffect with
  | commanded hword _ _ _ heffect =>
    rcases heffect.configuration with hsame | ⟨baud, p, rfl, hperiod, ht⟩
    · exact .inl hsame
    · exact .inr ⟨_, baud, p, rfl, hword, hperiod, ht⟩
  | finished => rw [writeFinish_eq]; exact .inl rfl
  | evaluated _ heval => exact .inl (configuration_evaluate heval)
  | delivered _ heval => exact .inl (configuration_evaluate heval :)
  | stood | answeredRate | sentCell | latched | dropped | destroyed => exact .inl rfl

/-- Settles O52: of all moves only an accepted `begin` writes the configuration, and it sets the period of its rate. -/
theorem onlyBeginChangesThePeriod : Obligations.OnlyBeginChangesThePeriod := by
  intro s t hstep
  rcases step_effect hstep with ⟨-, rfl⟩ | ⟨u, rest, hsched, heffect⟩
  · exact ⟨rfl, rfl, fun hchange => absurd hchange (by simp)⟩
  rcases heffect.configuration with hsame | ⟨w, baud, p, hm, hword, hperiod, ht⟩
  · obtain ⟨hcon, hplat, hbaud, hper⟩ : t.construction = s.construction ∧ t.platform = s.platform ∧ t.baud = s.baud ∧
        t.period = s.period := by simpa [Machine.configuration] using hsame
    exact ⟨hcon, hplat, fun hchange => absurd hchange (by simp [hbaud, hper])⟩
  · obtain ⟨hcon, hplat, hbaud, hper⟩ : t.construction = s.construction ∧ t.platform = s.platform ∧ t.baud = baud ∧
        t.period = p := by simpa [Machine.configuration] using ht
    exact ⟨hcon, hplat, fun _ => ⟨u, rest, w, baud, hsched, hm, hword, hbaud, hper ▸ hperiod⟩⟩

/-! ### The suspension -/

/-- No command but `write` starts or ends a `write` or a suspension. -/
theorem CommandEffect.intSuspend {s t : State} {i : Instr} (heffect : CommandEffect s i t) :
    t.intSuspend = s.intSuspend ∨ ∃ byte, i = .write byte ∧ t = writeSetup byte s := by
  cases heffect with
  | wrote byte => exact .inr ⟨byte, rfl, rfl⟩
  | began => rw [beginWith_eq]; exact .inl rfl
  | assigned => rw [assignTePin_eq]; exact .inl rfl
  | received => rw [setReception_eq]; exact .inl rfl
  | popped hpop => rcases ringPop_cases hpop with ⟨-, -, rfl⟩ | ⟨v, -, -, -, rfl⟩ <;> exact .inl rfl
  | polled _ _ heval => rw [evaluate_frame heval]; exact .inl rfl
  | rejected | reported | chose | flushed | unwritten | switched | cleared | registered | unpolled => exact .inl rfl

theorem MoveEffect.intSuspend {s t : State} {m : Move} (heffect : MoveEffect s m t) :
    t.intSuspend = s.intSuspend ∨
      (∃ w byte, m = .command w ∧ decode w = .ok (.write byte) ∧ t = writeSetup byte s) ∨
      (m = .writeStep ∧ s.busy = true ∧ 10 ≤ s.txPos ∧ t = writeFinish s) := by
  cases heffect with
  | commanded hword _ _ _ heffect =>
    rcases heffect.intSuspend with hsame | ⟨byte, rfl, ht⟩
    · exact .inl hsame
    · exact .inr (.inl ⟨_, byte, rfl, hword, ht⟩)
  | finished hbusy _ _ hpos => exact .inr (.inr ⟨rfl, hbusy, hpos, rfl⟩)
  | evaluated _ heval => rw [evaluate_frame heval]; exact .inl rfl
  | delivered _ heval => rw [evaluate_frame heval]; exact .inl rfl
  | stood | answeredRate | sentCell | latched | dropped | destroyed => exact .inl rfl

/-- Settles O53: W0 raises the output when the host chose so, and W10 lowers it; no other move writes it. -/
theorem onlyWriteSuspendsInterrupts : Obligations.OnlyWriteSuspendsInterrupts := by
  intro s t h hstep hchange
  rcases step_effect hstep with ⟨-, rfl⟩ | ⟨u, rest, hsched, heffect⟩
  · exact absurd rfl hchange
  refine ⟨u, rest, hsched, ?_⟩
  rcases heffect.intSuspend with hsame | ⟨w, byte, hm, hword, rfl⟩ | ⟨hm, hbusy, hpos, rfl⟩
  · exact absurd hsame hchange
  · rw [writeSetup_eq] at hchange ⊢
    cases hchoice : s.intTxEnabled with
    | true => simp [hchoice] at hchange
    | false => exact .inl ⟨by simp [hchoice], rfl, rfl, w, byte, hm, hword⟩
  · have hpos10 : s.txPos = 10 := Nat.le_antisymm h.txPosRange hpos
    rw [writeFinish_eq] at hchange ⊢
    cases hsaved : s.txSave.suspended with
    | true => exact .inr ⟨by simp [hsaved], hm, hpos10, hbusy, rfl⟩
    | false => simp [hsaved] at hchange

/-! ### The record -/

theorem CommandEffect.outputs {s t : State} {i : Instr} (heffect : CommandEffect s i t) : s.outputs <+: t.outputs := by
  have htwo : ∀ a b : List Output, s.outputs <+: s.outputs ++ a ++ b := fun a b =>
    (List.prefix_append _ a).trans (List.prefix_append _ b)
  cases heffect with
  | began => rw [beginWith_eq]; exact htwo _ _
  | assigned => rw [assignTePin_eq]; exact htwo _ _
  | wrote => rw [writeSetup_eq]; exact (htwo _ _).trans (List.prefix_append _ _)
  | received => rw [setReception_eq]; exact List.prefix_append _ _
  | popped hpop =>
    rcases ringPop_cases hpop with ⟨-, -, rfl⟩ | ⟨v, -, -, -, rfl⟩ <;> exact List.prefix_append _ _
  | polled _ _ heval => exact (evaluate_adds heval).1.trans (List.prefix_append _ _)
  | rejected => exact List.prefix_rfl
  | reported | chose | flushed | unwritten | switched | cleared | registered | unpolled => exact List.prefix_append _ _

theorem MoveEffect.outputs {s t : State} {m : Move} (heffect : MoveEffect s m t) : s.outputs <+: t.outputs := by
  cases heffect with
  | commanded _ _ _ _ heffect => exact heffect.outputs
  | answeredRate | sentCell => exact List.prefix_append _ _
  | finished =>
    rw [writeFinish_eq]
    exact (List.prefix_append _ _).trans ((List.prefix_append _ _).trans (List.prefix_append _ _))
  | evaluated _ heval => exact (evaluate_adds heval).1
  | delivered _ heval => exact (evaluate_adds heval).1
  | stood | latched | dropped | destroyed => exact List.prefix_rfl

/-- Settles O54: each effect of a move adds events behind the record. -/
theorem observationsOnlyGrow : Obligations.ObservationsOnlyGrow := by
  intro s t hstep
  rcases step_effect hstep with ⟨-, rfl⟩ | ⟨u, rest, -, heffect⟩
  · exact ⟨[], (List.append_nil _).symm⟩
  · obtain ⟨events, hevents⟩ := heffect.outputs
    exact ⟨events, hevents.symm⟩

/-! ### Full duplex -/

/-- The transmitter's part of a state: the `write` in flight, its levels and pins, and the port. -/
def transmitter (s : State) : (Bool × Byte × Nat × Word × TxSave) × (Bool × Bool × Bool × Bool) × Word :=
  ((s.busy, s.txByte, s.txPos, s.txT0, s.txSave), (s.txLevel, s.teLevel, s.lineOut, s.intSuspend), s.resp)

theorem transmitter_evaluate {k : EvalKind} {s t : State} (h : evaluate k s = .ok t) : transmitter t = transmitter s := by
  rw [evaluate_frame h]
  rfl

/-- An edge, latched or not, is at most an evaluation, and leaves the transmitter alone (R152). -/
theorem MoveEffect.transmitter_edge {s t : State} {m : Move} (heffect : MoveEffect s m t)
    (hm : m = .edge ∨ m = .deferredEdge) : transmitter t = transmitter s := by
  cases heffect with
  | evaluated _ heval => exact transmitter_evaluate heval
  | delivered _ heval => exact (transmitter_evaluate heval :)
  | stood | latched | dropped => rfl
  | commanded | answeredRate | sentCell | finished | destroyed => simp at hm

/-- The ring, its flag and the handler: what the receiver and the host's reading side have beside `receiver`. -/
def ringSide (s : State) : Nat × Memory × Bool × HandlerId := (s.tail, s.buf, s.overflow, s.handler)

theorem MoveEffect.receiver_writeStep {s t : State} (heffect : MoveEffect s .writeStep t) (hwire : s.oneWire = false) :
    receiver t = receiver s ∧ ringSide t = ringSide s := by
  cases heffect with
  | stood | sentCell => exact ⟨rfl, rfl⟩
  | finished => rw [writeFinish_eq]; simp [receiver, ringSide, hwire]

/-- Settles O57: an edge is at most an evaluation, and W1 to W10 reach the receiver only in one-wire mode. -/
theorem fullDuplexPathsAreSeparate : Obligations.FullDuplexPathsAreSeparate := by
  refine fun s t u rest hsched hstep => ⟨fun hm => ?_, fun hm hwire => ?_⟩
  · have htx := (step_turn_effect hsched hstep).transmitter_edge hm
    simp only [transmitter, Prod.mk.injEq] at htx
    obtain ⟨⟨hbusy, hbyte, hpos, hstart, hsave⟩, ⟨hlevel, hte, hline, hsuspend⟩, hresp⟩ := htx
    exact ⟨hbusy, hbyte, hpos, hstart, hsave, hlevel, hte, hline, hsuspend, hresp⟩
  · have heffect := step_turn_effect hsched hstep
    rw [hm] at heffect
    obtain ⟨hrx, hring⟩ := heffect.receiver_writeStep hwire
    simp only [receiver, ringSide, Prod.mk.injEq] at hrx hring
    obtain ⟨-, ⟨hvalid, henabled⟩, ⟨hidx, hacc, href⟩, hhead⟩ := hrx
    obtain ⟨htail, hbuf, hover, hhandler⟩ := hring
    exact ⟨hvalid, henabled, hidx, hacc, href, hhead, htail, hbuf, hover, hhandler⟩

end Sys2Proof.Machine
end

section
/-! PROOFS. Noninterference: which steps and commands act alike whatever the receive pin reads (R42) and whatever the counter reads
(R222, R43). -/

namespace Sys2Proof.Machine

/-- A change of the next state, if there is one. -/
def onNext (f : State → State) : Host.Outcome State Fault Refusal → Host.Outcome State Fault Refusal
  | .next s => .next (f s)
  | .fault e => .fault e
  | .refused r => .refused r

/-- The state with other values on the two input ports that a move may read, the counter and the level of the receive pin. -/
def withPorts (c : Word) (l : Bool) (s : State) : State := { s with cycle := c, rxIn := l }

theorem ringPop_withPorts (c : Word) (l : Bool) (s : State) :
    ringPop (withPorts c l s) = (ringPop s).map fun r => (r.1, withPorts c l r.2) := by
  have hcell : memRead (withPorts c l s) s.tail = memRead s s.tail := rfl
  unfold ringPop
  by_cases hempty : s.head = s.tail
  · rw [if_pos hempty, if_pos (show (withPorts c l s).head = (withPorts c l s).tail from hempty)]
    rfl
  · rw [if_neg hempty, if_neg (show (withPorts c l s).head ≠ (withPorts c l s).tail from hempty)]
    change (match memRead (withPorts c l s) s.tail with | .ok v => _ | .error f => _) = _
    rw [hcell]
    cases memRead s s.tail <;> rfl

/-- No command but `poll` reads the pin, and none but `poll` and the three that stamp a drive event reads the counter. -/
theorem exec_withPorts {i : Instr} (s : State) (c : Word) (l : Bool) (hi : i ≠ .poll)
    (hc : c = s.cycle ∨ (∀ b, i ≠ .write b) ∧ (∀ b, i ≠ .begin b) ∧ ∀ p, i ≠ .setTransmitEnablePin p) :
    exec i (withPorts c l s) = onNext (withPorts c l) (exec i s) := by
  have hplatform : (withPorts c l s).platform = s.platform := rfl
  cases i
  case poll => exact absurd rfl hi
  case begin baud =>
    obtain rfl := hc.resolve_right fun h => h.2.1 baud rfl
    simp only [exec, execBegin, hplatform, beginWith_eq]
    cases periodOf s.platform.fClk baud <;> rfl
  case setTransmitEnablePin pin =>
    obtain rfl := hc.resolve_right fun h => h.2.2 pin rfl
    simp only [exec, execSetTransmitEnablePin, assignTePin_eq, apply_ite (onNext (withPorts s.cycle l))]
    rfl
  case write byte =>
    obtain rfl := hc.resolve_right fun h => h.1 byte rfl
    simp only [exec, execWrite, writeSetup_eq, apply_ite (onNext (withPorts s.cycle l))]
    rfl
  case peek =>
    have hpeek : ringPeek (withPorts c l s) = ringPeek s := rfl
    simp only [exec, execPeek, hpeek]
    cases ringPeek s <;> rfl
  case read =>
    simp only [exec, execRead, ringPop_withPorts]
    cases ringPop s <;> rfl
  case enableRx on => simp only [exec, execEnableRx, setReception_eq]; rfl
  case listen => simp only [exec, execListen, setReception_eq]; rfl
  case endRx => simp only [exec, execEndRx, setReception_eq]; rfl
  case stopListening => simp only [exec, execStopListening, setReception_eq]; rfl
  case enableTx on => rw [exec_enableTx, exec_enableTx, switchLine_eq, switchLine_eq]; rfl
  all_goals rfl

theorem takeWriteStep_withLevel (l : Bool) (s : State) :
    takeWriteStep (withPorts s.cycle l s) = onNext (withPorts s.cycle l) (takeWriteStep s) := by
  simp only [takeWriteStep, apply_ite (onNext (withPorts s.cycle l)), writeFinish_eq]
  rfl

theorem presentCommand_withLevel {w : Word} (l : Bool) (s : State) (hw : decode w ≠ .ok .poll) :
    presentCommand w (withPorts s.cycle l s) = onNext (withPorts s.cycle l) (presentCommand w s) := by
  simp only [presentCommand, apply_ite (onNext (withPorts s.cycle l))]
  cases hword : decode w with
  | ok i => rw [← exec_withPorts s s.cycle l (fun hpoll => hw (hpoll ▸ hword)) (.inl rfl)]; rfl
  | error e => cases e <;> rfl

/-- A move that is no edge, no latched edge and no `poll` acts alike whatever the pin reads, on a marked block too (R42). -/
theorem runMove_withLevel {m : Move} (l : Bool) (s : State) (hedge : m ≠ .edge) (hlatched : m ≠ .deferredEdge)
    (hpoll : ∀ w, m = .command w → decode w ≠ .ok .poll) :
    runMove m (withPorts s.cycle l s) = onNext (withPorts s.cycle l) (runMove m s) := by
  have hrefusal : (withPorts s.cycle l s).refusal = s.refusal := rfl
  unfold runMove
  rw [hrefusal]
  cases m with
  | edge => exact absurd rfl hedge
  | deferredEdge => exact absurd rfl hlatched
  | pass => cases s.refusal <;> rfl
  | writeStep =>
    cases s.refusal with
    | none => exact takeWriteStep_withLevel l s
    | some r => rfl
  | destroy =>
    cases s.refusal with
    | none => simp only [takeMove, presentDestroy, apply_ite (onNext (withPorts s.cycle l))]; rfl
    | some r => rfl
  | command w =>
    cases s.refusal with
    | none => exact presentCommand_withLevel l s (hpoll w rfl)
    | some r =>
      simp only [takeMarkedMove]
      rcases decode w with e | i
      · rfl
      · cases i <;> rfl

/-- Settles O55: a turn that reads another level begins in the same state but for the port, from which its move acts alike. -/
theorem onlyPollReadsTheReceivePin : Obligations.OnlyPollReadsTheReceivePin := by
  refine ⟨fun s u rest l before hsched hedge hlatched hpoll => ?_, fun i s t l hi hexec => ?_⟩
  · have hstep : step { s with rxIn := before, schedule := { u with level := l } :: rest } =
        onNext (withPorts (beginTurn u rest s).cycle l) (step s) := by
      rw [step_of_turn hsched, step_of_turn rfl]
      exact runMove_withLevel l (beginTurn u rest s) hedge hlatched hpoll
    refine ⟨fun t ht => ?_, fun f hf => by rw [hstep, hf]; rfl, fun r hr => by rw [hstep, hr]; rfl⟩
    have hcycle : t.cycle = (beginTurn u rest s).cycle := congrArg (·.2.1) (step_readings hsched ht)
    rw [hstep, ht, ← hcycle]
    rfl
  · have hcycle : t.cycle = s.cycle := congrArg (·.2.1) (readings_exec hexec)
    refine (exec_withPorts s s.cycle l hi (.inl rfl)).trans ?_
    rw [hexec, ← hcycle]
    rfl

/-- Settles O56: the four commands that read the counter are those the statement leaves out. -/
theorem counterReadOnlyWhereNamed : Obligations.CounterReadOnlyWhereNamed := by
  intro i s t c hpoll hwrite hbegin hpin hexec
  have hlevel : t.rxIn = s.rxIn := congrArg (·.2.2.1) (readings_exec hexec)
  refine (exec_withPorts s c s.rxIn hpoll (.inr ⟨hwrite, hbegin, hpin⟩)).trans ?_
  rw [hexec, ← hlevel]
  rfl

end Sys2Proof.Machine
end

section
/-! PROOFS. Single commands and single turns: the port (R77, R246), construction (R9, R224), the lifecycle commands (R180, R186), what
is answered before `begin` (R242), edges at the gate (R103, R104) and the steps of a `write` (R141 to R149). -/

namespace Sys2Proof.Machine

/-! ### The port and the end of life -/

/-- Settles O8: the turn's readings stand on the ports, and the port of an unmarked idle block runs the command. -/
theorem stepRunsPresentedCommand : Obligations.StepRunsPresentedCommand := by
  intro s t rest w i hsched hmove hword hbusy hlive hmark
  rw [step_of_turn hsched, hmove]
  exact runMove_command_ok (s := beginTurn t rest s) hbusy hlive hmark hword

/-- A step of an unmarked block is the move of its turn. -/
theorem step_of_unmarked_turn {s : State} {t : Turn} {rest : List Turn} (hsched : s.schedule = t :: rest)
    (hmark : s.refusal = none) : step s = takeMove t.move (beginTurn t rest s) := by
  rw [step_of_turn hsched]
  exact runMove_unmarked (s := beginTurn t rest s) hmark

/-- Settles O9: the test of `busy` stands before the decoder. -/
theorem busyRefusesEveryWord : Obligations.BusyRefusesEveryWord := by
  intro s t rest w hsched hmove hbusy hmark
  rw [step_of_unmarked_turn hsched hmark, hmove]
  exact if_pos hbusy

/-- Settles O10: a block that is neither busy nor destroyed is destroyed by the move, and the port then tests for it. -/
theorem destructionEndsCommands : Obligations.DestructionEndsCommands := by
  refine ⟨fun s t rest hsched hmove hbusy hlive hmark => ?_, fun s t rest w hsched hmove hbusy hgone hmark => ?_⟩
  · refine ⟨destroyUart (beginTurn t rest s), ?_, rfl, rfl, rfl, rfl⟩
    rw [step_of_unmarked_turn hsched hmark, hmove]
    simp [takeMove, presentDestroy, hbusy, hlive]
  · rw [step_of_unmarked_turn hsched hmark, hmove]
    simp [takeMove, presentCommand, hbusy, hgone]

/-- Settles O11: an empty schedule is the branch that answers the state. -/
theorem noTurnLeavesTheState : Obligations.NoTurnLeavesTheState :=
  fun _ => step_of_no_turn

/-- Settles O45: the size is tested first, and a pin in use is tested next. -/
theorem constructionRefused : Obligations.ConstructionRefused := by
  refine fun p c => ⟨fun hsize => ?_, fun hmin hmax hpin => ?_⟩
  · have hill : ¬ c.wellFormed = true := by rw [c.wellFormed_iff]; omega
    exact if_neg hill
  · have htaken : (pinTaken p.pinsInUse c.rxPin || pinTaken p.pinsInUse c.txPin) = true := by
      simpa [pinTaken] using hpin
    unfold construct
    rw [if_pos (c.wellFormed_iff.mpr ⟨hmin, hmax⟩), if_pos htaken]

/-- Settles O58: the driven conditions, with ONE_WIRE by its pins. -/
theorem pinsDrivenAsStated : Obligations.PinsDrivenAsStated := by
  refine fun s => ⟨?_, Iff.rfl⟩
  have hwire : s.oneWire = true ↔ s.construction.rxPin ≠ noPin ∧ s.construction.txPin ≠ noPin ∧
      s.construction.rxPin = s.construction.txPin := by simp [State.oneWire, and_assoc]
  simp only [State.txDrive, Bool.and_eq_true, Bool.or_eq_true, Bool.not_eq_true', ← hwire, Bool.not_eq_true]

/-! ### Lifecycle -/

/-- A marked block refuses, with its mark, every move but time passing and `baudRate` (R213, R91). -/
theorem runMove_marked_refused {s : State} {r : Refusal} (hmark : s.refusal = some r) {m : Move} (hpass : m ≠ .pass)
    (hrate : ∀ w, m = .command w → decode w ≠ .ok .baudRate) : runMove m s = .refused r := by
  simp only [runMove, hmark]
  cases m with
  | pass => exact absurd rfl hpass
  | command w =>
    have hword := hrate w rfl
    simp only [takeMarkedMove]
    split
    · exact absurd ‹_› hword
    · rfl
    · rfl
  | writeStep | edge | deferredEdge | destroy => rfl

/-- Settles O15: a rejected rate marks the state and no more; an accepted one is one update. -/
theorem beginConfigures : Obligations.BeginConfigures := by
  refine fun s baud => ⟨rfl, fun e he => ?_, fun p hp => ?_⟩
  · exact ⟨_, exec_begin_rejected he, rfl, rfl, fun m => runMove_marked_refused rfl⟩
  · rw [exec_begin_accepted hp, beginWith_eq]
    rfl

/-- Settles O60: with the predicates' values at the two pins given, a pin is valid when it is assigned and its value is true. -/
theorem beginValidatesAssumedPins : Obligations.BeginValidatesAssumedPins := by
  intro s baud p rx tx hp hpins
  obtain ⟨hrx, htx⟩ : s.platform.validRx.contains s.construction.rxPin = rx ∧
      s.platform.validTx.contains s.construction.txPin = tx := by simpa [PinsAsAssumed] using hpins
  refine ⟨_, exec_begin_accepted hp, ?_⟩
  rw [beginWith_eq]
  refine ⟨?_, ?_, ?_⟩
  · simp [State.rxPinValid, pinValid, hrx, -List.contains_eq_mem]
  · simp [State.txPinValid, pinValid, htx, -List.contains_eq_mem]
  · cases h : s.rxPinValid <;> simp

/-- A pin as an operand field leaves the 16 bits above it 0 (R71). -/
theorem encode_setTransmitEnablePin (pin : PinId) : encode (.setTransmitEnablePin pin) = 0x03#8 ++ 0#16 ++ pin := by
  have hfield : pin.setWidth 24 = 0#16 ++ pin := BitVec.setWidth_eq_append (by decide)
  change 0x03#8 ++ pin.setWidth 24 = _
  rw [hfield, BitVec.append_assoc, BitVec.cast_eq]

/-- Settles O42: a data pin clashes; any other pin is assigned in one update. -/
theorem tePinAssignment : Obligations.TePinAssignment := by
  refine fun s pin => ⟨encode_setTransmitEnablePin pin, fun hassigned hdata => ?_, fun hfree => ?_⟩
  · exact exec_setTransmitEnablePin_clash (by simpa [State.teClash, hassigned] using hdata)
  · have hclash : s.teClash pin = false := by
      rcases hfree with rfl | ⟨hrx, htx⟩
      · rfl
      · simp [State.teClash, hrx, htx]
    rw [exec_setTransmitEnablePin hclash, assignTePin_eq]
    rfl

/-- Settles O44: each command finds its gate closed, its ring empty or its field at 0. -/
theorem beforeBeginNothingWorks : Obligations.BeforeBeginNothingWorks := by
  intro s i hrx htx henabled hbaud hempty hover
  have hcount : ringCount s = 0 := ringCount_self s hempty
  have hclear : { s with overflow := false } = s := by rw [← hover]
  have hflush : ringFlush s = s := congrArg (fun cell => { s with tail := cell }) hempty
  have hreception : ∀ {i : Instr} {on : Bool}, i.SetsReception on → exec i s = .next (respond 0#32 s) := fun hi => by
    rw [exec_reception s hi, setReception_of_invalid hrx]
  refine ⟨fun hi => ?_, fun hi => ?_⟩
  · change exec i s = .next (respond 0#32 s)
    simp only [List.mem_cons, List.not_mem_nil, or_false] at hi
    rcases hi with (rfl | rfl | rfl | rfl | rfl | rfl | rfl | rfl | rfl | rfl) | ⟨b, rfl⟩ | ⟨on, rfl | rfl⟩
    · rw [exec_available, hcount]; rfl
    · rw [exec_overflow, hclear, hover]; rfl
    · rw [exec_isListening, henabled]; rfl
    · rw [exec_valid, hrx, htx]; rfl
    · rw [exec_baudRate, hbaud]; rfl
    · exact exec_poll_detached (.inl hrx)
    · exact hreception (.inr (.inl ⟨rfl, rfl⟩))
    · exact hreception (.inr (.inr (.inl ⟨rfl, rfl⟩)))
    · exact hreception (.inr (.inr (.inr ⟨rfl, rfl⟩)))
    · rw [exec_flush, hflush]
    · exact exec_write_invalid htx b
    · exact hreception (.inl rfl)
    · rw [exec_enableTx, htx, Bool.and_false, if_neg Bool.false_ne_true]
  · rcases hi with rfl | rfl
    · simp only [exec, execPeek, ringPeek, if_pos hempty]
      rfl
    · exact exec_read_of_pop (ringPop_of_empty hempty)

/-! ### Edges -/

/-- Settles O26: idle, an edge and START_LEVEL are what start recognition tests. -/
theorem startEdgeOpensFrame : Obligations.StartEdgeOpensFrame :=
  fun _ hidle hlevel => evaluate_idle_start hidle hlevel

/-- Settles O29: the three cases are the three branches of an edge's turn. -/
theorem edgeTurnObeysTheGate : Obligations.EdgeTurnObeysTheGate := by
  rintro s s₁ t rest hsched hmove rfl hmark
  have hstep : step s = takeEdge (beginTurn t rest s) := by rw [step_of_unmarked_turn hsched hmark, hmove]; rfl
  refine ⟨fun hvalid henabled hsuspend hmask => ?_, fun hsuspended => ?_, fun hsuspend hmask hoff => ?_⟩
  · simp [hstep, takeEdge, State.gateOpen, State.suspended, hvalid, henabled, hsuspend, hmask]
  · have hsus : (beginTurn t rest s).suspended = true := by simpa [State.suspended] using hsuspended
    simp [hstep, takeEdge, State.gateOpen, hsus]
  · have hgate : (beginTurn t rest s).gateOpen = false := by
      rcases hoff with hoff | hoff <;> simp [State.gateOpen, hoff]
    simp [hstep, takeEdge, hgate, State.suspended, hsuspend, hmask]

/-- Settles O30: delivery needs a latched edge and the end of the suspension; then the gate decides. -/
theorem latchedEdgeDeliveredOnce : Obligations.LatchedEdgeDeliveredOnce := by
  rintro s s₁ t rest hsched hmove rfl hmark
  have hstep : step s = takeDeferredEdge (beginTurn t rest s) := by
    rw [step_of_unmarked_turn hsched hmark, hmove]; rfl
  refine ⟨fun hlatch hsuspend hmask hvalid henabled => ?_, fun hlatch hsuspend hmask hoff => ?_, fun hwait => ?_⟩
  · simp [hstep, takeDeferredEdge, State.gateOpen, State.suspended, hlatch, hvalid, henabled, hsuspend, hmask]
  · have hgate : (beginTurn t rest s).gateOpen = false := by
      rcases hoff with hoff | hoff <;> simp [State.gateOpen, hoff]
    simp [hstep, takeDeferredEdge, hgate, State.suspended, hlatch, hsuspend, hmask]
  · have hno : (s.edgeLatch && !(beginTurn t rest s).suspended) = false := by
      rcases hwait with h | h | h <;> simp [State.suspended, h]
    simp [hstep, takeDeferredEdge, hno]

/-! ### The steps of a `write` -/

/-- Settles O33: `write` is its gate, and W0 is one update. -/
theorem writeStartsFrame : Obligations.WriteStartsFrame := by
  refine fun s b => ⟨fun hvalid => exec_write_invalid hvalid b, fun hvalid => ?_⟩
  rw [exec_write_valid hvalid, writeSetup_eq]

/-- The level of cells 1 to 9: eight data bits and the stop bit (R142). -/
theorem cellLevel_of_pos {k : Nat} (hmin : 1 ≤ k) (hmax : k ≤ 9) (invert : Bool) (b : Byte) :
    cellLevel invert b k = if k = 9 then !invert else b.getLsbD (k - 1) ^^ invert := by
  unfold cellLevel
  rw [if_neg (by omega)]
  by_cases hstop : k = 9
  · rw [if_neg (by omega), if_pos hstop]
  · rw [if_pos (by omega), if_neg hstop]

/-- Settles O34: before the deadline the host waits, and from it on the step is W1 to W9. -/
theorem writeStepDrivesCell : Obligations.WriteStepDrivesCell := by
  rintro s s₁ t rest hsched hmove rfl hmark hbusy hmin hmax
  have hstep : step s = takeWriteStep (beginTurn t rest s) := by rw [step_of_unmarked_turn hsched hmark, hmove]; rfl
  refine ⟨fun hearly => ?_, fun hdue htime => ?_⟩
  · exact hstep.trans (takeWriteStep_wait (s := beginTurn t rest s) hearly)
  · refine ⟨_, cellLevel_of_pos hmin hmax s.construction.invert s.txByte, ?_⟩
    rw [hstep, takeWriteStep_taken (s := beginTurn t rest s) hbusy hdue htime,
      if_pos (show (beginTurn t rest s).txPos < 10 from Nat.lt_succ_of_le hmax)]
    rfl

/-- Settles O36: before the deadline the host waits, and from it on the step is W10. -/
theorem writeFinishRestores : Obligations.WriteFinishRestores := by
  rintro s s₁ t rest hsched hmove rfl hmark hbusy hpos
  have hstep : step s = takeWriteStep (beginTurn t rest s) := by rw [step_of_unmarked_turn hsched hmark, hmove]; rfl
  rw [← hpos]
  refine ⟨fun hearly => ?_, fun hdue htime => ?_⟩
  · exact hstep.trans (takeWriteStep_wait (s := beginTurn t rest s) hearly)
  · rw [hstep, takeWriteStep_taken (s := beginTurn t rest s) hbusy hdue htime,
      if_neg (show ¬ (beginTurn t rest s).txPos < 10 from (Nat.lt_irrefl 10 <| hpos ▸ ·)), writeFinish_eq]
    rfl

/-- Settles O35: a taken step is W1 to W9 or W10, and both are taken within the bounds. -/
theorem writeStepsKeepTheirBounds : Obligations.WriteStepsKeepTheirBounds := by
  intro s t u rest h hsched hmove hstep hbusy htaken
  have heffect := step_turn_effect hsched hstep
  rw [hmove] at heffect
  cases heffect with
  | stood => simp [hbusy] at htaken
  | sentCell _ hdue htime => exact ⟨hdue, htime⟩
  | finished _ hdue htime =>
    rw [writeFinish_eq]
    exact ⟨hdue, htime⟩

end Sys2Proof.Machine
end

section
/-! PROOFS. What an evaluation does inside a frame (R105 to R108), and what a commit notifies (R171). -/

namespace Sys2Proof.Machine

theorem ringCount_storeByte {s : State} (h : Inv s) (v : Byte) (hroom : ringCount s < s.construction.cap - 1) :
    ringCount (storeByte v s) = ringCount s + 1 :=
  (ringCount_push h.headRange h.tailRange (h.nextCell_ne_tail hroom)).1

/-- Settles O23: a full ring drops the byte; any other stores it and notifies the handler, if there is one, with the new count. -/
theorem commitNotifiesStoredBytes : Obligations.CommitNotifiesStoredBytes := by
  intro s v h
  rcases h.full_or_room with hfull | hroom
  · exact ⟨_, commit_of_full h v hfull, fun hroom => by omega, fun _ => ⟨rfl, rfl⟩⟩
  · refine ⟨_, commit_of_room h v hroom, fun _ => ?_, fun hfull => by omega⟩
    have hcontents := contents_storeByte h v hroom
    rw [ringCount_storeByte h v hroom]
    split
    · exact ⟨hcontents, rfl, (List.append_nil _).symm⟩
    · exact ⟨hcontents, rfl, rfl⟩

/-- The byte of a frame whose cells from `i` on all have the data bit `bit`. -/
def filledByte (acc : Byte) (i : Nat) (bit : Bool) : Byte := acc ||| (if bit then BitVec.allOnes 8 <<< i else 0#8)

theorem filledByte_getLsbD {acc : Byte} {i : Nat} (hhigh : ∀ n, i ≤ n → acc.getLsbD n = false) (bit : Bool) {n : Nat}
    (hn : n < 8) : (filledByte acc i bit).getLsbD n = if i ≤ n then bit else acc.getLsbD n := by
  have hshift : (BitVec.allOnes 8 <<< i).getLsbD n = decide (i ≤ n) := by
    rw [BitVec.getLsbD_shiftLeft, BitVec.getLsbD_allOnes, decide_eq_true hn, decide_eq_true (show n - i < 8 by omega),
      Bool.true_and, Bool.and_true, ← decide_not]
    exact decide_eq_decide.mpr Nat.not_lt
  have hmask : (if bit then BitVec.allOnes 8 <<< i else 0#8).getLsbD n = (decide (i ≤ n) && bit) := by
    cases bit with
    | false => rw [Bool.and_false]; exact BitVec.getLsbD_zero
    | true => rw [Bool.and_true]; exact hshift
  unfold filledByte
  rw [BitVec.getLsbD_or, hmask]
  by_cases hin : i ≤ n
  · simp [hin, hhigh n hin]
  · simp [hin]

/-- The data bit an evaluation gives to every cell it advances (R106, R107). -/
def attributedBit (k : EvalKind) (s : State) : Bool := lineBit s.construction.invert (levelBefore k s.rxIn)

/-- Settles O27: an evaluation of an open frame, read against the byte that has the attributed bit in every cell from `i` on. -/
theorem evaluationAdvancesPassedCells : Obligations.EvaluationAdvancesPassedCells := by
  intro s k i h hi hpassed hopen
  have hhigh := h.accHigh i hi
  have hbyte := fun {n : Nat} (hn : n < 8) => filledByte_getLsbD hhigh (attributedBit k s) hn
  obtain ⟨t, heval⟩ := evaluate_total h k
  rcases evaluate_open h hi (b := filledByte s.rxAcc i (attributedBit k s))
      (fun n hn => by rw [hbyte (by omega), if_neg (by omega)]) (fun n hn hn8 _ => by rw [hbyte hn8, if_pos hn]; rfl) heval
    with ⟨-, j, hij, hbefore, hafter, hacc, ht⟩ | ⟨hlate, -⟩
  · have hlt : i < j := by
      refine lt_of_le_of_ne hij fun heq => ?_
      subst heq
      omega
    have ht_high := (h.evaluate (h.frameAttached (by simp [hi])) heval).accHigh j (by rw [ht])
    refine ⟨j, t.rxAcc, hlt, hafter hlt, hbefore, fun n => ?_, heval.trans (congrArg _ ht)⟩
    rcases Nat.lt_or_ge n j with hn | hn
    · rw [hacc n hn, hbyte (by omega)]
      simp only [hn, and_true]
      cases k <;> rfl
    · have hin : i.val ≤ n := Nat.le_trans hij hn
      rw [ht_high n hn, if_neg (by omega), hhigh n hin]
  · omega

/-- Settles O28: the same reading of the frame; at `Mid(7)` the byte so filled is committed. -/
theorem lateEvaluationCommits : Obligations.LateEvaluationCommits := by
  intro s k i h hi hlate
  have hhigh := h.accHigh i hi
  have hbyte := fun {n : Nat} (hn : n < 8) => filledByte_getLsbD hhigh (attributedBit k s) hn
  obtain ⟨t, heval⟩ := evaluate_total h k
  rcases evaluate_open h hi (b := filledByte s.rxAcc i (attributedBit k s))
      (fun n hn => by rw [hbyte (by omega), if_neg (by omega)]) (fun n hn hn8 _ => by rw [hbyte hn8, if_pos hn]; rfl) heval
    with ⟨hearly, -⟩ | ⟨-, u, hcommit, ht⟩
  · omega
  · refine ⟨_, u, hcommit, fun n hn => by rw [hbyte hn]; cases k <;> rfl, ?_⟩
    rw [heval, ht]
    simp only [startsNext, startLevel, Bool.and_eq_true, beq_iff_eq]

end Sys2Proof.Machine
end

section
/-! PROOFS. The counter and true time (R114, R249): the reference of an open frame and the start of a `write` in flight stay, so with
sane gaps the difference of two readings of the counter is the number of cycles between them. -/

namespace Sys2Proof.Machine

/-- While a `write` is in flight no step writes the time of its start. -/
theorem step_keeps_txT0 {s t : State} (hstep : step s = .next t) (hbusy : s.busy = true) : t.txT0 = s.txT0 := by
  rcases step_effect hstep with ⟨-, rfl⟩ | ⟨u, rest, -, heffect⟩
  · rfl
  generalize u.move = m at heffect
  cases heffect with
  | commanded _ hidle => exact absurd (hidle.symm.trans hbusy) Bool.false_ne_true
  | destroyed hidle => exact absurd (hidle.symm.trans hbusy) Bool.false_ne_true
  | finished => rw [writeFinish_eq]; rfl
  | evaluated _ heval => rw [evaluate_frame heval]; rfl
  | delivered _ heval => rw [evaluate_frame heval]; rfl
  | stood | answeredRate | sentCell | latched | dropped => rfl

theorem run_succ_step {s t u : State} {n : Nat} (ht : run n s = .next t) (hu : run (n + 1) s = .next u) :
    step t = .next u := by
  rw [run_add ht] at hu
  obtain ⟨v, hstep, hv⟩ := run_succ_cases hu
  cases hv
  exact hstep

theorem writeOpen_txT0 {s t : State} {m : Nat} (ht : run m s = .next t) {d : Nat} (hopen : WriteOpen s m (m + d + 1))
    {u : State} (hu : run (m + d) s = .next u) : u.txT0 = t.txT0 := by
  induction d generalizing u with
  | zero => cases ht.symm.trans hu; rfl
  | succ d ih =>
    obtain ⟨v, hv, hbusy⟩ := hopen (m + d) (Nat.le_add_right _ _) (by omega)
    rw [step_keeps_txT0 (run_succ_step hv hu) hbusy]
    exact ih (fun k hmk hk => hopen k hmk (by omega)) hv

/-- A reference taken from the counter `clock s m` cycles into the run reads the cycles since then, if they are fewer than 2^32. -/
theorem elapsedSince_of_run {s t u : State} {turn : Turn} {rest : List Turn} {m n : Nat} (hmn : m ≤ n)
    (ht : run m s = .next t) (hu : run n s = .next u) (hturn : u.schedule = turn :: rest)
    (hgap : clock s (n + 1) - clock s m < 2 ^ 32) :
    elapsedSince t.cycle (beginTurn turn rest u).cycle = clock s (n + 1) - clock s m := by
  have hclock : clock s (n + 1) = clock s n + turn.elapsed := clock_succ_of_turn ⟨u, rest, hu, hturn, rfl⟩
  have hmono := clock_mono s hmn
  have hcycle : (beginTurn turn rest u).cycle = t.cycle + BitVec.ofNat 32 (clock s (n + 1) - clock s m) := by
    calc (beginTurn turn rest u).cycle
        = s.cycle + BitVec.ofNat 32 (clock s n) + BitVec.ofNat 32 turn.elapsed := by
          rw [beginTurn_cycle, (run_readings hu).2]
      _ = s.cycle + BitVec.ofNat 32 (clock s m) + BitVec.ofNat 32 (clock s (n + 1) - clock s m) := by
          rw [BitVec.add_assoc, BitVec.add_assoc, ← BitVec.ofNat_add, ← BitVec.ofNat_add]
          congr 2
          omega
      _ = t.cycle + BitVec.ofNat 32 (clock s (n + 1) - clock s m) := by rw [(run_readings ht).2]
  rw [hcycle]
  exact elapsedTimeWraps.2 t.cycle _ hgap

/-- Settles O59: the reference is that of the state after `m` turns, whose counter has been running since. -/
theorem saneCounterMeasuresTrueTime : Obligations.SaneCounterMeasuresTrueTime := by
  intro s t u turn rest m n hsane hmn ht hu hturn
  refine ⟨fun hopen heval href => ?_, fun hopen hwrite hstart => ?_⟩
  · have hkept : u.rxRef = t.rxRef := by
      obtain ⟨ref, hframe⟩ := hopen
      obtain ⟨t', ht', -, htref⟩ := hframe m (Nat.le_refl _) (by omega)
      obtain ⟨u', hu', -, huref⟩ := hframe n hmn (by omega)
      cases ht.symm.trans ht'
      cases hu.symm.trans hu'
      rw [huref, htref]
    rw [hkept, href]
    exact elapsedSince_of_run hmn ht hu hturn (hsane m n (.inl ⟨hopen, heval⟩))
  · have hkept : u.txT0 = t.txT0 := by
      obtain ⟨d, rfl⟩ := Nat.exists_eq_add_of_le hmn
      exact writeOpen_txT0 ht hopen hu
    rw [hkept, hstart]
    exact elapsedSince_of_run hmn ht hu hturn (hsane m n (.inr ⟨hopen, hwrite⟩))

end Sys2Proof.Machine
end

section
/-! PROOFS. A whole `write` (R141 to R149): the state after W0 and each of W1 to W9 in closed form, one turn from each to the next,
and what W10 gives back. -/

namespace Sys2Proof.Machine

/-- The turn of the host that takes step W(k+1) of a `write`, as `writeTurns` schedules it. -/
def cellTurn (offset : Nat → Nat) (level masked : Nat → Bool) (k : Nat) : Turn :=
  { elapsed := offset (k + 1) - offset k, level := level (k + 1), masked := masked (k + 1), move := .writeStep }

/-- The drive events of cells 1 to `k` of the frame of `b` (R142, R143). -/
def cellEvents (c : Construction) (b : Byte) (t0 : Word) (offset : Nat → Nat) (k : Nat) : List Output :=
  (List.range k).map fun j => .drive c.txPin (cellLevel c.invert b (j + 1)) (t0 + BitVec.ofNat 32 (offset (j + 1)))

/-- The state after W0, which left `w`, and the turns of W1 to Wk. -/
def afterCells (w : State) (offset : Nat → Nat) (level masked : Nat → Bool) (k : Nat) : State :=
  { w with
    txPos := k + 1
    txLevel := if k = 0 then w.txLevel else cellLevel w.construction.invert w.txByte k
    outputs := w.outputs ++ cellEvents w.construction w.txByte w.cycle offset k
    cycle := w.cycle + BitVec.ofNat 32 (offset k)
    rxIn := if k = 0 then w.rxIn else level k
    platformMask := if k = 0 then w.platformMask else masked k
    schedule := ((List.range 10).map (cellTurn offset level masked)).drop k }

/-- The state in which the host takes step W(k+1): that turn's readings stand on the ports. -/
def beforeCell (w : State) (offset : Nat → Nat) (level masked : Nat → Bool) (k : Nat) : State :=
  beginTurn (cellTurn offset level masked k) (((List.range 10).map (cellTurn offset level masked)).drop (k + 1))
    (afterCells w offset level masked k)

/-- A list of ten is one from its front at a time. -/
theorem drop_map_range_ten {α : Type} (f : Nat → α) {k : Nat} (hk : k < 10) :
    ((List.range 10).map f).drop k = f k :: ((List.range 10).map f).drop (k + 1) := by
  rw [List.drop_eq_getElem_cons (by simpa using hk)]
  simp

theorem cellEvents_succ (c : Construction) (b : Byte) (t0 : Word) (offset : Nat → Nat) (k : Nat) :
    cellEvents c b t0 offset (k + 1) = cellEvents c b t0 offset k ++
      [.drive c.txPin (cellLevel c.invert b (k + 1)) (t0 + BitVec.ofNat 32 (offset (k + 1)))] := by
  simp [cellEvents, List.range_succ]

section frame
variable {w : State} {offset : Nat → Nat} {level masked : Nat → Bool}

/-- What `w` is when W0 has just left it with the turns of W1 to W10 to come. -/
structure StartedWrite (w : State) (offset : Nat → Nat) (level masked : Nat → Bool) : Prop where
  busy : w.busy = true
  start : w.txT0 = w.cycle
  first : w.txPos = 1
  mark : w.refusal = none
  turns : w.schedule = (List.range 10).map (cellTurn offset level masked)
  zero : offset 0 = 0
  rising : ∀ k < 10, offset k ≤ offset (k + 1)
  fits : offset 10 < 2 ^ 32
  due : ∀ k, 1 ≤ k → k ≤ 10 → k * w.period.toNat ≤ offset k
  inTime : w.intSuspend = true → ∀ k, 1 ≤ k → k ≤ 10 → offset k ≤ k * w.period.toNat + w.platform.txJitter

variable (hw : StartedWrite w offset level masked)
include hw

theorem StartedWrite.afterCells_zero : afterCells w offset level masked 0 = w := by
  have hcycle : w.cycle + BitVec.ofNat 32 (offset 0) = w.cycle := by rw [hw.zero]; exact BitVec.add_zero _
  have hevents : w.outputs ++ cellEvents w.construction w.txByte w.cycle offset 0 = w.outputs := List.append_nil _
  have hturns := hw.turns
  unfold afterCells
  simp only [hcycle, hevents, List.drop_zero, ← hturns, if_pos, Nat.zero_add, ← hw.first]

theorem StartedWrite.offset_le {k : Nat} (hk : k ≤ 10) : offset k ≤ offset 10 := by
  induction hk using Nat.decreasingInduction with
  | self => exact Nat.le_refl _
  | of_succ k hk ih => exact (hw.rising k hk).trans ih

theorem StartedWrite.beforeCell_cycle {k : Nat} (hk : k < 10) :
    (beforeCell w offset level masked k).cycle = w.cycle + BitVec.ofNat 32 (offset (k + 1)) := by
  change w.cycle + BitVec.ofNat 32 (offset k) + BitVec.ofNat 32 (offset (k + 1) - offset k) = _
  rw [BitVec.add_assoc, ← BitVec.ofNat_add, Nat.add_sub_cancel' (hw.rising k hk)]

/-- Each of the ten turns takes its step, at or after its deadline and in time (R144, R145). -/
theorem StartedWrite.step_cell {k : Nat} (hk : k < 10) : step (afterCells w offset level masked k) =
    .next (if k + 1 < 10 then writeCell (beforeCell w offset level masked k)
      else writeFinish (beforeCell w offset level masked k)) := by
  have hturn : (afterCells w offset level masked k).schedule = _ := drop_map_range_ten (cellTurn offset level masked) hk
  have helapsed : elapsedSince w.txT0 (beforeCell w offset level masked k).cycle = offset (k + 1) := by
    rw [hw.start, hw.beforeCell_cycle hk]
    exact elapsedTimeWraps.2 _ _ ((hw.offset_le (Nat.succ_le_of_lt hk)).trans_lt hw.fits)
  rw [step_of_unmarked_turn hturn hw.mark]
  exact takeWriteStep_taken (s := beforeCell w offset level masked k) hw.busy
    ((hw.due (k + 1) (by omega) (by omega)).trans_eq helapsed.symm)
    fun hsuspend => helapsed.trans_le (hw.inTime hsuspend (k + 1) (by omega) (by omega))

theorem StartedWrite.writeCell_beforeCell {k : Nat} (hk : k < 10) :
    writeCell (beforeCell w offset level masked k) = afterCells w offset level masked (k + 1) := by
  unfold afterCells
  rw [cellEvents_succ, ← List.append_assoc, ← hw.beforeCell_cycle hk]
  rfl

theorem StartedWrite.run_cells {k : Nat} (hk : k ≤ 9) : run k w = .next (afterCells w offset level masked k) := by
  induction k with
  | zero => rw [hw.afterCells_zero, run_zero]
  | succ k ih =>
    rw [run_add (ih (by omega)), run_succ_next (hw.step_cell (by omega)), if_pos (by omega),
      hw.writeCell_beforeCell (by omega), run_zero]

/-- The ten turns behind W0. -/
theorem StartedWrite.run_frame : run 10 w = .next (writeFinish (beforeCell w offset level masked 9)) :=
  (run_add (m := 9) (n := 1) (hw.run_cells (Nat.le_refl 9))).trans (run_succ_next (hw.step_cell (by decide)))

end frame

/-- The turn in which the host presents `write`, as `writeTurns` schedules it. -/
def writeTurn (b : Byte) (first : Nat) (level masked : Nat → Bool) : Turn :=
  { elapsed := first, level := level 0, masked := masked 0, move := .command (encode (.write b)) }

theorem writeTurns_eq (b : Byte) (first : Nat) (offset : Nat → Nat) (level masked : Nat → Bool) :
    writeTurns b first offset level masked =
      writeTurn b first level masked :: (List.range 10).map (cellTurn offset level masked) := rfl

/-- What the host's turn with `write` leaves, the ten turns still to come. -/
def afterStart (s : State) (b : Byte) (first : Nat) (offset : Nat → Nat) (level masked : Nat → Bool) : State :=
  writeSetup b (beginTurn (writeTurn b first level masked) ((List.range 10).map (cellTurn offset level masked)) s)

theorem step_writeTurn {s : State} {b : Byte} {first : Nat} {offset : Nat → Nat} {level masked : Nat → Bool}
    (hsched : s.schedule = writeTurns b first offset level masked) (hbusy : s.busy = false) (hlive : s.destroyed = false)
    (hmark : s.refusal = none) (hvalid : s.txValid = true) : step s = .next (afterStart s b first offset level masked) := by
  rw [step_of_turn (hsched.trans (writeTurns_eq ..))]
  exact (runMove_command_ok (s := beginTurn _ _ s) hbusy hlive hmark (decodeInvertsEncode _)).trans
    (exec_write_valid (s := beginTurn _ _ s) hvalid b)

/-- W0 from an idle block, with the ten turns behind it, starts a frame that those turns complete. -/
theorem startedWrite_afterStart {s : State} {b : Byte} {first : Nat} {offset : Nat → Nat} {level masked : Nat → Bool}
    (h : Inv s) (hbusy : s.busy = false) (hmark : s.refusal = none) (hzero : offset 0 = 0)
    (hrising : ∀ k < 10, offset k ≤ offset (k + 1)) (hfits : offset 10 < 2 ^ 32)
    (hdue : ∀ k, 1 ≤ k → k ≤ 10 → k * s.period.toNat ≤ offset k)
    (htime : s.intTxEnabled = false → ∀ k, 1 ≤ k → k ≤ 10 → offset k ≤ k * s.period.toNat + s.platform.txJitter) :
    StartedWrite (afterStart s b first offset level masked) offset level masked := by
  have hquiet : s.intSuspend = false := by rw [h.suspension, hbusy, Bool.false_and]
  unfold afterStart
  rw [writeSetup_eq]
  refine ⟨rfl, rfl, rfl, hmark, rfl, hzero, hrising, hfits, hdue, fun hsuspend => htime ?_⟩
  cases hchoice : s.intTxEnabled with
  | false => rfl
  | true => simp [hchoice, hquiet] at hsuspend

/-- The events of W0 (R141, R146, R148). -/
def startEvents (s : State) (t0 : Word) : List Output :=
  (if s.intTxEnabled then [] else [Output.suspend true t0]) ++ (if s.teValid then [Output.drive s.tePin true t0] else []) ++
    [Output.drive s.construction.txPin s.construction.invert t0]

/-- The events of W10 (R141, R149). -/
def finishEvents (s : State) (suspended : Bool) (t : Word) : List Output :=
  (if s.teValid then [Output.drive s.tePin false t] else []) ++ (if suspended then [Output.suspend false t] else []) ++
    [Output.response 1#32]

theorem writeSetup_outputs (b : Byte) (s : State) : (writeSetup b s).outputs = s.outputs ++ startEvents s s.cycle := by
  rw [writeSetup_eq]
  simp only [startEvents, List.append_assoc]

theorem writeFinish_outputs (s : State) :
    (writeFinish s).outputs = s.outputs ++ finishEvents s s.txSave.suspended s.cycle := by
  rw [writeFinish_eq]
  simp only [finishEvents, List.append_assoc]

/-- The events of a whole `write` are those of W0, of cells 1 to 9 and of W10. -/
theorem writeOutputs_eq (s : State) (b : Byte) (t0 : Word) {offset : Nat → Nat} (hzero : offset 0 = 0) :
    writeOutputs s b t0 offset = startEvents s t0 ++ cellEvents s.construction b t0 offset 9 ++
      finishEvents s (!s.intTxEnabled) (t0 + BitVec.ofNat 32 (offset 10)) := by
  have hstart : t0 + BitVec.ofNat 32 (offset 0) = t0 := by rw [hzero]; exact BitVec.add_zero _
  unfold writeOutputs startEvents cellEvents finishEvents
  rw [List.range_succ_eq_map, List.map_cons, List.map_map, hstart]
  cases s.intTxEnabled <;> simp [Function.comp_def, cellLevel]

/-- A detached receiver is idle (R116). -/
theorem Inv.rxIdx_of_detached {s : State} (h : Inv s) (hoff : s.rxEnabled = false) : s.rxIdx = .idle := by
  by_contra hopen
  exact absurd (hoff.symm.trans (h.frameAttached hopen)) Bool.false_ne_true

/-- The assembly over a whole `write`: W0 or W10 resets it in one-wire mode, where it is not at rest already. -/
theorem reset_over_write {α : Type} {rest x : α} (wire enabled saved : Bool) (h : enabled = false → x = rest) :
    (if wire && (if wire then enabled else saved) then rest else if wire && enabled then rest else x) =
      if wire then rest else x := by
  cases wire <;> cases enabled <;> simp [h]

/-- Settles O37: W0, then the ten turns behind it, each at its time; what W0 saved, W10 gives back. -/
theorem writeTransmitsFrame : Obligations.WriteTransmitsFrame := by
  intro s b first offset level masked h hbusy hlive hmark hvalid hzero hrising hfits hdue htime hsched
  have hquiet : s.intSuspend = false := by rw [h.suspension, hbusy, Bool.false_and]
  have hstarted := startedWrite_afterStart (b := b) (first := first) (level := level) (masked := masked) h hbusy hmark hzero
    hrising hfits hdue htime
  have hrun := (run_succ_next (step_writeTurn hsched hbusy hlive hmark hvalid)).trans hstarted.run_frame
  have houtputs : (writeFinish (beforeCell (afterStart s b first offset level masked) offset level masked 9)).outputs =
      s.outputs ++ writeOutputs s b (s.cycle + BitVec.ofNat 32 first) offset := by
    have hw0 : (afterStart s b first offset level masked).outputs =
        s.outputs ++ startEvents s (s.cycle + BitVec.ofNat 32 first) := writeSetup_outputs _ _
    rw [writeFinish_outputs, hstarted.beforeCell_cycle (by decide), writeOutputs_eq _ _ _ hzero]
    change (afterStart s b first offset level masked).outputs ++ _ ++ _ = _
    rw [hw0]
    unfold afterStart
    rw [writeSetup_eq]
    simp only [List.append_assoc]
    rfl
  refine ⟨_, hrun, ?_⟩
  rw [houtputs, writeFinish_eq]
  unfold afterStart
  rw [writeSetup_eq]
  refine ⟨rfl, rfl, rfl, ?suspension, rfl, ?direction, ?enable, ?index, ?accumulator, rfl, rfl, rfl, rfl, rfl, rfl, rfl,
    rfl, rfl, rfl, rfl, rfl, rfl⟩
  case suspension =>
    change (if !s.intTxEnabled then false else if s.intTxEnabled then s.intSuspend else true) = false
    cases s.intTxEnabled <;> simp [hquiet]
  case direction =>
    change (if s.oneWire then if s.oneWire then s.lineOut else s.txSave.lineOut else if s.oneWire then true else s.lineOut) =
      s.lineOut
    cases s.oneWire <;> rfl
  case enable =>
    change (if s.oneWire && (if s.oneWire then s.rxEnabled else s.txSave.rx) then true else
      if s.oneWire then false else s.rxEnabled) = s.rxEnabled
    cases s.oneWire <;> cases s.rxEnabled <;> rfl
  case index => exact reset_over_write s.oneWire s.rxEnabled s.txSave.rx h.rxIdx_of_detached
  case accumulator => exact reset_over_write s.oneWire s.rxEnabled s.txSave.rx fun hoff => h.accIdle (h.rxIdx_of_detached hoff)

end Sys2Proof.Machine
end

section
/-! PROOFS. Reception (R250, R251), first part: the premises, the times of the pin's transitions, and the edge event each of them
gives. -/

namespace Sys2Proof.Machine

/-! ### Transitions and their edge events -/

/-- Boundary `k` of the frame `f` is a transition of the pin. -/
structure PinChange (s : State) (frames : List SentFrame) (f : SentFrame) (k : Nat) : Prop where
  mem : f ∈ frames
  lt : k < 10
  changes : f.changesAt s.construction.invert k = true

/-- When boundary `k` of `f` passes the pin. -/
def changeTime (s : State) (f : SentFrame) (k : Nat) : Nat := f.boundary s.period.toNat k

/-- The premises of reception over a run that goes through, with the edge events that EdgeFaithful (R249) speaks of. -/
structure Reception (s : State) (frames : List SentFrame) (drift latency : Nat) (event : Nat → Option Nat) : Prop where
  inv : Inv s
  attached : s.rxEnabled = true
  undisturbed : Undisturbed s
  apart : FramesApart frames s.period.toNat
  read : PinRead s (idleLevel s.construction.invert) (transitionsOf frames s.period.toNat s.construction.invert)
  settled : NonePendingAtPolls s (transitionsOf frames s.period.toNat s.construction.invert)
  accurate : TxAccurate drift frames
  timing : RxTiming drift latency s.period.toNat
  hearing : NoDeafFrame s frames s.period.toNat
  sane : CounterSane s
  total : ∀ n, ∃ v, run n s = .next v
  owed : ∀ a ∈ transitionsOf frames s.period.toNat s.construction.invert, GateOpenThroughout s a.1 →
    (event a.1).isSome = true
  answered : ∀ a ∈ transitionsOf frames s.period.toNat s.construction.invert, ∀ n, event a.1 = some n →
    GateOpenAt s a.1 ∧ EdgeTaken s n ∧ a.1 ≤ clock s (n + 1) ∧ clock s (n + 1) ≤ a.1 + latency
  ordered : ∀ a ∈ transitionsOf frames s.period.toNat s.construction.invert,
    ∀ b ∈ transitionsOf frames s.period.toNat s.construction.invert,
    ∀ m n, event a.1 = some m → event b.1 = some n → a.1 < b.1 → m < n
  caused : ∀ n, EdgeTaken s n →
    ∃ a ∈ transitionsOf frames s.period.toNat s.construction.invert, event a.1 = some n

/-- The edge event of the transition at `time` was taken within the first `n` turns. -/
def Heard (event : Nat → Option Nat) (n time : Nat) : Prop := ∃ m < n, event time = some m

theorem heard_succ {event : Nat → Option Nat} {n time : Nat} :
    Heard event (n + 1) time ↔ Heard event n time ∨ event time = some n := by
  constructor
  · rintro ⟨m, hm, he⟩
    rcases Nat.lt_succ_iff_lt_or_eq.mp hm with hlt | rfl
    · exact .inl ⟨m, hlt, he⟩
    · exact .inr he
  · rintro (⟨m, hm, he⟩ | he)
    · exact ⟨m, Nat.lt_succ_of_lt hm, he⟩
    · exact ⟨n, Nat.lt_succ_self n, he⟩

theorem PinChange.mem_transitionsOf {s : State} {frames : List SentFrame} {f : SentFrame} {k : Nat}
    (hc : PinChange s frames f k) : (changeTime s f k, cellLevel s.construction.invert f.byte k) ∈
      transitionsOf frames s.period.toNat s.construction.invert :=
  Machine.mem_transitionsOf.mpr ⟨f, hc.mem, k, hc.lt, hc.changes, rfl⟩

/-- Every frame begins with a transition. -/
theorem pinChange_start {s : State} {frames : List SentFrame} {f : SentFrame} (hf : f ∈ frames) :
    PinChange s frames f 0 :=
  ⟨hf, by decide, rfl⟩

section reception
variable {s : State} {frames : List SentFrame} {drift latency : Nat} {event : Nat → Option Nat}
variable (h : Reception s frames drift latency event)
include h

theorem Reception.inv_at {n : Nat} {v : State} (hv : run n s = .next v) : Inv v := h.inv.run hv

/-- Along the run the receiver stays attached, and what it reads of the configuration stays. -/
theorem Reception.static {n : Nat} {v : State} (hv : run n s = .next v) :
    v.rxEnabled = true ∧ v.construction = s.construction ∧ v.period = s.period := by
  obtain ⟨hen, hcon, -, -, hper⟩ := undisturbed_static h.undisturbed h.attached (fun n u hu => h.inv.run hu) n v hv
  exact ⟨hen, hcon, hper⟩

/-! ### Times -/

theorem Reception.changeTime_range {f : SentFrame} (hf : f ∈ frames) {k : Nat} (hk : k ≤ 10) :
    f.start + k * s.period.toNat ≤ changeTime s f k ∧ changeTime s f k ≤ f.start + k * s.period.toNat + drift :=
  boundary_range h.accurate hf hk

theorem Reception.changeTime_zero {f : SentFrame} (hf : f ∈ frames) : changeTime s f 0 = f.start := by
  simp [changeTime, SentFrame.boundary, (h.accurate f hf).1]

theorem Reception.changeTime_lt {f : SentFrame} (hf : f ∈ frames) {k q : Nat} (hkq : k < q) (hq : q ≤ 10) :
    changeTime s f k < changeTime s f q := by
  have hapart := boundary_apart h.accurate s.period.toNat hf hkq hq
  have htiming : drift + latency < s.period.toNat / 2 := h.timing
  unfold changeTime
  omega

theorem Reception.start_le {f : SentFrame} (hf : f ∈ frames) {k : Nat} (hk : k ≤ 10) : f.start ≤ changeTime s f k :=
  (Nat.le_add_right _ _).trans (h.changeTime_range hf hk).1

/-- A transition names its frame and its boundary by its time. -/
theorem Reception.changeTime_inj {f g : SentFrame} {k q : Nat} (hf : PinChange s frames f k) (hg : PinChange s frames g q)
    (htime : changeTime s f k = changeTime s g q) : f = g ∧ k = q := by
  have hne : ∀ {a b : SentFrame} {i j : Nat}, PinChange s frames a i → PinChange s frames b j →
      a.boundary s.period.toNat 10 ≤ b.start → changeTime s a i ≠ changeTime s b j := fun ha hb hab => by
    have hlast := h.changeTime_lt ha.mem ha.lt (Nat.le_refl 10)
    have hfirst := h.start_le hb.mem (Nat.le_of_lt hb.lt)
    exact Nat.ne_of_lt (hlast.trans_le (hab.trans hfirst))
  rcases framesApart_order h.apart hf.mem hg.mem with rfl | hfg | hgf
  · refine ⟨rfl, ?_⟩
    rcases Nat.lt_trichotomy k q with hlt | heq | hlt
    · exact absurd htime (Nat.ne_of_lt (h.changeTime_lt hf.mem hlt (Nat.le_of_lt hg.lt)))
    · exact heq
    · exact absurd htime.symm (Nat.ne_of_lt (h.changeTime_lt hf.mem hlt (Nat.le_of_lt hf.lt)))
  · exact absurd htime (hne hf hg hfg)
  · exact absurd htime.symm (hne hg hf hgf)

/-! ### Edge events -/

/-- No state that the block has in the cycle of a transition keeps its gate shut (R252). -/
theorem Reception.gateOpen_at_change {f : SentFrame} {k : Nat} (hc : PinChange s frames f k) {n : Nat} {u : State}
    (hu : run n s = .next u) (hfrom : clock s n ≤ changeTime s f k) (hto : changeTime s f k ≤ clock s (n + 1)) :
    u.gateOpen = true := by
  have hattached := (h.static hu).1
  have hvalid := (h.inv_at hu).attachedValid hattached
  have hclear : u.suspended = false := by
    by_contra hsuspended
    have hfirst := h.start_le hc.mem (Nat.le_of_lt hc.lt)
    have hlast := h.changeTime_lt hc.mem hc.lt (Nat.le_refl 10)
    have hdeaf : clock s (n + 1) < f.start ∨ changeTime s f 10 ≤ clock s n :=
      h.hearing n u hu (Bool.eq_true_of_not_eq_false hsuspended) f hc.mem
    omega
  simp [State.gateOpen, hvalid, hattached, hclear]

/-- Some turn of the run falls into every cycle up to its end. -/
theorem Reception.exists_turn_at {time n : Nat} (hn : time ≤ clock s (n + 1)) :
    ∃ m u, run m s = .next u ∧ clock s m ≤ time ∧ time ≤ clock s (m + 1) := by
  classical
  have hex : ∃ m, time ≤ clock s (m + 1) := ⟨n, hn⟩
  obtain ⟨u, hu⟩ := h.total (Nat.find hex)
  refine ⟨Nat.find hex, u, hu, ?_, Nat.find_spec hex⟩
  cases hm : Nat.find hex with
  | zero => exact Nat.zero_le _
  | succ m => exact Nat.le_of_not_le (Nat.find_min hex (hm ▸ Nat.lt_succ_self m))

/-- Every transition up to the time of some turn gives an edge event. -/
theorem Reception.event_of_passed {f : SentFrame} {k : Nat} (hc : PinChange s frames f k) {n : Nat}
    (hn : changeTime s f k ≤ clock s (n + 1)) : ∃ m, event (changeTime s f k) = some m := by
  obtain ⟨m, u, hu, hfrom, hto⟩ := h.exists_turn_at hn
  refine Option.isSome_iff_exists.mp (h.owed _ hc.mem_transitionsOf ⟨⟨m, u, hu, hfrom, hto, ?_⟩, ?_⟩)
  · exact h.gateOpen_at_change hc hu hfrom hto
  · exact fun m u hu hfrom hto => h.gateOpen_at_change hc hu hfrom hto

theorem Reception.event_spec {f : SentFrame} {k n : Nat} (hc : PinChange s frames f k)
    (he : event (changeTime s f k) = some n) :
    EdgeTaken s n ∧ changeTime s f k ≤ clock s (n + 1) ∧ clock s (n + 1) ≤ changeTime s f k + latency :=
  (h.answered _ hc.mem_transitionsOf n he).2

theorem Reception.edge_cause {n : Nat} (hn : EdgeTaken s n) :
    ∃ f k, PinChange s frames f k ∧ event (changeTime s f k) = some n := by
  obtain ⟨a, ha, he⟩ := h.caused n hn
  obtain ⟨f, hf, k, hk, hchange, rfl⟩ := Machine.mem_transitionsOf.mp ha
  exact ⟨f, k, ⟨hf, hk, hchange⟩, he⟩

theorem Reception.event_lt {f g : SentFrame} {k q m n : Nat} (hf : PinChange s frames f k) (hg : PinChange s frames g q)
    (hm : event (changeTime s f k) = some m) (hn : event (changeTime s g q) = some n)
    (hlt : changeTime s f k < changeTime s g q) : m < n :=
  h.ordered _ hf.mem_transitionsOf _ hg.mem_transitionsOf m n hm hn hlt

/-- One turn takes the edge of one transition. -/
theorem Reception.event_inj {f g : SentFrame} {k q n : Nat} (hf : PinChange s frames f k) (hg : PinChange s frames g q)
    (hn : event (changeTime s f k) = some n) (hn' : event (changeTime s g q) = some n) : f = g ∧ k = q := by
  rcases Nat.lt_trichotomy (changeTime s f k) (changeTime s g q) with hlt | heq | hlt
  · exact absurd (h.event_lt hf hg hn hn' hlt) (Nat.lt_irrefl n)
  · exact h.changeTime_inj hf hg heq
  · exact absurd (h.event_lt hg hf hn' hn hlt) (Nat.lt_irrefl n)

/-- The edges of earlier transitions were taken by earlier turns. -/
theorem Reception.heard_of_earlier {f g : SentFrame} {k q n : Nat} (hf : PinChange s frames f k)
    (hg : PinChange s frames g q) (hn : event (changeTime s g q) = some n) (hlt : changeTime s f k < changeTime s g q) :
    Heard event n (changeTime s f k) := by
  obtain ⟨m, hm⟩ := h.event_of_passed hf (hlt.le.trans (h.event_spec hg hn).2.1)
  exact ⟨m, h.event_lt hf hg hm hn hlt, hm⟩

/-- At a `poll` the edge of every transition up to its time has been taken (R250). -/
theorem Reception.heard_of_poll {f : SentFrame} {k n : Nat} {u : State} (hf : PinChange s frames f k)
    (hpoll : PollTaken s n u) (hpassed : changeTime s f k ≤ clock s (n + 1)) : Heard event n (changeTime s f k) := by
  obtain ⟨m, hmn, hedge, hm⟩ := h.settled n u hpoll _ hf.mem_transitionsOf hpassed
  obtain ⟨g, q, hg, he⟩ := h.edge_cause hedge
  obtain ⟨m', hm'⟩ := h.event_of_passed hf hpassed
  have htiming : drift + latency < s.period.toNat / 2 := h.timing
  refine ⟨m', ?_, hm'⟩
  rcases Nat.lt_or_ge (changeTime s g q) (changeTime s f k) with hlt | hge
  · have hapart : changeTime s g q + s.period.toNat ≤ changeTime s f k + drift :=
      transitions_apart h.accurate h.timing h.apart hg.mem hf.mem hg.lt hf.lt hlt
    have hlate := (h.event_spec hg he).2.2
    have : changeTime s f k ≤ clock s (m + 1) := hm
    omega
  · rcases Nat.eq_or_lt_of_le hge with heq | hlt
    · rw [heq, he] at hm'
      cases hm'
      exact hmn
    · exact (h.event_lt hf hg hm' he hlt).trans hmn

/-- A turn that is no edge adds nothing to what was heard. -/
theorem Reception.event_ne_of_not_edge {f : SentFrame} {k n : Nat} (hf : PinChange s frames f k) (hn : ¬ EdgeTaken s n) :
    event (changeTime s f k) ≠ some n :=
  fun he => hn (h.event_spec hf he).1

/-- The edge of a transition is taken while the pin has the level of the cell that begins there. -/
theorem Reception.level_of_event {f : SentFrame} {k n : Nat} {t : Turn} {u : State} (hc : PinChange s frames f k)
    (he : event (changeTime s f k) = some n) (ht : TurnAt s n t u) :
    t.level = cellLevel s.construction.invert f.byte k := by
  obtain ⟨-, hfrom, hto⟩ := h.event_spec hc he
  have htiming : drift + latency < s.period.toNat / 2 := h.timing
  refine (h.read n t u ht).1 _ hc.mem_transitionsOf hfrom fun b hb hpassed => ?_
  obtain ⟨g, hg, q, hq, -, rfl⟩ := Machine.mem_transitionsOf.mp hb
  refine Nat.le_of_not_lt fun hlt => ?_
  have hapart := transitions_apart h.accurate h.timing h.apart hc.mem hg hc.lt hq hlt
  have hto : clock s (n + 1) ≤ f.boundary s.period.toNat k + latency := hto
  have hpassed : g.boundary s.period.toNat q ≤ clock s (n + 1) := hpassed
  omega

end reception

end Sys2Proof.Machine
end

section
/-! PROOFS. Reception (R250, R251), second part: where the receiver stands after `n` turns, and what the next turn does to it. -/

namespace Sys2Proof.Machine

/-! ### Phases -/

/-- None of these frames has been heard to start within the first `n` turns. -/
def Unheard (s : State) (event : Nat → Option Nat) (n : Nat) (rest : List SentFrame) : Prop :=
  ∀ g ∈ rest, ¬ Heard event n (changeTime s g 0)

/-- After `n` turns, which left `v`, the frame `f` is open since the start edge that turn `m` took: its bits below the index are
received, and its edges heard so far are those up to the cell of the index. -/
structure Receiving (s : State) (frames : List SentFrame) (event : Nat → Option Nat) (m n : Nat) (f : SentFrame) (i : Fin 8)
    (v : State) : Prop where
  mem : f ∈ frames
  start : event (changeTime s f 0) = some m
  before : m < n
  frameOpen : ∀ k, m < k → k ≤ n →
    ∃ t, run k s = .next t ∧ t.rxIdx ≠ .idle ∧ t.rxRef = s.cycle + BitVec.ofNat 32 (clock s (m + 1))
  index : v.rxIdx = .data i
  bits : ∀ b < i.val, v.rxAcc.getLsbD b = f.byte.getLsbD b
  heard : ∀ k, 1 ≤ k → PinChange s frames f k → Heard event n (changeTime s f k) → k ≤ i.val + 1

/-- Where the receiver stands after `n` turns, which left `v`, with the frames `rest` not yet committed. -/
inductive Phase (s : State) (frames : List SentFrame) (event : Nat → Option Nat) (n : Nat) : List SentFrame → State → Prop
  | waiting {rest : List SentFrame} {v : State} (hidle : v.rxIdx = .idle) (hunheard : Unheard s event n rest) :
      Phase s frames event n rest v
  | receiving {f : SentFrame} {rest : List SentFrame} {v : State} {m : Nat} {i : Fin 8}
      (hopen : Receiving s frames event m n f i v) (hunheard : Unheard s event n rest) :
      Phase s frames event n (f :: rest) v

/-- A turn that commits nothing. -/
def QuietTurn (v w : State) : Prop := w.head = v.head ∧ (w.overflow = true → v.overflow = true)

/-- What turn `n` does from `v` to `w`: it commits nothing, or it commits the byte of the frame that was open. -/
inductive TurnOutcome (s : State) (frames : List SentFrame) (event : Nat → Option Nat) (n : Nat) (v w : State) :
    List SentFrame → Prop
  | quiet {rest : List SentFrame} (hquiet : QuietTurn v w) (hphase : Phase s frames event (n + 1) rest w) :
      TurnOutcome s frames event n v w rest
  | commits {f : SentFrame} {rest : List SentFrame} (hcommits : Commits v w f.byte)
      (hcompleted : Completed s [f] s.period.toNat) (hpast : f.start + mid s.period.toNat 7 ≤ clock s (n + 1))
      (hphase : Phase s frames event (n + 1) rest w) : TurnOutcome s frames event n v w (f :: rest)

theorem mid_mono (period : Nat) {i j : Nat} (h : i ≤ j) : mid period i ≤ mid period j :=
  Nat.add_le_add_right (Nat.mul_le_mul_right period (Nat.succ_le_succ h)) _

theorem lt_of_mid_lt {period i j : Nat} (h : mid period i < mid period j) : i < j :=
  Nat.lt_of_not_le fun hji => Nat.not_lt.mpr (mid_mono period hji) h

theorem mid_seven (period : Nat) : mid period 7 = 8 * period + period / 2 := rfl

/-- A commit in a turn, seen from the state the turn before left. -/
theorem commits_of_commit {v x w : State} {t : Turn} {turns : List Turn} {b : Byte} {response : List Output} (h : Inv v)
    (hcommit : commit b (beginTurn t turns v) = .ok x) (hresponse : response = [] ∨ response = [.response 0#32])
    (hcontents : contents w = contents x) (hover : w.overflow = x.overflow)
    (houtputs : w.outputs = x.outputs ++ response) : Commits v w b := by
  obtain ⟨x', hx', hroom, hfull⟩ := commitNotifiesStoredBytes (beginTurn t turns v) b (h.beginTurn t turns)
  cases hcommit.symm.trans hx'
  refine ⟨response, hresponse, fun hr => ?_, fun hf => ?_⟩
  · obtain ⟨h1, h2, h3⟩ := hroom hr
    exact ⟨hcontents.trans h1, hover.trans h2, by rw [houtputs, h3]; rfl⟩
  · obtain ⟨h1, h2⟩ := hfull hf
    exact ⟨hcontents.trans h2, by rw [hover, h1], by rw [houtputs, h1]; rfl⟩

/-- What an evaluation that found a frame open has left as `x`, if it did not commit: the frame goes on at the index `j`. -/
structure GoesOn (v x : State) (b : Byte) (j : Fin 8) : Prop where
  quiet : QuietTurn v x
  index : x.rxIdx = .data j
  ref : x.rxRef = v.rxRef
  bits : ∀ n < j.val, x.rxAcc.getLsbD n = b.getLsbD n

/-- What an evaluation that found a frame open has left as `x`, if it committed the frame's byte: the next frame is open, or the
assembly is idle. A `poll` then responds. -/
structure Ends (v x : State) (b : Byte) (starts : Prop) : Prop where
  commits : Commits v x b
  responds : Commits v (respond 0#32 x) b
  opens : starts → x.rxIdx = .data 0 ∧ x.rxRef = x.cycle
  idles : ¬ starts → x.rxIdx = .idle

/-- The frames behind the first `n` turns' commits, in a list sent one after the other. -/
theorem framesApart_split {done rest : List SentFrame} {f : SentFrame} {period : Nat}
    (h : FramesApart (done ++ f :: rest) period) :
    (∀ g ∈ done, g.boundary period 10 ≤ f.start) ∧ ∀ g ∈ rest, f.boundary period 10 ≤ g.start := by
  obtain ⟨-, hrest, hdone⟩ := List.pairwise_append.mp h
  exact ⟨fun g hg => hdone g hg f List.mem_cons_self, (List.pairwise_cons.mp hrest).1⟩

section reception
variable {s : State} {frames : List SentFrame} {drift latency : Nat} {event : Nat → Option Nat}
variable (h : Reception s frames drift latency event)
include h

/-! ### What is heard -/

omit h in
theorem Unheard.succ {rest : List SentFrame} {n : Nat} (hunheard : Unheard s event n rest)
    (hnot : ∀ g ∈ rest, event (changeTime s g 0) ≠ some n) : Unheard s event (n + 1) rest :=
  fun g hg hheard => (heard_succ.mp hheard).elim (hunheard g hg) (hnot g hg)

/-- The edge of another transition is no start edge. -/
theorem Reception.unheard_of_other {rest : List SentFrame} {n : Nat} (hrest : ∀ g ∈ rest, g ∈ frames)
    (hunheard : Unheard s event n rest) {f : SentFrame} {k : Nat} (hc : PinChange s frames f k)
    (he : event (changeTime s f k) = some n) (hother : ∀ g ∈ rest, g = f → k ≠ 0) : Unheard s event (n + 1) rest :=
  hunheard.succ fun g hg hn => by
    obtain ⟨hgf, hk⟩ := h.event_inj (pinChange_start (hrest g hg)) hc hn he
    exact hother g hg hgf hk.symm

theorem Reception.unheard_of_not_edge {rest : List SentFrame} {n : Nat} (hrest : ∀ g ∈ rest, g ∈ frames)
    (hunheard : Unheard s event n rest) (hn : ¬ EdgeTaken s n) : Unheard s event (n + 1) rest :=
  hunheard.succ fun g hg => h.event_ne_of_not_edge (pinChange_start (hrest g hg)) hn

/-- The first edge of frames that are not heard yet is the start edge of the first of them. -/
theorem Reception.first_edge_of_rest {done rest : List SentFrame} (hframes : frames = done ++ rest) {n : Nat}
    (hunheard : Unheard s event n rest) {f : SentFrame} {k : Nat} (hf : f ∈ rest) (hc : PinChange s frames f k)
    (he : event (changeTime s f k) = some n) : k = 0 ∧ ∃ rest', rest = f :: rest' := by
  have hk : k = 0 := by
    by_contra hk
    have hlt := h.changeTime_lt hc.mem (Nat.pos_of_ne_zero hk) (Nat.le_of_lt hc.lt)
    exact hunheard f hf (h.heard_of_earlier (pinChange_start hc.mem) hc he hlt)
  subst hk
  cases rest with
  | nil => cases hf
  | cons g rest' =>
    rcases List.mem_cons.mp hf with rfl | hf
    · exact ⟨rfl, rest', rfl⟩
    · have hg : g ∈ frames := by simp [hframes]
      have hgf : changeTime s g 10 ≤ f.start := (framesApart_split (hframes ▸ h.apart)).2 f hf
      have hlt := h.changeTime_lt hg (show 0 < 10 by decide) (Nat.le_refl 10)
      refine absurd (h.heard_of_earlier (pinChange_start hg) hc he ?_) (hunheard g List.mem_cons_self)
      rw [h.changeTime_zero hc.mem]
      omega

/-- Once the first frame has started, those behind it are still unheard. -/
theorem Reception.unheard_tail {done rest : List SentFrame} {f : SentFrame} (hframes : frames = done ++ f :: rest) {n : Nat}
    (hunheard : Unheard s event n (f :: rest)) (he : event (changeTime s f 0) = some n) : Unheard s event (n + 1) rest := by
  have hf : f ∈ frames := by simp [hframes]
  refine h.unheard_of_other (fun g hg => by simp [hframes, hg]) (fun g hg => hunheard g (List.mem_cons_of_mem f hg))
    (pinChange_start hf) he fun g hg hgf => ?_
  have hlt := h.changeTime_lt hf (show 0 < 10 by decide) (Nat.le_refl 10)
  have hafter : changeTime s f 10 ≤ g.start := (framesApart_split (hframes ▸ h.apart)).2 g hg
  rw [h.changeTime_zero hf, ← hgf] at hlt
  subst hgf
  omega

/-! ### An open frame -/

/-- The start edge opens the frame. -/
theorem Reception.receiving_of_start {f : SentFrame} {n : Nat} {w : State} (hf : f ∈ frames)
    (he : event (changeTime s f 0) = some n) (hw : run (n + 1) s = .next w) (hidx : w.rxIdx = .data 0)
    (href : w.rxRef = w.cycle) : Receiving s frames event n (n + 1) f 0 w where
  mem := hf
  start := he
  before := Nat.lt_succ_self n
  frameOpen k hlt hle := by
    obtain rfl : k = n + 1 := by omega
    exact ⟨w, hw, by simp [hidx], by rw [href, (run_readings hw).2]⟩
  index := hidx
  bits b hb := absurd hb (Nat.not_lt_zero b)
  heard k hk hc hheard := by
    obtain ⟨m, hm, hm'⟩ := hheard
    have hlt := h.changeTime_lt hf hk (Nat.le_of_lt hc.lt)
    have := h.event_lt (pinChange_start hf) hc he hm' hlt
    omega

omit h in
/-- A turn that leaves the frame open goes on with it. -/
theorem Receiving.goes_on {m n : Nat} {f : SentFrame} {i j : Fin 8} {v w : State}
    (hopen : Receiving s frames event m n f i v) (hv : run n s = .next v) (hw : run (n + 1) s = .next w)
    (hij : i ≤ j) (hon : GoesOn v w f.byte j)
    (hnew : ∀ k, 1 ≤ k → PinChange s frames f k → event (changeTime s f k) = some n → k ≤ j.val + 1) :
    Receiving s frames event m (n + 1) f j w where
  mem := hopen.mem
  start := hopen.start
  before := Nat.lt_succ_of_lt hopen.before
  frameOpen k hlt hle := by
    rcases Nat.eq_or_lt_of_le hle with rfl | hlt'
    · obtain ⟨v', hv', -, hv'ref⟩ := hopen.frameOpen n hopen.before (Nat.le_refl n)
      cases hv.symm.trans hv'
      exact ⟨w, hw, by simp [hon.index], hon.ref.trans hv'ref⟩
    · exact hopen.frameOpen k hlt (Nat.le_of_lt_succ hlt')
  index := hon.index
  bits := hon.bits
  heard k hk hc hheard := by
    rcases heard_succ.mp hheard with hheard | he
    · exact (hopen.heard k hk hc hheard).trans (Nat.succ_le_succ hij)
    · exact hnew k hk hc he

/-- What the counter measures at an evaluation of an open frame is the time since its start edge, which was at most the latency
after its boundary 0. -/
theorem Reception.elapsed {m n : Nat} {f : SentFrame} {i : Fin 8} {v u : State} {t : Turn}
    (hopen : Receiving s frames event m n f i v) (hv : run n s = .next v) (ht : TurnAt s n t u) (heval : Evaluates s n) :
    elapsedSince u.rxRef u.cycle = clock s (n + 1) - clock s (m + 1) ∧ clock s (m + 1) ≤ clock s (n + 1) ∧
      f.start ≤ clock s (m + 1) ∧ clock s (m + 1) ≤ f.start + latency := by
  obtain ⟨v', turns, hv', hturn, rfl⟩ := ht
  cases hv.symm.trans hv'
  obtain ⟨x, hx, -, hxref⟩ := hopen.frameOpen (m + 1) (Nat.lt_succ_self m) hopen.before
  obtain ⟨-, hfrom, hto⟩ := h.event_spec (pinChange_start hopen.mem) hopen.start
  rw [h.changeTime_zero hopen.mem] at hfrom hto
  refine ⟨?_, clock_mono s (Nat.le_succ_of_le hopen.before), hfrom, hto⟩
  refine (saneCounterMeasuresTrueTime s x v t turns (m + 1) n h.sane hopen.before hx hv hturn).1 ?_ heval ?_
  · exact ⟨_, fun k hmk hk => hopen.frameOpen k hmk (Nat.le_of_lt_succ hk)⟩
  · rw [hxref, (run_readings hx).2]

/-- One evaluation of an open frame, in the terms of the run. -/
theorem Reception.evaluate_receiving {m n : Nat} {f : SentFrame} {i : Fin 8} {v u x : State} {t : Turn} {k : EvalKind}
    (hopen : Receiving s frames event m n f i v) (hv : run n s = .next v) (ht : TurnAt s n t u) (heval : Evaluates s n)
    (hx : evaluate k u = .ok x)
    (hbit : ∀ b, i.val ≤ b → b < 8 → mid s.period.toNat b ≤ clock s (n + 1) - clock s (m + 1) →
      lineBit s.construction.invert (levelBefore k t.level) = f.byte.getLsbD b) :
    (∃ j : Fin 8, i ≤ j ∧ clock s (n + 1) - clock s (m + 1) < mid s.period.toNat j ∧ GoesOn v x f.byte j) ∨
    (mid s.period.toNat 7 ≤ clock s (n + 1) - clock s (m + 1) ∧
      Ends v x f.byte (k = .edge ∧ t.level = startLevel s.construction.invert)) := by
  have helapsed := (h.elapsed hopen hv ht heval).1
  obtain ⟨-, hcon, hper⟩ := h.static hv
  have hinv := h.inv_at hv
  obtain ⟨turns, rfl⟩ := ht.found hv
  rw [beginTurn_rxRef] at helapsed
  rw [← hcon, ← hper, ← helapsed] at hbit
  rw [← hcon, ← hper, ← helapsed]
  rcases evaluate_open (hinv.beginTurn t turns) hopen.index hopen.bits hbit hx with
    ⟨-, j, hij, hbefore, -, hacc, hx⟩ | ⟨hlate, y, hcommit, hx⟩
  · exact .inl ⟨j, hij, hbefore, by rw [hx]; exact ⟨rfl, id⟩, by rw [hx], by rw [hx]; rfl, hacc⟩
  · have hcycle : y.cycle = (beginTurn t turns v).cycle := by rw [commit_frame hcommit]
    have hstarts : startsNext k (beginTurn t turns v) = true ↔
        k = .edge ∧ t.level = startLevel v.construction.invert := by simp [startsNext]
    have hkept : contents x = contents y ∧ x.overflow = y.overflow ∧ x.outputs = y.outputs := by
      rw [hx]
      split <;> exact ⟨rfl, rfl, rfl⟩
    obtain ⟨hcontents, hover, houtputs⟩ := hkept
    refine .inr ⟨hlate, ?_, ?_, fun hs => ?_, fun hs => ?_⟩
    · exact commits_of_commit hinv hcommit (.inl rfl) hcontents hover (houtputs.trans (List.append_nil _).symm)
    · exact commits_of_commit hinv hcommit (.inr rfl) hcontents hover (congrArg (· ++ _) houtputs)
    · rw [hx, if_pos (hstarts.mpr hs)]
      exact ⟨rfl, hcycle.symm⟩
    · rw [hx, if_neg (mt hstarts.mp hs)]

omit h in
/-- The cells from the index's on up to cell `K` have the level of cell `K`, if no transition stands between them. -/
theorem bit_of_constant_cells {f : SentFrame} {i : Fin 8} {K b : Nat} (hK : K < 10)
    (hnone : ∀ k, PinChange s frames f k → k ≤ K → k ≤ i.val + 1) (hf : f ∈ frames) (hib : i.val ≤ b) (hb : b < 8)
    (hbK : b + 1 ≤ K) : lineBit s.construction.invert (cellLevel s.construction.invert f.byte K) = f.byte.getLsbD b := by
  rw [cellLevel_const hbK fun k hbk hkK => ?_, lineBit_cellLevel _ _ hb]
  by_contra hchange
  have := hnone k ⟨hf, Nat.lt_of_le_of_lt hkK hK, Bool.eq_true_of_not_eq_false hchange⟩ hkK
  omega

/-- When an edge is taken, every earlier transition of the open frame has been heard. -/
theorem Reception.heard_before_edge {m n : Nat} {f g : SentFrame} {i : Fin 8} {v : State} {q : Nat}
    (hopen : Receiving s frames event m n f i v) (hc : PinChange s frames g q) (he : event (changeTime s g q) = some n)
    {K : Nat} (hK : K ≤ 10) (hbefore : changeTime s f K < changeTime s g q) :
    ∀ k, PinChange s frames f k → k ≤ K → k ≤ i.val + 1 := by
  intro k hk hkK
  rcases Nat.eq_zero_or_pos k with rfl | hpos
  · exact Nat.zero_le _
  refine hopen.heard k hpos hk (h.heard_of_earlier hk hc he ?_)
  rcases Nat.eq_or_lt_of_le hkK with rfl | hlt
  · exact hbefore
  · exact (h.changeTime_lt hopen.mem hlt hK).trans hbefore

end reception

end Sys2Proof.Machine
end

section
/-! PROOFS. Reception (R250, R251), third part: each turn of the run commits nothing, or commits the byte of the frame that was open. -/

namespace Sys2Proof.Machine

theorem cellLevel_start (invert : Bool) (b : Byte) : cellLevel invert b 0 = startLevel invert := rfl

theorem cellLevel_stop (invert : Bool) (b : Byte) : cellLevel invert b 9 = idleLevel invert := rfl

/-- At a boundary where the level changes, the level before is that of the cell before. -/
theorem levelBefore_edge {f : SentFrame} {invert : Bool} {q : Nat} (hchange : f.changesAt invert (q + 1) = true) :
    levelBefore .edge (cellLevel invert f.byte (q + 1)) = cellLevel invert f.byte q := by
  have hne : cellLevel invert f.byte (q + 1) ≠ cellLevel invert f.byte q := by
    simpa [SentFrame.changesAt] using hchange
  exact Bool.eq_not_of_ne hne.symm |>.symm

section reception
variable {s : State} {frames : List SentFrame} {drift latency : Nat} {event : Nat → Option Nat}
variable (h : Reception s frames drift latency event)
variable {done rest : List SentFrame} {n : Nat} {v w : State} (hv : run n s = .next v) (hw : run (n + 1) s = .next w)
include h hv hw

/-! ### A turn that evaluates nothing -/

theorem Reception.outcome_of_no_evaluation (hframes : frames = done ++ rest) (hphase : Phase s frames event n rest v)
    (hlt : n < s.schedule.length) (hedge : ¬ EdgeTaken s n) (hpoll : ∀ u, ¬ PollTaken s n u) :
    TurnOutcome s frames event n v w rest := by
  obtain ⟨t, u, ht⟩ := turnAt_of_lt hv hlt
  obtain ⟨turns, hu⟩ := ht.found hv
  obtain ⟨hen, hcon, -⟩ := h.static hv
  have hwire : u.oneWire = s.oneWire := by rw [hu]; unfold State.oneWire; rw [beginTurn_construction, hcon]
  have hsame := receiver_quiet h.undisturbed hwire (hu ▸ (h.inv_at hv).beginTurn t turns) (by rw [hu]; exact hen) ht hw
    hedge hpoll
  rw [hu] at hsame
  obtain ⟨hrx, hover⟩ := hsame
  simp only [receiver, Prod.mk.injEq] at hrx
  obtain ⟨-, -, ⟨hidx, hacc, href⟩, hhead⟩ := hrx
  cases hphase with
  | waiting hidle hunheard =>
    exact .quiet ⟨hhead, hover⟩ (.waiting (hidx.trans hidle)
      (h.unheard_of_not_edge (fun g hg => by simp [hframes, hg]) hunheard hedge))
  | receiving hopen hunheard =>
    have hon : GoesOn v w _ _ := ⟨⟨hhead, hover⟩, hidx.trans hopen.index, href, fun b hb => hacc ▸ hopen.bits b hb⟩
    exact .quiet hon.quiet (.receiving
      (hopen.goes_on hv hw (le_refl _) hon fun k _ hc he => absurd he (h.event_ne_of_not_edge hc hedge))
      (h.unheard_of_not_edge (fun g hg => by simp [hframes, hg]) hunheard hedge))

/-! ### An edge while no frame is open -/

/-- An edge that finds the assembly idle is the stop edge of a frame already committed, or the start edge of the next one. -/
theorem Reception.outcome_edge_waiting (hframes : frames = done ++ rest)
    (hpast : ∀ g ∈ done, g.start + mid s.period.toNat 7 ≤ clock s n) (hidle : v.rxIdx = .idle)
    (hunheard : Unheard s event n rest) (hedge : EdgeTaken s n) : TurnOutcome s frames event n v w rest := by
  obtain ⟨f, k, hc, he⟩ := h.edge_cause hedge
  obtain ⟨t, u, ht, hm, hgate⟩ := hedge
  have heval := edge_evaluates ht hw hm hgate
  have hlevel := h.level_of_event hc he ht
  obtain ⟨turns, rfl⟩ := ht.found hv
  have hcon : (beginTurn t turns v).construction = s.construction := (h.static hv).2.1
  rcases List.mem_append.mp (hframes ▸ hc.mem) with hdone | hrest
  · have hk : k = 9 := by
      by_contra hk
      have hk8 : k ≤ 8 := by have := hc.lt; omega
      have hmul := Nat.mul_le_mul_right s.period.toNat hk8
      have hrange := (h.changeTime_range hc.mem (Nat.le_of_lt hc.lt)).2
      have hlate := (h.event_spec hc he).2.2
      have hmono : clock s n ≤ clock s (n + 1) := clock_mono s (Nat.le_succ n)
      have hcommitted := hpast f hdone
      have htiming : drift + latency < s.period.toNat / 2 := h.timing
      rw [mid_seven] at hcommitted
      omega
    subst hk
    have hidle_level : (beginTurn t turns v).rxIn ≠ startLevel (beginTurn t turns v).construction.invert := by
      rw [hcon, beginTurn_rxIn, hlevel, cellLevel_stop]
      exact Bool.not_ne_self _
    cases heval.symm.trans (evaluate_idle_other (s := beginTurn t turns v) hidle hidle_level)
    exact .quiet ⟨rfl, id⟩ (.waiting hidle (h.unheard_of_other (fun g hg => by simp [hframes, hg]) hunheard hc he
      fun _ _ _ => by decide))
  · obtain ⟨rfl, rest', rfl⟩ := h.first_edge_of_rest hframes hunheard hrest hc he
    have hstart_level : (beginTurn t turns v).rxIn = startLevel (beginTurn t turns v).construction.invert := by
      rw [hcon, beginTurn_rxIn, hlevel, cellLevel_start]
    cases heval.symm.trans (evaluate_idle_start (s := beginTurn t turns v) hidle hstart_level)
    exact .quiet ⟨rfl, id⟩ (.receiving (h.receiving_of_start hc.mem he hw rfl rfl) (h.unheard_tail hframes hunheard he))

/-! ### An edge while a frame is open -/

variable {m : Nat} {f : SentFrame} {i : Fin 8} (hopen : Receiving s frames event m n f i v)
include hopen

/-- The edge at boundary `q + 1` of the open frame finds the cells before it passed and no others. -/
theorem Reception.outcome_own_edge (hframes : frames = done ++ f :: rest) (hunheard : Unheard s event n rest)
    {q : Nat} (hc : PinChange s frames f (q + 1)) (he : event (changeTime s f (q + 1)) = some n) :
    TurnOutcome s frames event n v w (f :: rest) := by
  obtain ⟨hedge, hfrom, hto⟩ := h.event_spec hc he
  obtain ⟨t, u, ht, hm, hgate⟩ := id hedge
  have heval := edge_evaluates ht hw hm hgate
  have hlevel := h.level_of_event hc he ht
  obtain ⟨-, hmono, hm_from, hm_to⟩ := h.elapsed hopen hv ht (.inl hedge)
  obtain ⟨hrange_from, hrange_to⟩ := h.changeTime_range hc.mem (Nat.le_of_lt hc.lt)
  have htiming : drift + latency < s.period.toNat / 2 := h.timing
  have hbefore : clock s (n + 1) - clock s (m + 1) < mid s.period.toNat q := by
    unfold mid
    omega
  have hnone := h.heard_before_edge hopen hc he (K := q) (by have := hc.lt; omega)
    (h.changeTime_lt hc.mem (Nat.lt_succ_self q) (Nat.le_of_lt hc.lt))
  have hrest_unheard : Unheard s event (n + 1) rest :=
    h.unheard_of_other (fun g hg => by simp [hframes, hg]) hunheard hc he fun _ _ _ => by omega
  have hcases := h.evaluate_receiving hopen hv ht (.inl hedge) heval fun b hib hb hmid => by
    rw [hlevel, levelBefore_edge hc.changes]
    exact bit_of_constant_cells (Nat.lt_of_succ_lt hc.lt) hnone hc.mem hib hb (lt_of_mid_lt (hmid.trans_lt hbefore))
  rcases hcases with ⟨j, hij, hmid, hon⟩ | ⟨hlate, hends⟩
  · have hqj : q ≤ j.val := by
      cases q with
      | zero => exact Nat.zero_le _
      | succ q =>
        refine lt_of_mid_lt (period := s.period.toNat) (Nat.lt_of_le_of_lt ?_ hmid)
        have hnext : (q + 1 + 1) * s.period.toNat = (q + 1) * s.period.toNat + s.period.toNat := Nat.succ_mul _ _
        unfold mid
        omega
    refine .quiet hon.quiet (.receiving (hopen.goes_on hv hw hij hon fun k _ hk hn => ?_) hrest_unheard)
    obtain ⟨-, rfl⟩ := h.event_inj hk hc hn he
    exact Nat.succ_le_succ hqj
  · have hq : q = 8 := by
      have := lt_of_mid_lt (hlate.trans_lt hbefore)
      have := hc.lt
      omega
    subst hq
    have hstop : ¬ (EvalKind.edge = .edge ∧ t.level = startLevel s.construction.invert) := by
      rw [hlevel, cellLevel_stop]
      exact fun hstart => Bool.not_ne_self _ hstart.2
    refine .commits hends.commits (fun g hg => ?_) ?_ (.waiting (hends.idles hstop) hrest_unheard)
    · cases List.mem_singleton.mp hg
      exact ⟨n, .inl ⟨hedge, hfrom⟩⟩
    · rw [mid_seven]
      omega

/-- The start edge of the next frame commits the open one and opens the next. -/
theorem Reception.outcome_next_start {g : SentFrame} {rest' : List SentFrame} (hframes : frames = done ++ f :: g :: rest')
    (hunheard : Unheard s event n (g :: rest')) (he : event (changeTime s g 0) = some n) :
    TurnOutcome s frames event n v w (f :: g :: rest') := by
  have hg : g ∈ frames := by simp [hframes]
  have hc := pinChange_start (s := s) hg
  obtain ⟨hedge, hfrom, hto⟩ := h.event_spec hc he
  obtain ⟨t, u, ht, hm, hgate⟩ := id hedge
  have heval := edge_evaluates ht hw hm hgate
  have hlevel := h.level_of_event hc he ht
  obtain ⟨-, hmono, hm_from, hm_to⟩ := h.elapsed hopen hv ht (.inl hedge)
  have hafter : changeTime s f 10 ≤ changeTime s g 0 := by
    rw [h.changeTime_zero hg]
    exact (framesApart_split (hframes ▸ h.apart)).2 g List.mem_cons_self
  have hlast := h.changeTime_lt hopen.mem (show 9 < 10 by decide) (Nat.le_refl 10)
  have hrange := (h.changeTime_range hopen.mem (Nat.le_refl 10)).1
  have htiming : drift + latency < s.period.toNat / 2 := h.timing
  have hlate : mid s.period.toNat 7 ≤ clock s (n + 1) - clock s (m + 1) := by
    rw [mid_seven]
    omega
  have hnone := h.heard_before_edge hopen hc he (K := 9) (by decide) (by omega)
  have hcases := h.evaluate_receiving hopen hv ht (.inl hedge) heval fun b hib hb _ => by
    have hstop : levelBefore .edge t.level = cellLevel s.construction.invert f.byte 9 := by
      rw [hlevel, cellLevel_start, cellLevel_stop]
      rfl
    rw [hstop]
    exact bit_of_constant_cells (by decide) hnone hopen.mem hib hb (by omega)
  rcases hcases with ⟨j, -, hmid, -⟩ | ⟨-, hends⟩
  · have := mid_mono s.period.toNat (Nat.le_of_lt_succ j.isLt)
    omega
  obtain ⟨hidx, href⟩ := hends.opens ⟨rfl, hlevel⟩
  refine .commits hends.commits (fun f' hf' => ?_) ?_ (.receiving (h.receiving_of_start hg he hw hidx href)
    (h.unheard_tail (done := done ++ [f]) (by simp [hframes]) hunheard he))
  · cases List.mem_singleton.mp hf'
    exact ⟨n, .inl ⟨hedge, hlast.le.trans (hafter.trans hfrom)⟩⟩
  · rw [mid_seven]
    omega

/-- An edge that finds a frame open is one of that frame's, or the start edge of the next frame. -/
theorem Reception.outcome_edge_receiving (hframes : frames = done ++ f :: rest) (hunheard : Unheard s event n rest)
    (hedge : EdgeTaken s n) : TurnOutcome s frames event n v w (f :: rest) := by
  obtain ⟨g, k, hc, he⟩ := h.edge_cause hedge
  have hf := pinChange_start (s := s) hopen.mem
  have hafter : changeTime s f 0 < changeTime s g k := by
    refine Nat.lt_of_not_le fun hle => ?_
    rcases Nat.eq_or_lt_of_le hle with heq | hlt
    · rw [heq, hopen.start] at he
      exact Nat.ne_of_lt hopen.before (Option.some.inj he)
    · exact Nat.lt_asymm hopen.before (h.event_lt hc hf he hopen.start hlt)
  rcases List.mem_append.mp (hframes ▸ hc.mem) with hdone | hrest
  · have hlast := h.changeTime_lt hc.mem hc.lt (Nat.le_refl 10)
    have hsplit : changeTime s g 10 ≤ f.start := (framesApart_split (hframes ▸ h.apart)).1 g hdone
    rw [h.changeTime_zero hopen.mem] at hafter
    omega
  rcases List.mem_cons.mp hrest with rfl | hrest
  · cases k with
    | zero => exact absurd hafter (Nat.lt_irrefl _)
    | succ q => exact h.outcome_own_edge hv hw hopen hframes hunheard hc he
  · obtain ⟨rfl, rest', rfl⟩ := h.first_edge_of_rest (done := done ++ [f]) (by simp [hframes]) hunheard hrest hc he
    exact h.outcome_next_start hv hw hopen hframes hunheard he

end reception

end Sys2Proof.Machine
end

section
/-! PROOFS. Reception (R250, R251), last part: a `poll` of an open frame, the record of the commits along the run, and the claim. -/

namespace Sys2Proof.Machine

theorem EdgeTaken.lt {s : State} {n : Nat} (h : EdgeTaken s n) : n < s.schedule.length := by
  obtain ⟨_, _, ht, -⟩ := h
  exact ht.lt

theorem PollTaken.turnAt {s u : State} {n : Nat} (h : PollTaken s n u) : ∃ t, TurnAt s n t u := by
  obtain ⟨t, _, ht, -⟩ := h
  exact ⟨t, ht⟩

theorem PollTaken.not_edgeTaken {s u : State} {n : Nat} (h : PollTaken s n u) : ¬ EdgeTaken s n := by
  obtain ⟨t, w, ht, hm, -⟩ := h
  rintro ⟨t', u', ht', hm', -⟩
  obtain ⟨rfl, -⟩ := ht.unique ht'
  cases hm.symm.trans hm'

/-- Boundary `k` of `f` is a transition that has passed the pin by turn `n`. -/
def HasPassed (s : State) (frames : List SentFrame) (f : SentFrame) (n k : Nat) : Prop :=
  PinChange s frames f k ∧ changeTime s f k ≤ clock s (n + 1)

section reception
variable {s : State} {frames : List SentFrame} {drift latency : Nat} {event : Nat → Option Nat}
variable (h : Reception s frames drift latency event)
include h

/-! ### A `poll` -/

/-- At a `poll` that finds a frame open the pin has the level of the last of its cells that began with a transition. -/
theorem Reception.level_of_poll {done rest : List SentFrame} {m n : Nat} {f : SentFrame} {i : Fin 8} {v u : State} {t : Turn}
    (hframes : frames = done ++ f :: rest) (hunheard : Unheard s event n rest)
    (hopen : Receiving s frames event m n f i v) (hpoll : PollTaken s n u) (ht : TurnAt s n t u) :
    ∃ q, PinChange s frames f q ∧ changeTime s f q ≤ clock s (n + 1) ∧
      (∀ k, PinChange s frames f k → changeTime s f k ≤ clock s (n + 1) → k ≤ q) ∧
      t.level = cellLevel s.construction.invert f.byte q := by
  classical
  have hstart : changeTime s f 0 ≤ clock s (n + 1) :=
    (h.event_spec (pinChange_start hopen.mem) hopen.start).2.1.trans (clock_mono s (Nat.le_succ_of_le hopen.before))
  obtain ⟨hq, hq_passed⟩ := Nat.findGreatest_spec (P := HasPassed s frames f n) (Nat.zero_le 9)
    ⟨pinChange_start hopen.mem, hstart⟩
  have hq_last : ∀ k, PinChange s frames f k → changeTime s f k ≤ clock s (n + 1) →
      k ≤ Nat.findGreatest (HasPassed s frames f n) 9 :=
    fun k hk hle => Nat.le_findGreatest (Nat.le_of_lt_succ hk.lt) ⟨hk, hle⟩
  generalize Nat.findGreatest (HasPassed s frames f n) 9 = q at hq hq_passed hq_last
  refine ⟨q, hq, hq_passed, hq_last, (h.read n t u ht).1 _ hq.mem_transitionsOf hq_passed fun b hb hb_passed => ?_⟩
  obtain ⟨g, hg, k, hk, hchange, rfl⟩ := Machine.mem_transitionsOf.mp hb
  have hc : PinChange s frames g k := ⟨hg, hk, hchange⟩
  change changeTime s g k ≤ changeTime s f q
  have hk_passed : changeTime s g k ≤ clock s (n + 1) := hb_passed
  rcases List.mem_append.mp (hframes ▸ hg) with hdone | hrest
  · have hlast := h.changeTime_lt hg hk (Nat.le_refl 10)
    have hsplit : changeTime s g 10 ≤ f.start := (framesApart_split (hframes ▸ h.apart)).1 g hdone
    exact hlast.le.trans (hsplit.trans (h.start_le hopen.mem (Nat.le_of_lt hq.lt)))
  rcases List.mem_cons.mp hrest with rfl | hrest
  · rcases Nat.eq_or_lt_of_le (hq_last k hc hk_passed) with rfl | hlt
    · exact Nat.le_refl _
    · exact (h.changeTime_lt hg hlt (Nat.le_of_lt hq.lt)).le
  · have hfirst : changeTime s g 0 ≤ changeTime s g k := by
      rw [h.changeTime_zero hg]
      exact h.start_le hg (Nat.le_of_lt hk)
    exact absurd (h.heard_of_poll (pinChange_start hg) hpoll (hfirst.trans hk_passed)) (hunheard g hrest)

/-- A `poll` advances the cells whose midpoints have passed with their own bits, since no transition is pending. -/
theorem Reception.bit_of_poll {m n : Nat} {f : SentFrame} {i : Fin 8} {v u : State} {q : Nat}
    (hopen : Receiving s frames event m n f i v) (hpoll : PollTaken s n u) (hq : PinChange s frames f q)
    (hq_passed : changeTime s f q ≤ clock s (n + 1))
    (hq_last : ∀ k, PinChange s frames f k → changeTime s f k ≤ clock s (n + 1) → k ≤ q)
    (hstart : f.start ≤ clock s (m + 1)) {b : Nat} (hib : i.val ≤ b) (hb : b < 8)
    (hmid : mid s.period.toNat b ≤ clock s (n + 1) - clock s (m + 1)) :
    lineBit s.construction.invert (cellLevel s.construction.invert f.byte q) = f.byte.getLsbD b := by
  rcases Nat.lt_or_ge (b + 1) q with hlt | hge
  · refine bit_of_constant_cells hq.lt (fun k hk hkq => ?_) hopen.mem hib hb (Nat.le_of_lt hlt)
    rcases Nat.eq_zero_or_pos k with rfl | hpos
    · exact Nat.zero_le _
    refine hopen.heard k hpos hk (h.heard_of_poll hk hpoll (Nat.le_trans ?_ hq_passed))
    rcases Nat.eq_or_lt_of_le hkq with rfl | hkq
    · exact Nat.le_refl _
    · exact (h.changeTime_lt hopen.mem hkq (Nat.le_of_lt hq.lt)).le
  · rw [← cellLevel_const hge fun k hqk hkb => ?_, lineBit_cellLevel _ _ hb]
    by_contra hchange
    have hk : PinChange s frames f k := ⟨hopen.mem, by omega, Bool.eq_true_of_not_eq_false hchange⟩
    have hrange := (h.changeTime_range hopen.mem (Nat.le_of_lt hk.lt)).2
    have hmul := Nat.mul_le_mul_right s.period.toNat hkb
    have htiming : drift + latency < s.period.toNat / 2 := h.timing
    unfold mid at hmid
    have := hq_last k hk (by omega)
    omega

theorem Reception.outcome_poll {done rest : List SentFrame} {n : Nat} {v w u : State} (hv : run n s = .next v)
    (hw : run (n + 1) s = .next w) (hframes : frames = done ++ rest) (hphase : Phase s frames event n rest v)
    (hpoll : PollTaken s n u) : TurnOutcome s frames event n v w rest := by
  obtain ⟨x, hx, rfl⟩ := pollTaken_evaluates hpoll hw
  obtain ⟨t, ht⟩ := hpoll.turnAt
  have hedge := hpoll.not_edgeTaken
  cases hphase with
  | waiting hidle hunheard =>
    obtain ⟨turns, rfl⟩ := ht.found hv
    cases hx.symm.trans (evaluate_idle_poll (s := beginTurn t turns v) hidle)
    exact .quiet ⟨rfl, id⟩ (.waiting hidle (h.unheard_of_not_edge (fun g hg => by simp [hframes, hg]) hunheard hedge))
  | receiving hopen hunheard =>
    have heval : Evaluates s n := .inr (.inl ⟨u, hpoll⟩)
    obtain ⟨helapsed, hmono, hstart, -⟩ := h.elapsed hopen hv ht heval
    obtain ⟨q, hq, hq_passed, hq_last, hlevel⟩ := h.level_of_poll hframes hunheard hopen hpoll ht
    have hrest := h.unheard_of_not_edge (fun g hg => by simp [hframes, hg]) hunheard hedge
    rcases h.evaluate_receiving hopen hv ht heval hx fun b hib hb hmid => by
        rw [hlevel]
        exact h.bit_of_poll hopen hpoll hq hq_passed hq_last hstart hib hb hmid
      with ⟨j, hij, -, hon⟩ | ⟨hlate, hends⟩
    · have hon : GoesOn v (respond 0#32 x) _ j := ⟨hon.quiet, hon.index, hon.ref, hon.bits⟩
      exact .quiet hon.quiet (.receiving
        (hopen.goes_on hv hw hij hon fun k _ hk he => absurd he (h.event_ne_of_not_edge hk hedge)) hrest)
    · have hpast : _ + mid s.period.toNat 7 ≤ clock s (n + 1) := (Nat.add_le_add_right hstart _).trans (by omega)
      refine .commits hends.responds (fun g hg => ?_) hpast (.waiting (hends.idles (by simp)) hrest)
      cases List.mem_singleton.mp hg
      exact ⟨n, .inr ⟨u, hpoll, hpast, hlate.trans_eq helapsed.symm⟩⟩

/-! ### The record of commits -/

/-- What the run has committed within its first `n` turns: the byte of each of the frames `done`, once and in order, by the turn
that `turn` names by the frame's start, and nothing else. -/
structure History (s : State) (done : List SentFrame) (turn : Nat → Nat) (n : Nat) : Prop where
  commits : ∀ f ∈ done, turn f.start < n ∧ Completed s [f] s.period.toNat ∧
    ∃ u v, run (turn f.start) s = .next u ∧ run (turn f.start + 1) s = .next v ∧ Commits u v f.byte
  ordered : ∀ f ∈ done, ∀ g ∈ done, f.start < g.start → turn f.start < turn g.start
  quiet : ∀ m < n, (∀ f ∈ done, turn f.start ≠ m) →
    ∀ u v, run m s = .next u → run (m + 1) s = .next v → QuietTurn u v

omit h in
theorem History.of_quiet {done : List SentFrame} {turn : Nat → Nat} {n : Nat} {v w : State} (hist : History s done turn n)
    (hv : run n s = .next v) (hw : run (n + 1) s = .next w) (hquiet : QuietTurn v w) : History s done turn (n + 1) where
  commits f hf := (hist.commits f hf).imp Nat.lt_succ_of_lt id
  ordered := hist.ordered
  quiet m hm hnot u x hu hx := by
    rcases Nat.lt_succ_iff_lt_or_eq.mp hm with hlt | rfl
    · exact hist.quiet m hlt hnot u x hu hx
    · cases hv.symm.trans hu
      cases hw.symm.trans hx
      exact hquiet

omit h in
/-- A commit of a frame behind those done. -/
theorem History.of_commit {done : List SentFrame} {turn : Nat → Nat} {n : Nat} {v w : State} {f : SentFrame}
    (hist : History s done turn n) (hv : run n s = .next v) (hw : run (n + 1) s = .next w)
    (hbehind : ∀ g ∈ done, g.start < f.start) (hcommits : Commits v w f.byte)
    (hcompleted : Completed s [f] s.period.toNat) :
    History s (done ++ [f]) (Function.update turn f.start n) (n + 1) := by
  have hnew : Function.update turn f.start n f.start = n := Function.update_self ..
  have hold : ∀ g ∈ done, Function.update turn f.start n g.start = turn g.start := fun g hg =>
    Function.update_of_ne (Nat.ne_of_lt (hbehind g hg)) ..
  refine ⟨fun g hg => ?_, fun g hg g' hg' hlt => ?_, fun m hm hnot u x hu hx => ?_⟩
  · rcases List.mem_append.mp hg with hg | hg
    · rw [hold g hg]
      exact (hist.commits g hg).imp Nat.lt_succ_of_lt id
    · cases List.mem_singleton.mp hg
      rw [hnew]
      exact ⟨Nat.lt_succ_self n, hcompleted, v, w, hv, hw, hcommits⟩
  · rcases List.mem_append.mp hg with hg | hg <;> rcases List.mem_append.mp hg' with hg' | hg'
    · rw [hold g hg, hold g' hg']
      exact hist.ordered g hg g' hg' hlt
    · cases List.mem_singleton.mp hg'
      rw [hold g hg, hnew]
      exact (hist.commits g hg).1
    · cases List.mem_singleton.mp hg
      exact absurd (hbehind g' hg') (Nat.lt_asymm hlt)
    · cases List.mem_singleton.mp hg
      cases List.mem_singleton.mp hg'
      exact absurd hlt (Nat.lt_irrefl _)
  · have hm : m < n := Nat.lt_of_le_of_ne (Nat.le_of_lt_succ hm) fun heq =>
      hnot f (List.mem_append_right done (List.mem_singleton_self f)) (hnew.trans heq.symm)
    refine hist.quiet m hm (fun g hg heq => hnot g (List.mem_append_left [f] hg) ?_) u x hu hx
    rw [hold g hg, heq]

/-- Where the run stands after `n` turns: the frames split into those committed and the rest. -/
structure Progress (s : State) (frames : List SentFrame) (event : Nat → Option Nat) (n : Nat) (v : State)
    (done rest : List SentFrame) (turn : Nat → Nat) : Prop where
  split : frames = done ++ rest
  history : History s done turn n
  past : ∀ f ∈ done, f.start + mid s.period.toNat 7 ≤ clock s n
  phase : Phase s frames event n rest v

theorem Reception.turn_outcome {done rest : List SentFrame} {turn : Nat → Nat} {n : Nat} {v w : State}
    (hprog : Progress s frames event n v done rest turn) (hv : run n s = .next v) (hw : run (n + 1) s = .next w)
    (hlt : n < s.schedule.length) : TurnOutcome s frames event n v w rest := by
  by_cases hedge : EdgeTaken s n
  · obtain ⟨hsplit, -, hpast, hphase⟩ := hprog
    cases hphase with
    | waiting hidle hunheard => exact h.outcome_edge_waiting hv hw hsplit hpast hidle hunheard hedge
    | receiving hopen hunheard => exact h.outcome_edge_receiving hv hw hopen hsplit hunheard hedge
  by_cases hpoll : ∃ u, PollTaken s n u
  · obtain ⟨u, hpoll⟩ := hpoll
    exact h.outcome_poll hv hw hprog.split hprog.phase hpoll
  · exact h.outcome_of_no_evaluation hv hw hprog.split hprog.phase hlt hedge fun u hu => hpoll ⟨u, hu⟩

theorem Reception.progress_succ {done rest : List SentFrame} {turn : Nat → Nat} {n : Nat} {v w : State}
    (hprog : Progress s frames event n v done rest turn) (hv : run n s = .next v) (hw : run (n + 1) s = .next w)
    (hlt : n < s.schedule.length) :
    ∃ done' rest' turn', Progress s frames event (n + 1) w done' rest' turn' := by
  have hmono : clock s n ≤ clock s (n + 1) := clock_mono s (Nat.le_succ n)
  have houtcome := h.turn_outcome hprog hv hw hlt
  obtain ⟨hsplit, hist, hpast, -⟩ := hprog
  cases houtcome with
  | quiet hquiet hphase =>
    exact ⟨done, rest, turn, hsplit, hist.of_quiet hv hw hquiet, fun f hf => (hpast f hf).trans hmono, hphase⟩
  | @commits f rest hcommits hcompleted hdone hphase =>
    have hbehind : ∀ g ∈ done, g.start < f.start := fun g hg => by
      have hgf : changeTime s g 10 ≤ f.start := (framesApart_split (hsplit ▸ h.apart)).1 g hg
      have hframe : g ∈ frames := by simp [hsplit, hg]
      have hlen := h.changeTime_lt hframe (show 0 < 10 by decide) (Nat.le_refl 10)
      rw [h.changeTime_zero hframe] at hlen
      exact hlen.trans_le hgf
    refine ⟨done ++ [f], rest, _, by simp [hsplit], hist.of_commit hv hw hbehind hcommits hcompleted, fun g hg => ?_, hphase⟩
    rcases List.mem_append.mp hg with hg | hg
    · exact (hpast g hg).trans hmono
    · cases List.mem_singleton.mp hg
      exact hdone

theorem Reception.progress (hidle : s.rxIdx = .idle) {n : Nat} (hn : n ≤ s.schedule.length) {v : State}
    (hv : run n s = .next v) : ∃ done rest turn, Progress s frames event n v done rest turn := by
  induction n generalizing v with
  | zero =>
    cases hv
    have hnone : ∀ f : SentFrame, f ∉ ([] : List SentFrame) := fun _ => List.not_mem_nil
    exact ⟨[], frames, id, rfl,
      ⟨fun f hf => absurd hf (hnone f), fun f hf => absurd hf (hnone f), fun m hm => absurd hm (Nat.not_lt_zero m)⟩,
      fun f hf => absurd hf (hnone f), .waiting hidle fun _ _ ⟨m, hm, _⟩ => Nat.not_lt_zero m hm⟩
  | succ n ih =>
    obtain ⟨u, hu⟩ := run_prefix hv
    obtain ⟨done, rest, turn, hprog⟩ := ih (Nat.le_of_succ_le hn) hu
    exact h.progress_succ hprog hu hv hn

/-! ### Completed frames -/

/-- A `poll` at an elapsed time of `Mid(7)` leaves the assembly idle. -/
theorem Reception.idle_after_late_poll {n : Nat} {u v w : State} (hpoll : PollTaken s n u) (hv : run n s = .next v)
    (hw : run (n + 1) s = .next w) (hopen : v.rxIdx ≠ .idle)
    (hlate : mid s.period.toNat 7 ≤ elapsedSince u.rxRef u.cycle) : w.rxIdx = .idle := by
  obtain ⟨x, hx, rfl⟩ := pollTaken_evaluates hpoll hw
  obtain ⟨t, ht⟩ := hpoll.turnAt
  obtain ⟨turns, rfl⟩ := ht.found hv
  have hper : (beginTurn t turns v).period = s.period := (h.static hv).2.2
  cases hidx : v.rxIdx with
  | idle => exact absurd hidx hopen
  | data i =>
    obtain ⟨-, y, -, -, heval⟩ := lateEvaluationCommits (beginTurn t turns v) .poll i ((h.inv_at hv).beginTurn t turns) hidx
      (by rw [hper]; exact hlate)
    rw [if_neg (by simp)] at heval
    cases hx.symm.trans heval
    rfl

/-- An edge taken at or after its boundary 9 closes a frame. -/
theorem Reception.closed_by_late_edge {done rest : List SentFrame} {f : SentFrame} {m n N : Nat} {i : Fin 8} {v : State}
    (hsplit : frames = done ++ f :: rest) (hunheard : Unheard s event N rest)
    (hopen : Receiving s frames event m N f i v) (hedge : EdgeTaken s n) (hn : n < N)
    (hlate : changeTime s f 9 ≤ clock s (n + 1)) : False := by
  obtain ⟨g, k, hc, he⟩ := h.edge_cause hedge
  have hto := (h.event_spec hc he).2.2
  have hrange := (h.changeTime_range hopen.mem (show 9 ≤ 10 by decide)).1
  have htiming : drift + latency < s.period.toNat / 2 := h.timing
  rcases List.mem_append.mp (hsplit ▸ hc.mem) with hdone | hrest
  · have hlast := h.changeTime_lt hc.mem hc.lt (Nat.le_refl 10)
    have hgf : changeTime s g 10 ≤ f.start := (framesApart_split (hsplit ▸ h.apart)).1 g hdone
    omega
  rcases List.mem_cons.mp hrest with rfl | hrest
  · have hk : k = 9 := by
      by_contra hk
      have hk8 : k ≤ 8 := by have := hc.lt; omega
      have hmul := Nat.mul_le_mul_right s.period.toNat hk8
      have hbefore := (h.changeTime_range hc.mem (Nat.le_of_lt hc.lt)).2
      omega
    subst hk
    have := hopen.heard 9 (by decide) hc ⟨n, hn, he⟩
    omega
  · refine hunheard g hrest ?_
    rcases Nat.eq_zero_or_pos k with rfl | hpos
    · exact ⟨n, hn, he⟩
    · obtain ⟨n', hn', he'⟩ := h.heard_of_earlier (pinChange_start hc.mem) hc he
        (h.changeTime_lt hc.mem hpos (Nat.le_of_lt hc.lt))
      exact ⟨n', hn'.trans hn, he'⟩

/-- At the end of the run no frame that is still open or unheard is completed. -/
theorem Reception.mem_done_of_completed {done rest : List SentFrame} {turn : Nat → Nat} {v : State}
    (hprog : Progress s frames event s.schedule.length v done rest turn) {f : SentFrame} (hf : f ∈ frames)
    (hcompleted : Completed s [f] s.period.toNat) : f ∈ done := by
  obtain ⟨hsplit, -, -, hphase⟩ := hprog
  obtain ⟨n, hn⟩ := hcompleted f (List.mem_singleton_self f)
  have hheard : ∀ {g : SentFrame} {k m : Nat}, PinChange s frames g k → event (changeTime s g k) = some m →
      Heard event s.schedule.length (changeTime s g k) := fun hc he => ⟨_, (h.event_spec hc he).1.lt, he⟩
  have hpassed : changeTime s f 0 ≤ clock s (n + 1) := by
    rw [h.changeTime_zero hf]
    rcases hn with ⟨-, hn⟩ | ⟨u, -, hn, -⟩
    · exact (h.start_le hf (by decide)).trans hn
    · exact (Nat.le_add_right _ _).trans hn
  obtain ⟨m', hm'⟩ := h.event_of_passed (pinChange_start hf) hpassed
  have hstarted := hheard (pinChange_start hf) hm'
  rcases List.mem_append.mp (hsplit ▸ hf) with hdone | hrest
  · exact hdone
  exfalso
  cases hphase with
  | waiting _ hunheard => exact hunheard f hrest hstarted
  | @receiving g rest _ m i hopen hunheard =>
    rcases List.mem_cons.mp hrest with rfl | hrest
    case inr => exact hunheard f hrest hstarted
    rcases hn with ⟨hedge, hstop⟩ | ⟨u, hpoll, -, hlate⟩
    · exact h.closed_by_late_edge hsplit hunheard hopen hedge hedge.lt hstop
    · obtain ⟨m'', hm''n, hm''⟩ := h.heard_of_poll (pinChange_start hf) hpoll hpassed
      cases hopen.start.symm.trans hm''
      obtain ⟨t, ht⟩ := hpoll.turnAt
      obtain ⟨x, hx, hx_open, -⟩ := hopen.frameOpen n hm''n ht.lt.le
      obtain ⟨y, hy, hy_open, -⟩ := hopen.frameOpen (n + 1) (Nat.lt_succ_of_lt hm''n) ht.lt
      exact hy_open (h.idle_after_late_poll hpoll hx hy hx_open hlate)

end reception

/-- Past its last turn a run commits nothing. -/
theorem quietTurn_of_no_turn {s u v : State} {n : Nat} (hu : run n s = .next u) (hv : run (n + 1) s = .next v)
    (hn : s.schedule.length ≤ n) : QuietTurn u v := by
  cases hv.symm.trans (run_of_no_turn hu hn)
  exact ⟨rfl, id⟩

/-- Settles O32, by induction on the turns: after each of them the frames split into those whose bytes are committed, in order, and
the rest, of which at most the first is open; a completed frame is no longer open when the run ends. -/
theorem timedFrameIsReceived : Obligations.TimedFrameIsReceived := by
  intro s frames drift latency hinv hidle hattached hundisturbed hapart hread hsettled haccurate hfaithful htiming hhearing hsane
    hnot
  rcases hinv.run_goes_on hnot s.schedule.length with ⟨t, ht, -⟩ | hfault
  case inr => exact .inl hfault
  obtain ⟨event, howed, hanswered, hordered, hcaused⟩ := hfaithful
  have h : Reception s frames drift latency event :=
    ⟨hinv, hattached, hundisturbed, hapart, hread, hsettled, haccurate, htiming, hhearing, hsane, run_total ht, howed,
      hanswered, hordered, hcaused⟩
  obtain ⟨done, rest, turn, hprog⟩ := h.progress hidle (Nat.le_refl _) ht
  have hdone : ∀ f ∈ frames, Completed s [f] s.period.toNat → f ∈ done := fun f => h.mem_done_of_completed hprog
  have hist := hprog.history
  refine .inr ⟨t, turn, ht, fun f hf hc => (hist.commits f (hdone f hf hc)).2.2,
    fun f hf g hg hcf hcg => hist.ordered f (hdone f hf hcf) g (hdone g hg hcg), fun n u v hu hv hother => ?_, fun hall => ?_⟩
  · rcases Nat.lt_or_ge n s.schedule.length with hlt | hge
    · refine hist.quiet n hlt (fun f hf => hother f ?_ (hist.commits f hf).2.1) u v hu hv
      simp [hprog.split, hf]
    · exact quietTurn_of_no_turn hu hv hge
  · have hphase := hprog.phase
    cases hphase with
    | waiting hidle => exact hidle
    | @receiving f rest _ m i hopen =>
      have hc : Completed s [f] s.period.toNat := fun g hg => List.mem_singleton.mp hg ▸ hall f hopen.mem
      have hmem := hdone f hopen.mem hc
      have hfirst := h.changeTime_lt hopen.mem (show 0 < 10 by decide) (Nat.le_refl 10)
      have hself : changeTime s f 10 ≤ f.start := (framesApart_split (hprog.split ▸ h.apart)).1 f hmem
      rw [h.changeTime_zero hopen.mem] at hfirst
      omega

end Sys2Proof.Machine
end
